-- ==== Sys2Proof/Word.lean ====
section
/-! DEFINITION. The word types of KAC (spec R7, R8, R21, R26). -/

namespace Sys2Proof

/-- A byte (R8). -/
abbrev Byte := BitVec 8

/-- A host register word, and a command word (R26, R90). -/
abbrev Word := BitVec 32

/-- The contents of a field register or of a point coordinate: 256 bits (R21, R22). -/
abbrev U256 := BitVec 256

/-- A byte string, first byte first (R8). -/
abbrev Bytes := List Byte

/-- A coefficient of the Kyber ring: the canonical residue in [0, 3329) (R14, R23).
The type's own addition, subtraction and multiplication are those modulo 3329. -/
abbrev Coeff := Fin 3329

/-- A polynomial: 256 coefficients, entry j first to last (R14, R23). -/
abbrev Poly := Vector Coeff 256

/-- The 16-bit immediate of format M (R93, R95). -/
abbrev Imm16 := BitVec 16

end Sys2Proof
end

