-- ==== Sys2Proof/Syntax.lean ====
section
/-! DEFINITION. The 45 commands of KAC as syntax, one constructor per row of the opcode map (spec R97).
Register operands stand in the order of the assembler syntax (R100): destination first, then sources.
F register indices are 0 to 15, P indices 0 to 3, R indices 0 to 7 (R94). The modifiers eta and d of CBD, RCOMP
and RDECOMP are kept as the 4-bit field x of the word (R96); WellFormed says which values are legal. -/

namespace Sys2Proof

inductive Instr where
  -- SYSTEM (R270, R271)
  | nop
  | zeroize
  -- FIELD (R111 to R122)
  | fadd (d a b : Fin 16)
  | fsub (d a b : Fin 16)
  | fmont (d a b : Fin 16)
  | fred (d a : Fin 16)
  | fredw (d a b : Fin 16)
  | finv (d a : Fin 16)
  | ftom (d a : Fin 16)
  | ffrom (d a : Fin 16)
  | fmov (d a : Fin 16)
  | fld (d : Fin 16) (addr : Imm16)
  | fst (a : Fin 16) (addr : Imm16)
  | sred (d a : Fin 16)
  -- POINT (R142 to R153)
  | pld (d : Fin 4) (addr : Imm16)
  | pst (a : Fin 4) (addr : Imm16)
  | pmov (d a : Fin 4)
  | pbase (d : Fin 4)
  | pinf (d : Fin 4)
  | pvalid (a : Fin 4)
  | padd (d a b : Fin 4)
  | pdbl (d a : Fin 4)
  | pgetx (d : Fin 16) (a : Fin 4)
  | pgety (d : Fin 16) (a : Fin 4)
  | pset (d : Fin 4) (a b : Fin 16)
  | smul (d : Fin 4) (a : Fin 16) (b : Fin 4)
  -- ECDH (R171, R172)
  | ecdhKeygen
  | ecdhSecret
  -- RING (R191 to R204)
  | rld (d : Fin 8) (addr : Imm16)
  | rst (a : Fin 8) (addr : Imm16)
  | rmov (d a : Fin 8)
  | radd (d a b : Fin 8)
  | rsub (d a b : Fin 8)
  | ntt (d a : Fin 8)
  | intt (d a : Fin 8)
  | pwmul (d a b : Fin 8)
  | polymul (d a b : Fin 8)
  | cbd (d : Fin 8) (eta : Fin 16) (addr : Imm16)
  | sampleu (d : Fin 8) (a b : Fin 4) (addr : Imm16)
  | rcomp (a : Fin 8) (bits : Fin 16) (addr : Imm16)
  | rdecomp (d : Fin 8) (bits : Fin 16) (addr : Imm16)
  -- KYBER (R231 to R237)
  | kybInit (strength : Imm16)
  | kybKeygen
  | kybEncaps
  | kybDecaps
  deriving DecidableEq, Repr

end Sys2Proof
end

