-- ==== Sys2Proof/WellFormed.lean ====
section
/-! DEFINITION. Which terms of Instr are commands: the legal values of the modifier x (spec R96).
Every other operand is legal at every value of its type (R94, R95). -/

namespace Sys2Proof

/-- eta of CBD is 2 or 3 (R96). -/
def legalEta (eta : Fin 16) : Bool := eta.val == 2 || eta.val == 3

/-- d of RCOMP and RDECOMP is one of 1, 4, 5, 10, 11 (R96). -/
def legalBits (d : Fin 16) : Bool :=
  d.val == 1 || d.val == 4 || d.val == 5 || d.val == 10 || d.val == 11

/-- The term is a command with legal fields (R96, R102). -/
def Instr.wellFormed : Instr → Bool
  | .cbd _ eta _ => legalEta eta
  | .rcomp _ d _ => legalBits d
  | .rdecomp _ d _ => legalBits d
  | .nop | .zeroize => true
  | .fadd _ _ _ | .fsub _ _ _ | .fmont _ _ _ | .fred _ _ | .fredw _ _ _ | .finv _ _ => true
  | .ftom _ _ | .ffrom _ _ | .fmov _ _ | .fld _ _ | .fst _ _ | .sred _ _ => true
  | .pld _ _ | .pst _ _ | .pmov _ _ | .pbase _ | .pinf _ | .pvalid _ => true
  | .padd _ _ _ | .pdbl _ _ | .pgetx _ _ | .pgety _ _ | .pset _ _ _ | .smul _ _ _ => true
  | .ecdhKeygen | .ecdhSecret => true
  | .rld _ _ | .rst _ _ | .rmov _ _ | .radd _ _ _ | .rsub _ _ _ => true
  | .ntt _ _ | .intt _ _ | .pwmul _ _ _ | .polymul _ _ _ | .sampleu _ _ _ _ => true
  | .kybInit _ | .kybKeygen | .kybEncaps | .kybDecaps => true

end Sys2Proof
end

