-- ==== Sys2Proof/Decode.lean ====
section
/-! DEFINITION. The command decoder, total on all 2^32 words and rejecting by name (spec R90 to R98, R102), and the encoder. -/

namespace Sys2Proof

/-- Why a word is illegal (R98, R102). -/
inductive Illegal where
  /-- bits 31:24 are not one of the 45 opcodes of R97 -/
  | opcode
  /-- a must-be-zero bit, or an unused field, is not 0 -/
  | reserved
  /-- a P index above 3 or an R index above 7 (R94) -/
  | register
  /-- x outside the legal set of R96 -/
  | modifier
  deriving DecidableEq, Repr

/-! ### The fields of a word (R90 to R93) -/

/-- Bits 31:24, the opcode of every format. -/
def opField (w : Word) : BitVec 8 := w.extractLsb' 24 8
/-- Bits 23:20: rd of format R, r of format M. -/
def rdField (w : Word) : BitVec 4 := w.extractLsb' 20 4
/-- Bits 19:16: ra of format R, x of format M. -/
def raField (w : Word) : BitVec 4 := w.extractLsb' 16 4
/-- Bits 15:12: rb of format R. -/
def rbField (w : Word) : BitVec 4 := w.extractLsb' 12 4
/-- Bits 11:0, zero in format R. -/
def lowField (w : Word) : BitVec 12 := w.extractLsb' 0 12
/-- Bits 15:0: imm16 of format M. -/
def immField (w : Word) : Imm16 := w.extractLsb' 0 16
/-- Bits 23:0, zero in format N. -/
def nField (w : Word) : BitVec 24 := w.extractLsb' 0 24

/-! ### Register indices (R94) -/

/-- Every 4-bit value is an F index. -/
def fIndex (x : BitVec 4) : Fin 16 := x.toFin

/-- A P index is 0 to 3. -/
def pIndex (x : BitVec 4) : Except Illegal (Fin 4) :=
  if h : x.toNat < 4 then .ok ⟨x.toNat, h⟩ else .error .register

/-- An R index is 0 to 7. -/
def rIndex (x : BitVec 4) : Except Illegal (Fin 8) :=
  if h : x.toNat < 8 then .ok ⟨x.toNat, h⟩ else .error .register

/-- A field that must be 0 (R98). -/
def mustBeZero {n : Nat} (x : BitVec n) : Except Illegal Unit :=
  if x = 0#n then .ok () else .error .reserved

/-! ### The formats, by the operands the opcode map gives them (R91 to R93, R97) -/

/-- Format N. -/
def formN (w : Word) (i : Instr) : Except Illegal Instr := do
  mustBeZero (nField w)
  return i

/-- Format R with operands F, F, F. -/
def formFFF (w : Word) (i : Fin 16 → Fin 16 → Fin 16 → Instr) : Except Illegal Instr := do
  mustBeZero (lowField w)
  return i (fIndex (rdField w)) (fIndex (raField w)) (fIndex (rbField w))

/-- Format R with operands F, F; rb unused. -/
def formFF (w : Word) (i : Fin 16 → Fin 16 → Instr) : Except Illegal Instr := do
  mustBeZero (lowField w)
  mustBeZero (rbField w)
  return i (fIndex (rdField w)) (fIndex (raField w))

/-- Format R with operands P, P, P. -/
def formPPP (w : Word) (i : Fin 4 → Fin 4 → Fin 4 → Instr) : Except Illegal Instr := do
  mustBeZero (lowField w)
  let d ← pIndex (rdField w)
  let a ← pIndex (raField w)
  let b ← pIndex (rbField w)
  return i d a b

/-- Format R with operands P, P; rb unused. -/
def formPP (w : Word) (i : Fin 4 → Fin 4 → Instr) : Except Illegal Instr := do
  mustBeZero (lowField w)
  mustBeZero (rbField w)
  let d ← pIndex (rdField w)
  let a ← pIndex (raField w)
  return i d a

/-- Format R with the one operand P in rd; ra and rb unused. -/
def formPd (w : Word) (i : Fin 4 → Instr) : Except Illegal Instr := do
  mustBeZero (lowField w)
  mustBeZero (rbField w)
  mustBeZero (raField w)
  let d ← pIndex (rdField w)
  return i d

/-- Format R with the one operand P in ra; rd and rb unused. -/
def formPa (w : Word) (i : Fin 4 → Instr) : Except Illegal Instr := do
  mustBeZero (lowField w)
  mustBeZero (rbField w)
  mustBeZero (rdField w)
  let a ← pIndex (raField w)
  return i a

/-- Format R with operands F, P; rb unused. -/
def formFP (w : Word) (i : Fin 16 → Fin 4 → Instr) : Except Illegal Instr := do
  mustBeZero (lowField w)
  mustBeZero (rbField w)
  let a ← pIndex (raField w)
  return i (fIndex (rdField w)) a

/-- Format R with operands P, F, F. -/
def formPFF (w : Word) (i : Fin 4 → Fin 16 → Fin 16 → Instr) : Except Illegal Instr := do
  mustBeZero (lowField w)
  let d ← pIndex (rdField w)
  return i d (fIndex (raField w)) (fIndex (rbField w))

/-- Format R with operands P, F, P. -/
def formPFP (w : Word) (i : Fin 4 → Fin 16 → Fin 4 → Instr) : Except Illegal Instr := do
  mustBeZero (lowField w)
  let d ← pIndex (rdField w)
  let b ← pIndex (rbField w)
  return i d (fIndex (raField w)) b

/-- Format R with operands R, R, R. -/
def formRRR (w : Word) (i : Fin 8 → Fin 8 → Fin 8 → Instr) : Except Illegal Instr := do
  mustBeZero (lowField w)
  let d ← rIndex (rdField w)
  let a ← rIndex (raField w)
  let b ← rIndex (rbField w)
  return i d a b

/-- Format R with operands R, R; rb unused. -/
def formRR (w : Word) (i : Fin 8 → Fin 8 → Instr) : Except Illegal Instr := do
  mustBeZero (lowField w)
  mustBeZero (rbField w)
  let d ← rIndex (rdField w)
  let a ← rIndex (raField w)
  return i d a

/-- Format M with an F register; x unused. -/
def formFM (w : Word) (i : Fin 16 → Imm16 → Instr) : Except Illegal Instr := do
  mustBeZero (raField w)
  return i (fIndex (rdField w)) (immField w)

/-- Format M with a P register; x unused. -/
def formPM (w : Word) (i : Fin 4 → Imm16 → Instr) : Except Illegal Instr := do
  mustBeZero (raField w)
  let r ← pIndex (rdField w)
  return i r (immField w)

/-- Format M with an R register; x unused. -/
def formRM (w : Word) (i : Fin 8 → Imm16 → Instr) : Except Illegal Instr := do
  mustBeZero (raField w)
  let r ← rIndex (rdField w)
  return i r (immField w)

/-- Format M with an R register and a modifier x that must be legal (R96). -/
def formRxM (w : Word) (legal : Fin 16 → Bool) (i : Fin 8 → Fin 16 → Imm16 → Instr) : Except Illegal Instr := do
  let r ← rIndex (rdField w)
  let x := fIndex (raField w)
  if legal x then return i r x (immField w) else .error .modifier

/-- SAMPLEU: format M with an R register, x[3:2] = a, x[1:0] = b, every value legal (R96). -/
def formRabM (w : Word) (i : Fin 8 → Fin 4 → Fin 4 → Imm16 → Instr) : Except Illegal Instr := do
  let r ← rIndex (rdField w)
  return i r ((raField w).extractLsb' 2 2).toFin ((raField w).extractLsb' 0 2).toFin (immField w)

/-- KYB_INIT: format M, r and x unused, imm16 the strength, not checked here (R97, R102). -/
def formS (w : Word) (i : Imm16 → Instr) : Except Illegal Instr := do
  mustBeZero (rdField w)
  mustBeZero (raField w)
  return i (immField w)

/-- The decoder (R102): by the opcode map of R97. -/
def decode (w : Word) : Except Illegal Instr :=
  match (opField w).toNat with
  | 0x00 => formN w .nop
  | 0x01 => formN w .zeroize
  | 0x10 => formFFF w .fadd
  | 0x11 => formFFF w .fsub
  | 0x12 => formFFF w .fmont
  | 0x13 => formFF w .fred
  | 0x14 => formFFF w .fredw
  | 0x15 => formFF w .finv
  | 0x16 => formFF w .ftom
  | 0x17 => formFF w .ffrom
  | 0x18 => formFF w .fmov
  | 0x19 => formFM w .fld
  | 0x1A => formFM w .fst
  | 0x1B => formFF w .sred
  | 0x20 => formPM w .pld
  | 0x21 => formPM w .pst
  | 0x22 => formPP w .pmov
  | 0x23 => formPd w .pbase
  | 0x24 => formPd w .pinf
  | 0x25 => formPa w .pvalid
  | 0x26 => formPPP w .padd
  | 0x27 => formPP w .pdbl
  | 0x28 => formFP w .pgetx
  | 0x29 => formFP w .pgety
  | 0x2A => formPFF w .pset
  | 0x2B => formPFP w .smul
  | 0x30 => formN w .ecdhKeygen
  | 0x31 => formN w .ecdhSecret
  | 0x40 => formRM w .rld
  | 0x41 => formRM w .rst
  | 0x42 => formRR w .rmov
  | 0x43 => formRRR w .radd
  | 0x44 => formRRR w .rsub
  | 0x45 => formRR w .ntt
  | 0x46 => formRR w .intt
  | 0x47 => formRRR w .pwmul
  | 0x48 => formRRR w .polymul
  | 0x49 => formRxM w legalEta .cbd
  | 0x4A => formRabM w .sampleu
  | 0x4B => formRxM w legalBits .rcomp
  | 0x4C => formRxM w legalBits .rdecomp
  | 0x50 => formS w .kybInit
  | 0x51 => formN w .kybKeygen
  | 0x52 => formN w .kybEncaps
  | 0x53 => formN w .kybDecaps
  | _ => .error .opcode

/-- The instruction the decoder reads from a table row's bits. A command is one 32-bit word (R90): bit 0 of w is bit 0
of the word, and the bits at and above nbits are 0. -/
def decodeTableWord (nbits w : Nat) : Option Instr :=
  match decode (BitVec.ofNat 32 (w % 2 ^ nbits)) with
  | .ok i => some i
  | .error _ => none

/-! ### The encoder (R91 to R93, R97) -/

/-- The 4-bit field that holds a register index. -/
def indexBits {n : Nat} (i : Fin n) : BitVec 4 := BitVec.ofNat 4 i.val

/-- Format N (R91). -/
def wordN (op : BitVec 8) : Word := op ++ 0#24

/-- Format R (R92). -/
def wordR (op : BitVec 8) (rd ra rb : BitVec 4) : Word := op ++ (rd ++ (ra ++ (rb ++ 0#12)))

/-- Format M (R93). -/
def wordM (op : BitVec 8) (r x : BitVec 4) (imm : Imm16) : Word := op ++ (r ++ (x ++ imm))

/-- The word of a command (R97). -/
def encode : Instr → Word
  | .nop => wordN 0x00
  | .zeroize => wordN 0x01
  | .fadd d a b => wordR 0x10 (indexBits d) (indexBits a) (indexBits b)
  | .fsub d a b => wordR 0x11 (indexBits d) (indexBits a) (indexBits b)
  | .fmont d a b => wordR 0x12 (indexBits d) (indexBits a) (indexBits b)
  | .fred d a => wordR 0x13 (indexBits d) (indexBits a) 0
  | .fredw d a b => wordR 0x14 (indexBits d) (indexBits a) (indexBits b)
  | .finv d a => wordR 0x15 (indexBits d) (indexBits a) 0
  | .ftom d a => wordR 0x16 (indexBits d) (indexBits a) 0
  | .ffrom d a => wordR 0x17 (indexBits d) (indexBits a) 0
  | .fmov d a => wordR 0x18 (indexBits d) (indexBits a) 0
  | .fld d addr => wordM 0x19 (indexBits d) 0 addr
  | .fst a addr => wordM 0x1A (indexBits a) 0 addr
  | .sred d a => wordR 0x1B (indexBits d) (indexBits a) 0
  | .pld d addr => wordM 0x20 (indexBits d) 0 addr
  | .pst a addr => wordM 0x21 (indexBits a) 0 addr
  | .pmov d a => wordR 0x22 (indexBits d) (indexBits a) 0
  | .pbase d => wordR 0x23 (indexBits d) 0 0
  | .pinf d => wordR 0x24 (indexBits d) 0 0
  | .pvalid a => wordR 0x25 0 (indexBits a) 0
  | .padd d a b => wordR 0x26 (indexBits d) (indexBits a) (indexBits b)
  | .pdbl d a => wordR 0x27 (indexBits d) (indexBits a) 0
  | .pgetx d a => wordR 0x28 (indexBits d) (indexBits a) 0
  | .pgety d a => wordR 0x29 (indexBits d) (indexBits a) 0
  | .pset d a b => wordR 0x2A (indexBits d) (indexBits a) (indexBits b)
  | .smul d a b => wordR 0x2B (indexBits d) (indexBits a) (indexBits b)
  | .ecdhKeygen => wordN 0x30
  | .ecdhSecret => wordN 0x31
  | .rld d addr => wordM 0x40 (indexBits d) 0 addr
  | .rst a addr => wordM 0x41 (indexBits a) 0 addr
  | .rmov d a => wordR 0x42 (indexBits d) (indexBits a) 0
  | .radd d a b => wordR 0x43 (indexBits d) (indexBits a) (indexBits b)
  | .rsub d a b => wordR 0x44 (indexBits d) (indexBits a) (indexBits b)
  | .ntt d a => wordR 0x45 (indexBits d) (indexBits a) 0
  | .intt d a => wordR 0x46 (indexBits d) (indexBits a) 0
  | .pwmul d a b => wordR 0x47 (indexBits d) (indexBits a) (indexBits b)
  | .polymul d a b => wordR 0x48 (indexBits d) (indexBits a) (indexBits b)
  | .cbd d eta addr => wordM 0x49 (indexBits d) (indexBits eta) addr
  | .sampleu d a b addr => wordM 0x4A (indexBits d) (BitVec.ofFin a ++ BitVec.ofFin b : BitVec (2 + 2)) addr
  | .rcomp a bits addr => wordM 0x4B (indexBits a) (indexBits bits) addr
  | .rdecomp d bits addr => wordM 0x4C (indexBits d) (indexBits bits) addr
  | .kybInit s => wordM 0x50 0 0 s
  | .kybKeygen => wordN 0x51
  | .kybEncaps => wordN 0x52
  | .kybDecaps => wordN 0x53

end Sys2Proof
end

