-- ==== Sys2Proof/Config.lean ====
section
/-! DEFINITION. What an implementation of KAC fixes (spec R6), and the functions the spec leaves as parameters (R17). -/

namespace Sys2Proof

/-- The five symmetric functions behind the SYM port (R17), as one record of functions.
It is no part of State: the spec says a model takes them as parameters. -/
structure Sym where
  /-- H: byte string to 32 bytes. -/
  hash : Bytes → Vector Byte 32
  /-- G: byte string to 64 bytes. -/
  hash2 : Bytes → Vector Byte 64
  /-- KDF: byte string to 32 bytes. -/
  kdf : Bytes → Vector Byte 32
  /-- PRF: a 32-byte seed, one byte, a length L, to L bytes. -/
  prf : Bytes → Byte → (L : Nat) → Vector Byte L
  /-- XOF: a 32-byte seed and two index bytes, to an infinite byte stream. -/
  xof : Bytes → Byte → Byte → Nat → Byte
  deriving Inhabited

/-- The symmetric unit of this block: nothing is assumed of it but that it is a function (R17, R78).
FREE VALUE, log 6. -/
opaque Config.sym : Sym

/-- BUF_BYTES (R6, R40): the spec's default. DESIGN CHOICE, log 7 (unsafe for another size). -/
def Config.bufBytes : Nat := 16384

/-- ID_VALUE (R6, R27): the spec's default. DESIGN CHOICE, log 9 (unsafe for another value). -/
def Config.idValue : Word := 0x4B414301#32

/-- KYB_MIN_ENTROPY, the same for every strength (R6, R34): the spec's default. DESIGN CHOICE, log 8 (unsafe for another value). -/
def Config.kybMinEntropy : BitVec 16 := 64#16

/-- KYB_MAX_ENTROPY, the same for every strength (R6, R34): the spec's default. DESIGN CHOICE, log 8 (unsafe for another value). -/
def Config.kybMaxEntropy : BitVec 16 := 64#16

/-- How many three-byte groups of an XOF stream one move of the core may look at before the host sees the command
still running. DESIGN CHOICE, log 5 (safe: a Parse that has not ended goes on at the core's next move). -/
def Config.parseChunk : Nat := 1024

end Sys2Proof
end

