-- ==== Sys2Proof/Machine/State.lean ====
section
/-! DEFINITION. The state of KAC as plain data, everything `spec/10_state.md` gives it (R20 to R45), the ways a step can stop,
and the state after reset. What reads and writes it stands in Ops.lean and HostPort.lean. -/

namespace Sys2Proof.Machine

/-- The nine status codes (R280). Codes 9 to 255 are never written. -/
inductive Code where
  | success            -- 0
  | entropyFail        -- 1
  | invalidPubkey      -- 2
  | invalidPrivkey     -- 3
  | memoryFail         -- 4
  | invalidStrength    -- 5
  | invalidCiphertext  -- 6
  | illegalCmd         -- 7
  | badDescriptor      -- 8
  deriving DecidableEq, Repr

/-- The fields of STATUS that are stored (R29). ERR is 1 exactly when the code is not SUCCESS and ENTWAIT is 1 exactly while
a request is outstanding, so both are computed (Flags.lean, log 19). -/
structure Status where
  busy : Bool
  done : Bool
  z    : Bool
  inf  : Bool
  v    : Bool
  werr : Bool
  code : Code
  deriving DecidableEq, Repr

/-- A point register (R22): `inf` set means the point at infinity and then x = y = 0; else the affine pair, unvalidated. -/
structure Point where
  inf : Bool
  x   : U256
  y   : U256
  deriving DecidableEq, Repr

/-- STRENGTH (R33): 0 "never set", 512, 768 or 1024. -/
inductive Strength where
  | unset
  | s512
  | s768
  | s1024
  deriving DecidableEq, Repr

/-- One entropy request, as the entropy port shows it (R74, R79): byte counts min and max. -/
structure EntropyRequest where
  min : BitVec 16
  max : BitVec 16
  deriving DecidableEq, Repr

/-- One answer of the entropy provider, as the entropy port carries it (R74, R79): a 32-bit status, a 16-bit count and a byte
string of length count. It arrives whole (log 14). -/
structure EntropyAnswer where
  status : Word
  count  : BitVec 16
  data   : Vector Byte count.toNat
  deriving DecidableEq, Repr

/-- How far a running command has come (R41 (a)); all idle between commands (R323). -/
structure Engine where
  /-- the outstanding entropy request; ENTWAIT is 1 while there is one (R74) -/
  entReq : Option EntropyRequest
  /-- the provider's answer, until the command that asked takes it (R74; log 4) -/
  entRsp : Option EntropyAnswer
  /-- how many moves of the core the running command has spent on a Parse that has not ended (R327; log 5) -/
  parseRound : Nat
  deriving DecidableEq, Repr

/-- BUF (R40): the cells whose byte is not 0, addresses strictly rising. An unlisted byte reads 0, its reset value (R45; log 24). -/
abbrev Memory := List Host.Cell

/-- The canonical form of BUF, so that equal memories are equal lists. -/
def Memory.wf (m : Memory) : Bool :=
  decide (m.Pairwise fun c c' => c.1 < c'.1) && m.all fun c => c.2 != 0#8

/-- No cell lies outside BUF (R40). -/
def Memory.inBuf (m : Memory) : Bool := m.all fun c => decide (c.1 < Config.bufBytes)

/-- What can happen next (log 1): the core moves; the host makes one access at word index a, byte offset 4*a (R65, R70); the
entropy provider answers the outstanding request (R74), or answers late a request that a reset has withdrawn (R311; log 26); the
reset input is asserted (R310). -/
inductive Event where
  | core
  | hostWrite (a : BitVec 15) (w : Word)
  | hostRead (a : BitVec 15)
  | entropy (ans : EntropyAnswer)
  | lateEntropy (ans : EntropyAnswer)
  | reset
  deriving DecidableEq, Repr

/-- The state of KAC (R20). -/
structure State where
  /-- F0 to F15 (R21) -/
  f : Vector U256 16
  /-- P0 to P3 (R22) -/
  p : Vector Point 4
  /-- R0 to R7 (R23) -/
  r : Vector Poly 8
  /-- CMD, the last accepted word (R28) -/
  cmd : Word
  /-- STATUS (R29) -/
  status : Status
  /-- CTRL.IE (R30) -/
  ie : Bool
  /-- ARG0 to ARG7 (R31) -/
  arg : Vector Word 8
  /-- RLEN0 and RLEN1 (R32) -/
  rlen0 : Word
  rlen1 : Word
  /-- STRENGTH (R33) -/
  strength : Strength
  /-- BUF (R40) -/
  buf : Memory
  /-- the progress of a running command and the entropy port (R41 (a), R74) -/
  engine : Engine
  /-- h_rdata, the data of the last host read (R79; log 13) -/
  hRdata : Word
  /-- MODEL'S OWN: the inputs still to come, in order; empty means only the core moves (log 1) -/
  agenda : List Event
  deriving DecidableEq, Repr

/-- Why the machine stops with a fault: never. Every error of KAC is a status code of a completed command, and the machine
goes on (R280, R284, R285), so the type has no constructor (log 20). Safe: nothing is cut short. -/
inductive Fault where
  deriving DecidableEq, Repr

/-- Why a command has no meaning in the model. -/
inductive Refusal where
  /-- Raised only by an arm of Dispatch.lean for a command whose meaning is not written yet; safe (the model says less).
  At present no arm raises it. -/
  | notModelled (mnemonic : String)
  deriving DecidableEq, Repr

/-- What a step or a meaning answers. -/
abbrev Result := Host.Outcome State Fault Refusal

/-- No command running, entropy port idle (R45, R310). -/
def Engine.idle : Engine := { entReq := none, entRsp := none, parseRound := 0 }

/-- STATUS after reset: 0 (R29, R45). -/
def Status.reset : Status :=
  { busy := false, done := false, z := false, inf := false, v := false, werr := false, code := .success }

/-- The zero polynomial. -/
def Poly.zero : Poly := Vector.replicate 256 0

/-- A point register after reset and after ZEROIZE: the pair (0, 0), which is not INF (R22, R45). -/
def Point.zero : Point := { inf := false, x := 0, y := 0 }

/-- The state after reset (R45, R310). `hRdata` and `agenda` are the model's own choice (logs 13 and 1). -/
def State.reset : State :=
  { f := Vector.replicate 16 0
    p := Vector.replicate 4 Point.zero
    r := Vector.replicate 8 Poly.zero
    cmd := 0
    status := Status.reset
    ie := false
    arg := Vector.replicate 8 0
    rlen0 := 0
    rlen1 := 0
    strength := .unset
    buf := []
    engine := Engine.idle
    hRdata := 0
    agenda := [] }

end Sys2Proof.Machine
end

