-- ==== Sys2Proof/Machine/Constants.lean ====
section
/-! DEFINITION. The constants of KAC: the curve (spec R11), Montgomery (R12), the Kyber ring (R14) and the parameter table (R15). -/

namespace Sys2Proof.Machine

/-! ### P-256 (R11) -/

/-- The field prime p = 2^256 - 2^224 + 2^192 + 2^96 - 1. -/
def primeP : Nat := 0xffffffff00000001000000000000000000000000ffffffffffffffffffffffff
/-- The curve coefficient a = p - 3. -/
def curveA : Nat := 0xffffffff00000001000000000000000000000000fffffffffffffffffffffffc
/-- The curve coefficient b. -/
def curveB : Nat := 0x5ac635d8aa3a93e7b3ebbd55769886bc651d06b0cc53b0f63bce3c3e27d2604b
/-- The base point's x. -/
def baseX : Nat := 0x6b17d1f2e12c4247f8bce6e563a440f277037d812deb33a0f4a13945d898c296
/-- The base point's y. -/
def baseY : Nat := 0x4fe342e2fe1a7f9b8ee7eb4a7c0f9e162bce33576b315ececbb6406837bf51f5
/-- The prime order n of the base point. -/
def orderN : Nat := 0xffffffff00000000ffffffffffffffffbce6faada7179e84f3b9cac2fc632551

/-! ### Montgomery (R12) -/

/-- The Montgomery radix RM = 2^256. -/
def radixRM : Nat := 2 ^ 256
/-- inv(RM, p). -/
def radixInv : Nat := 0xfffffffe00000003fffffffd0000000200000001fffffffe0000000300000000

/-! ### The Kyber ring (R14) -/

/-- q. -/
def primeQ : Nat := 3329

/-- ZETAS[i] = 17^brv7(i) mod q, i = 0 to 127. -/
def zetas : List Coeff :=
  [1, 1729, 2580, 3289, 2642, 630, 1897, 848, 1062, 1919, 193, 797, 2786, 3260, 569, 1746] ++
  [296, 2447, 1339, 1476, 3046, 56, 2240, 1333, 1426, 2094, 535, 2882, 2393, 2879, 1974, 821] ++
  [289, 331, 3253, 1756, 1197, 2304, 2277, 2055, 650, 1977, 2513, 632, 2865, 33, 1320, 1915] ++
  [2319, 1435, 807, 452, 1438, 2868, 1534, 2402, 2647, 2617, 1481, 648, 2474, 3110, 1227, 910] ++
  [17, 2761, 583, 2649, 1637, 723, 2288, 1100, 1409, 2662, 3281, 233, 756, 2156, 3015, 3050] ++
  [1703, 1651, 2789, 1789, 1847, 952, 1461, 2687, 939, 2308, 2437, 2388, 733, 2337, 268, 641] ++
  [1584, 2298, 2037, 3220, 375, 2549, 2090, 1645, 1063, 319, 2773, 757, 2099, 561, 2466, 2594] ++
  [2804, 1092, 403, 1026, 1143, 2150, 2775, 886, 1722, 1212, 1874, 1029, 2110, 2935, 885, 2154]

/-- GAMMAS[i] = 17^(2*brv7(i)+1) mod q, i = 0 to 127. -/
def gammas : List Coeff :=
  [17, 3312, 2761, 568, 583, 2746, 2649, 680, 1637, 1692, 723, 2606, 2288, 1041, 1100, 2229] ++
  [1409, 1920, 2662, 667, 3281, 48, 233, 3096, 756, 2573, 2156, 1173, 3015, 314, 3050, 279] ++
  [1703, 1626, 1651, 1678, 2789, 540, 1789, 1540, 1847, 1482, 952, 2377, 1461, 1868, 2687, 642] ++
  [939, 2390, 2308, 1021, 2437, 892, 2388, 941, 733, 2596, 2337, 992, 268, 3061, 641, 2688] ++
  [1584, 1745, 2298, 1031, 2037, 1292, 3220, 109, 375, 2954, 2549, 780, 2090, 1239, 1645, 1684] ++
  [1063, 2266, 319, 3010, 2773, 556, 757, 2572, 2099, 1230, 561, 2768, 2466, 863, 2594, 735] ++
  [2804, 525, 1092, 2237, 403, 2926, 1026, 2303, 1143, 2186, 2150, 1179, 2775, 554, 886, 2443] ++
  [1722, 1607, 1212, 2117, 1874, 1455, 1029, 2300, 2110, 1219, 2935, 394, 885, 2444, 2154, 1175]

/-- inv(128, q). -/
def inv128 : Coeff := 3303

/-! ### The Kyber parameter table (R15) -/

/-- Module rank k (R15). For s = 0 the table has no row: 0 there is a DESIGN CHOICE that no command reaches, here and in the
four functions after this one (log 27). -/
def Strength.rank : Strength → Nat
  | .unset => 0 | .s512 => 2 | .s768 => 3 | .s1024 => 4
/-- eta1 (R15). For s = 0: DESIGN CHOICE (log 27). -/
def Strength.eta1 : Strength → Nat
  | .unset => 0 | .s512 => 3 | .s768 => 2 | .s1024 => 2
/-- eta2 (R15). For s = 0: DESIGN CHOICE (log 27). -/
def Strength.eta2 : Strength → Nat
  | .unset => 0 | .s512 => 2 | .s768 => 2 | .s1024 => 2
/-- du (R15). For s = 0: DESIGN CHOICE (log 27). -/
def Strength.du : Strength → Nat
  | .unset => 0 | .s512 => 10 | .s768 => 10 | .s1024 => 11
/-- dv (R15). For s = 0: DESIGN CHOICE (log 27). -/
def Strength.dv : Strength → Nat
  | .unset => 0 | .s512 => 4 | .s768 => 4 | .s1024 => 5

/-- PUB(s): public key bytes, 384k + 32, and 0 for s = 0. -/
def Strength.pubBytes : Strength → Nat
  | .unset => 0 | .s512 => 800 | .s768 => 1184 | .s1024 => 1568
/-- PRIV(s): private key bytes, 768k + 96, and 0 for s = 0. -/
def Strength.privBytes : Strength → Nat
  | .unset => 0 | .s512 => 1632 | .s768 => 2400 | .s1024 => 3168
/-- CT(s): ciphertext bytes, 32(du*k + dv), and 0 for s = 0. -/
def Strength.ctBytes : Strength → Nat
  | .unset => 0 | .s512 => 768 | .s768 => 1088 | .s1024 => 1568
/-- SS(s): secret bytes, 32, and 0 for s = 0. -/
def Strength.secretBytes : Strength → Nat
  | .unset => 0 | .s512 => 32 | .s768 => 32 | .s1024 => 32

/-- KYB_MIN_ENTROPY(s) (R6), and 0 for s = 0 (R34). -/
def Strength.minEntropy : Strength → BitVec 16
  | .unset => 0
  | .s512 | .s768 | .s1024 => Config.kybMinEntropy
/-- KYB_MAX_ENTROPY(s) (R6), and 0 for s = 0 (R34). -/
def Strength.maxEntropy : Strength → BitVec 16
  | .unset => 0
  | .s512 | .s768 | .s1024 => Config.kybMaxEntropy

/-- The word STRENGTH reads as (R33). -/
def Strength.word : Strength → Word
  | .unset => 0
  | .s512 => 512
  | .s768 => 768
  | .s1024 => 1024

/-- The strength an imm16 of KYB_INIT selects, if it is one of the three (R231). -/
def Strength.ofImm (x : Imm16) : Option Strength :=
  if x.toNat = 512 then some .s512
  else if x.toNat = 768 then some .s768
  else if x.toNat = 1024 then some .s1024
  else none

end Sys2Proof.Machine
end

