-- ==== Sys2Proof/Machine/Coding.lean ====
section
/-! DEFINITION. Byte strings and the Kyber coding functions (spec R8, R16, R61, R62). -/

namespace Sys2Proof.Machine

/-! ### Integers in byte strings (R8) -/

/-- BE(B): the first byte is the most significant. -/
def beNat (B : Bytes) : Nat := B.foldl (fun v b => 256 * v + b.toNat) 0

/-- BEbytes(v, L). -/
def beBytes (v : Nat) : (L : Nat) → Bytes
  | 0 => []
  | L + 1 => beBytes (v / 256) L ++ [BitVec.ofNat 8 v]

/-- The four bytes of a host word, lowest address first: bits 7:0, 15:8, 23:16, 31:24 (R65). -/
def leWordBytes (w : Word) : Bytes :=
  [w.extractLsb' 0 8, w.extractLsb' 8 8, w.extractLsb' 16 8, w.extractLsb' 24 8]

/-- The host word made of four bytes, lowest address first (R65). -/
def leWord (b0 b1 b2 b3 : Byte) : Word := b3 ++ (b2 ++ (b1 ++ b0))

/-! ### Bit streams, least significant bit first (R8, R62) -/

/-- The bits j < l of a number, least significant first. -/
def natBits (l v : Nat) : List Bool := (List.range l).map fun j => v.testBit j

/-- The number whose bits, least significant first, are given. -/
def bitsNat : List Bool → Nat
  | [] => 0
  | b :: bs => b.toNat + 2 * bitsNat bs

/-- The bit stream of a byte string: bit i is bit (i mod 8) of byte (i div 8) (R8, R62). -/
def byteBits (B : Bytes) : List Bool := B.flatMap fun b => natBits 8 b.toNat

/-- The first k groups of l bits. -/
def groups (l : Nat) : (k : Nat) → List Bool → List (List Bool)
  | 0, _ => []
  | k + 1, bs => bs.take l :: groups l k (bs.drop l)

/-- Encode_l(f) for 256 integers below 2^l: 32*l bytes (R16). -/
def encodeBits (l : Nat) (f : List Nat) : Bytes :=
  (groups 8 (32 * l) (f.flatMap (natBits l))).map fun g => BitVec.ofNat 8 (bitsNat g)

/-- Decode_l(B): 256 integers below 2^l (R16). -/
def decodeBits (l : Nat) (B : Bytes) : List Nat := (groups l 256 (byteBits B)).map bitsNat

/-! ### Polynomials as lists -/

/-- The first 256 entries, made up with zeros where there are fewer (log 23). -/
def padCoeffs (l : List Coeff) : List Coeff := (l ++ List.replicate 256 0).take 256

theorem padCoeffs_length (l : List Coeff) : (padCoeffs l).length = 256 := by
  rw [padCoeffs, List.length_take, List.length_append, List.length_replicate]; omega

/-- The polynomial with the given coefficients; the lists it is given have 256 entries (log 23). -/
def Poly.ofList (l : List Coeff) : Poly := Vector.mk (List.toArray (padCoeffs l)) (padCoeffs_length l)

/-- A number modulo q. -/
def coeffOfNat (v : Nat) : Coeff := Fin.ofNat 3329 v

/-- The coefficients as numbers. -/
def Poly.nats (f : Poly) : List Nat := f.toList.map fun c => c.val

/-- The polynomial whose coefficients are the given numbers modulo q (R191). -/
def Poly.ofNats (l : List Nat) : Poly := Poly.ofList (l.map coeffOfNat)

/-- Encode_12 of a polynomial (R16, R192). -/
def encodePoly (f : Poly) : Bytes := encodeBits 12 (Poly.nats f)

/-- Decode_12 with every value reduced modulo q (R191, R233). -/
def decodePoly (B : Bytes) : Poly := Poly.ofNats (decodeBits 12 B)

/-! ### Compression (R16, R203, R204) -/

/-- Compress(x, d). -/
def compress (x d : Nat) : Nat := (x * 2 ^ d + 1664) / primeQ % 2 ^ d

/-- Decompress(y, d). -/
def decompress (y d : Nat) : Nat := (y * primeQ + 2 ^ (d - 1)) / 2 ^ d

/-- Encode_d of the compressed coefficients (R203). -/
def compressPoly (d : Nat) (f : Poly) : Bytes := encodeBits d ((Poly.nats f).map fun x => compress x d)

/-- The decompressed coefficients of Decode_d (R204). -/
def decompressPoly (d : Nat) (B : Bytes) : Poly := Poly.ofNats ((decodeBits d B).map fun y => decompress y d)

/-! ### Samplers (R16, R201, R202) -/

/-- One coefficient of CBD_eta from its 2*eta bits: ones among the first eta minus ones among the rest, modulo q. -/
def cbdCoeff (eta : Nat) (g : List Bool) : Coeff :=
  coeffOfNat ((g.take eta).count true) - coeffOfNat ((g.drop eta).count true)

/-- CBD_eta(B) for 64*eta bytes (R16). -/
def cbdPoly (eta : Nat) (B : Bytes) : Poly :=
  Poly.ofList ((groups (2 * eta) 256 (byteBits B)).map (cbdCoeff eta))

/-- The first candidate of the three stream bytes at i (R16). -/
def parseLow (S : Nat → Byte) (i : Nat) : Nat := (S i).toNat + 256 * ((S (i + 1)).toNat % 16)

/-- The second candidate of the three stream bytes at i (R16). -/
def parseHigh (S : Nat → Byte) (i : Nat) : Nat := (S (i + 1)).toNat / 16 + 16 * (S (i + 2)).toNat

/-- One pass of Parse's loop: the candidates below q are appended, the second only while there is room (R16). -/
def parseStep (S : Nat → Byte) (i : Nat) (f : List Coeff) : List Coeff :=
  let f1 := if parseLow S i < primeQ then f ++ [coeffOfNat (parseLow S i)] else f
  if parseHigh S i < primeQ ∧ f1.length < 256 then f1 ++ [coeffOfNat (parseHigh S i)] else f1

/-- Parse's loop from stream position i with the coefficients f found so far, for at most `fuel` passes;
`none` when the loop has not ended by then (R16, R327; log 5). -/
def parseLoop (S : Nat → Byte) : (fuel : Nat) → (i : Nat) → (f : List Coeff) → Option (List Coeff)
  | 0, _, f => if f.length < 256 then none else some f
  | fuel + 1, i, f => if f.length < 256 then parseLoop S fuel (i + 3) (parseStep S i f) else some f

/-- Parse(S), for at most `fuel` passes of its loop (R16; log 5). -/
def parse (fuel : Nat) (S : Nat → Byte) : Option Poly := (parseLoop S fuel 0 []).map Poly.ofList

end Sys2Proof.Machine
end

