-- ==== Sys2Proof/Machine/PolyRing.lean ====
section
/-! DEFINITION. The ring functions: the butterfly, the two transforms, pairwise multiplication (spec R194 to R200). -/

namespace Sys2Proof.Machine

/-- The sum, lane by lane (R194). -/
def polyAdd (f g : Poly) : Poly := Poly.ofList (List.zipWith (fun x y => x + y) f.toList g.toList)

/-- The difference, lane by lane (R195). -/
def polySub (f g : Poly) : Poly := Poly.ofList (List.zipWith (fun x y => x - y) f.toList g.toList)

/-- CT(x, y, z), the forward butterfly (R196). -/
def butterflyCT (x y z : Coeff) : Coeff × Coeff := (x + z * y, x - z * y)

/-- GS(x, y, z), the inverse butterfly (R196). -/
def butterflyGS (x y z : Coeff) : Coeff × Coeff := (x + y, z * (y - x))

/-- One layer of a transform: for each z in turn, the next block of 2*len entries is replaced by the butterflies of its
lower and upper half with that z. This is the two inner loops of R197 and R198 (log 12). -/
def layer (bf : Coeff → Coeff → Coeff → Coeff × Coeff) (len : Nat) : List Coeff → List Coeff → List Coeff
  | [], r => r
  | z :: zs, r =>
    List.zipWith (fun x y => (bf x y z).1) (r.take len) ((r.drop len).take len) ++
      (List.zipWith (fun x y => (bf x y z).2) (r.take len) ((r.drop len).take len) ++
        layer bf len zs (r.drop (2 * len)))

/-- The twiddle factors of the layer with half-length len, k rising: ZETAS[128/len] to ZETAS[256/len - 1] (R197). -/
def layerZetas (len : Nat) : List Coeff := (zetas.drop (128 / len)).take (128 / len)

/-- One layer of NTT. -/
def nttLayer (len : Nat) (r : List Coeff) : List Coeff := layer butterflyCT len (layerZetas len) r

/-- One layer of INTT: the same factors, k falling (R198). -/
def inttLayer (len : Nat) (r : List Coeff) : List Coeff := layer butterflyGS len (layerZetas len).reverse r

/-- NTT on the list of coefficients (R197). -/
def nttList (r : List Coeff) : List Coeff := [128, 64, 32, 16, 8, 4, 2].foldl (fun r len => nttLayer len r) r

/-- INTT on the list of coefficients, with the final scaling by inv(128, q) (R198). -/
def inttList (r : List Coeff) : List Coeff :=
  ([2, 4, 8, 16, 32, 64, 128].foldl (fun r len => inttLayer len r) r).map fun x => x * inv128

/-- NTT(f) (R197). -/
def nttPoly (f : Poly) : Poly := Poly.ofList (nttList f.toList)

/-- INTT(f) (R198). -/
def inttPoly (f : Poly) : Poly := Poly.ofList (inttList f.toList)

/-- The products of the pairs (2i, 2i+1) modulo X^2 - GAMMAS[i], i rising (R199). -/
def pairMul : List Coeff → List Coeff → List Coeff → List Coeff
  | g :: gs, a0 :: a1 :: as, b0 :: b1 :: bs =>
    (a0 * b0 + a1 * b1 * g) :: (a0 * b1 + a1 * b0) :: pairMul gs as bs
  | _, _, _ => []

/-- PW(f, g) (R199). -/
def pwPoly (f g : Poly) : Poly := Poly.ofList (pairMul gammas f.toList g.toList)

/-- The product in the normal domain: INTT(PW(NTT(f), NTT(g))) (R200). -/
def polyMul (f g : Poly) : Poly := inttPoly (pwPoly (nttPoly f) (nttPoly g))

end Sys2Proof.Machine
end

