-- ==== Sys2Proof/Machine/Kpke.lean ====
section
/-! DEFINITION. The public-key encryption scheme inside Kyber (spec R232 to R234), as functions of byte strings.
The symmetric functions are an argument; `fuel` bounds each Parse, and `none` means one of them has not ended (log 5). -/

namespace Sys2Proof.Machine

/-- Bytes i to j-1 of B (R8). -/
def slice (B : Bytes) (i j : Nat) : Bytes := (B.drop i).take (j - i)

/-- The k x k matrix with entry [i][j] = Parse(XOF(rho, index bytes of (i, j))). -/
def sampleMatrix (sym : Sym) (fuel k : Nat) (rho : Bytes) (index : Nat → Nat → Nat × Nat) : Option (List (List Poly)) :=
  (List.range k).mapM fun i => (List.range k).mapM fun j =>
    parse fuel (sym.xof rho (BitVec.ofNat 8 (index i j).1) (BitVec.ofNat 8 (index i j).2))

/-- The noise vector CBD_eta(PRF(seed, N, 64*eta)), N = first to first + count - 1. -/
def noiseVector (sym : Sym) (eta : Nat) (seed : Bytes) (first count : Nat) : List Poly :=
  (List.range count).map fun i => cbdPoly eta (sym.prf seed (BitVec.ofNat 8 (first + i)) (64 * eta)).toList

/-- PW(a[0], b[0]) + ... + PW(a[k-1], b[k-1]). -/
def polyDot (a b : List Poly) : Poly := (List.zipWith pwPoly a b).foldl polyAdd Poly.zero

/-- KPKE_KeyGen(s, d), giving (pk, sk0) (R232). -/
def kpkeKeyGen (sym : Sym) (fuel : Nat) (s : Strength) (d : Bytes) : Option (Bytes × Bytes) :=
  let g := (sym.hash2 d).toList
  let rho := slice g 0 32
  let sigma := slice g 32 64
  match sampleMatrix sym fuel s.rank rho fun i j => (j, i) with
  | none => none
  | some ahat =>
    let shat := (noiseVector sym s.eta1 sigma 0 s.rank).map nttPoly
    let ehat := (noiseVector sym s.eta1 sigma s.rank s.rank).map nttPoly
    let that := List.zipWith (fun row e => polyAdd (polyDot row shat) e) ahat ehat
    some (that.flatMap encodePoly ++ rho, shat.flatMap encodePoly)

/-- The k polynomials of a 384k-byte vector, every value reduced modulo q (R233, R234). -/
def decodeVector (k : Nat) (B : Bytes) : List Poly :=
  (List.range k).map fun i => decodePoly (slice B (384 * i) (384 * i + 384))

/-- KPKE_Enc(s, pk, m, r), giving the ciphertext (R233). -/
def kpkeEnc (sym : Sym) (fuel : Nat) (s : Strength) (pk m r : Bytes) : Option Bytes :=
  let that := decodeVector s.rank pk
  let rho := slice pk (384 * s.rank) (384 * s.rank + 32)
  match sampleMatrix sym fuel s.rank rho fun i j => (i, j) with
  | none => none
  | some athat =>
    let rhat := (noiseVector sym s.eta1 r 0 s.rank).map nttPoly
    let e1 := noiseVector sym s.eta2 r s.rank s.rank
    let e2 := cbdPoly s.eta2 (sym.prf r (BitVec.ofNat 8 (2 * s.rank)) (64 * s.eta2)).toList
    let u := List.zipWith (fun row e => polyAdd (inttPoly (polyDot row rhat)) e) athat e1
    let mu := decompressPoly 1 m
    let v := polyAdd (polyAdd (inttPoly (polyDot that rhat)) e2) mu
    some (u.flatMap (compressPoly s.du) ++ compressPoly s.dv v)

/-- w of R234: v - INTT(sum of PW(shat[i], NTT(u[i]))). -/
def kpkeNoisyMessage (s : Strength) (sk0 c : Bytes) : Poly :=
  let u := (List.range s.rank).map fun i =>
    decompressPoly s.du (slice c (32 * s.du * i) (32 * s.du * (i + 1)))
  let v := decompressPoly s.dv (slice c (32 * s.du * s.rank) (32 * s.du * s.rank + 32 * s.dv))
  polySub v (inttPoly (polyDot (decodeVector s.rank sk0) (u.map nttPoly)))

/-- KPKE_Dec(s, sk0, c), giving the 32-byte message (R234). -/
def kpkeDec (s : Strength) (sk0 c : Bytes) : Bytes := compressPoly 1 (kpkeNoisyMessage s sk0 c)

/-- The public and private key of KYB_KEYGEN from its 64 entropy bytes (R235 steps 6 to 8), as (sk, pk). -/
def kemKeyGen (sym : Sym) (fuel : Nat) (s : Strength) (E : Bytes) : Option (Bytes × Bytes) :=
  match kpkeKeyGen sym fuel s (slice E 0 32) with
  | none => none
  | some (pk, sk0) => some (sk0 ++ pk ++ (sym.hash pk).toList ++ slice E 32 64, pk)

/-- The secret and the ciphertext of KYB_ENCAPS from pk and its entropy bytes (R236 steps 8 to 11), as (K, c). -/
def kemEncaps (sym : Sym) (fuel : Nat) (s : Strength) (pk E : Bytes) : Option (Bytes × Bytes) :=
  let m := (sym.hash (slice E 0 32)).toList
  let g := (sym.hash2 (m ++ (sym.hash pk).toList)).toList
  match kpkeEnc sym fuel s pk m (slice g 32 64) with
  | none => none
  | some c => some ((sym.kdf (slice g 0 32 ++ (sym.hash c).toList)).toList, c)

/-- The secret of KYB_DECAPS from sk and c (R237 steps 7 to 12). -/
def kemDecaps (sym : Sym) (fuel : Nat) (s : Strength) (sk c : Bytes) : Option Bytes :=
  let k := s.rank
  let sk0 := slice sk 0 (384 * k)
  let pk := slice sk (384 * k) (768 * k + 32)
  let h := slice sk (768 * k + 32) (768 * k + 64)
  let z := slice sk (768 * k + 64) (768 * k + 96)
  let m := kpkeDec s sk0 c
  let g := (sym.hash2 (m ++ h)).toList
  match kpkeEnc sym fuel s pk m (slice g 32 64) with
  | none => none
  | some c' =>
    let sel := if c' = c then slice g 0 32 else z
    some (sym.kdf (sel ++ (sym.hash c).toList)).toList

end Sys2Proof.Machine
end

