-- ==== Sys2Proof/Machine/Arith.lean ====
section
/-! DEFINITION. Modular arithmetic on unbounded integers (spec R7, R12, R116, R123). -/

namespace Sys2Proof.Machine

/-- `e mod m`: the residue in [0, m), also for a negative e (R7). -/
def modInt (e : Int) (m : Nat) : Nat := (e % (m : Int)).toNat

/-- One step of the power below: square, and multiply by the base where the exponent's bit is 1. -/
def powStep (m base acc : Nat) (bit : Bool) : Nat :=
  if bit then acc * acc % m * base % m else acc * acc % m

/-- base^e mod m for an exponent e below 2^bits, by squaring. -/
def powMod (m base : Nat) : (bits : Nat) → (e : Nat) → Nat
  | 0, _ => 1 % m
  | bits + 1, e => powStep m base (powMod m base bits (e / 2)) (e % 2 == 1)

/-- inv(x, p) for x not divisible by p, and 0 for x divisible by p: x^(p-2) mod p (R7, R116; log 11). -/
def invModP (x : Nat) : Nat := powMod primeP x 256 (primeP - 2)

/-- mont(x, y) = (x * y * inv(RM, p)) mod p (R12). -/
def mont (x y : Nat) : Nat := x * y * radixInv % primeP

end Sys2Proof.Machine
end

