-- ==== Sys2Proof/Machine/Curve.lean ====
section
/-! DEFINITION. The curve: points, the two predicates (spec R140), the group law and scalar multiplication (R13). -/

namespace Sys2Proof.Machine

/-- A point: INF, or a pair (x, y) (R13). -/
inductive CurvePoint where
  | inf
  | affine (x y : Nat)
  deriving DecidableEq, Repr

/-- The point a point register holds (R22). -/
def Point.toCurve (Q : Point) : CurvePoint :=
  if Q.inf then .inf else .affine Q.x.toNat Q.y.toNat

/-- What a point register holds after a point is written to it: INF as inf = 1, x = 0, y = 0 (R22, R141 (e)). -/
def Point.ofCurve : CurvePoint → Point
  | .inf => { inf := true, x := 0, y := 0 }
  | .affine x y => { inf := false, x := BitVec.ofNat 256 x, y := BitVec.ofNat 256 y }

/-- (y^2 - (x^3 + a*x + b)) mod p = 0. -/
def curveEquation (x y : Nat) : Bool :=
  modInt ((y : Int) ^ 2 - ((x : Int) ^ 3 + curveA * x + curveB)) primeP == 0

/-- Both coordinates in [0, p) and the curve equation (R140). -/
def affineValid (x y : Nat) : Bool :=
  decide (x < primeP) && decide (y < primeP) && curveEquation x y

/-- OnCurve(Q): INF, or an affine point of the curve (R140). -/
def onCurve (Q : Point) : Bool := Q.inf || affineValid Q.x.toNat Q.y.toNat

/-- ValidPub(Q): an affine point of the curve, not INF (R140). -/
def validPub (Q : Point) : Bool := !Q.inf && affineValid Q.x.toNat Q.y.toNat

/-- lam of the group law for x1 = x2, the doubling (R13). -/
def slopeDouble (x1 y1 : Nat) : Nat :=
  (3 * x1 * x1 + curveA) * invModP (2 * y1 % primeP) % primeP

/-- lam of the group law for x1 not equal to x2 (R13). -/
def slopeChord (x1 y1 x2 y2 : Nat) : Nat :=
  modInt ((y2 : Int) - y1) primeP * invModP (modInt ((x2 : Int) - x1) primeP) % primeP

/-- The third point of the line with slope lam, reflected (R13). -/
def thirdPoint (lam x1 y1 x2 : Nat) : CurvePoint :=
  let x3 := modInt ((lam : Int) * lam - x1 - x2) primeP
  .affine x3 (modInt ((lam : Int) * ((x1 : Int) - x3) - y1) primeP)

/-- add(P, Q) (R13). -/
def curveAdd : CurvePoint → CurvePoint → CurvePoint
  | .inf, Q => Q
  | .affine x1 y1, .inf => .affine x1 y1
  | .affine x1 y1, .affine x2 y2 =>
    if x1 = x2 ∧ (y1 + y2) % primeP = 0 then .inf
    else if x1 = x2 then thirdPoint (slopeDouble x1 y1) x1 y1 x2
    else thirdPoint (slopeChord x1 y1 x2 y2) x1 y1 x2

/-- smul(k, P) as R13 writes it: INF for k = 0, else add(smul(k-1, P), P). -/
def smulSpec : Nat → CurvePoint → CurvePoint
  | 0, _ => .inf
  | k + 1, P => curveAdd (smulSpec k P) P

/-- One bit of the scalar multiplier: double, and add P where the bit is 1. -/
def smulStep (acc P : CurvePoint) (bit : Bool) : CurvePoint :=
  if bit then curveAdd (curveAdd acc acc) P else curveAdd acc acc

/-- The k-fold sum for k below 2^bits, by doubling and adding from the top bit (log 10). -/
def smulBits (P : CurvePoint) : (bits : Nat) → (k : Nat) → CurvePoint
  | 0, _ => .inf
  | bits + 1, k => smulStep (smulBits P bits (k / 2)) P (k % 2 == 1)

/-- smul(k, P) for a 256-bit k, as the model computes it; equal to `smulSpec k P` for P on the curve (log 10). -/
def smul (k : Nat) (P : CurvePoint) : CurvePoint := smulBits P 256 k

/-- The base point G (R11, R145). -/
def basePoint : CurvePoint := .affine baseX baseY

end Sys2Proof.Machine
end

