-- ==== Sys2Proof/Machine/Flags.lean ====
section
/-! DEFINITION. The flag computations (spec R25), the status codes' numbers (R280), the words STATUS and CTRL read as (R29, R30)
and the interrupt line (R286). -/

namespace Sys2Proof.Machine

/-- The number of a status code (R280). -/
def Code.byte : Code → Byte
  | .success => 0
  | .entropyFail => 1
  | .invalidPubkey => 2
  | .invalidPrivkey => 3
  | .memoryFail => 4
  | .invalidStrength => 5
  | .invalidCiphertext => 6
  | .illegalCmd => 7
  | .badDescriptor => 8

/-- Z: the 256-bit value written is 0 (R25). -/
def zFlag (v : U256) : Bool := v == 0

/-- INF: the `.inf` field of the point written or examined (R25). -/
def infFlag (Q : Point) : Bool := Q.inf

/-- STATUS.ERR (R29, R280): the code is not SUCCESS. -/
def Status.err (t : Status) : Bool := t.code != .success

/-- STATUS.ENTWAIT (R29, R74): an entropy request is outstanding. -/
def Engine.entwait (e : Engine) : Bool := e.entReq.isSome

/-- STATUS as the host reads it (R29): bits 31:16 zero, CODE in 15:8, then ENTWAIT, WERR, V, INF, Z, ERR, DONE, BUSY down to bit 0. -/
def State.statusWord (s : State) : Word :=
  0#16 ++ (s.status.code.byte ++ (BitVec.ofBool s.engine.entwait ++ (BitVec.ofBool s.status.werr ++
    (BitVec.ofBool s.status.v ++ (BitVec.ofBool s.status.inf ++ (BitVec.ofBool s.status.z ++
      (BitVec.ofBool s.status.err ++ (BitVec.ofBool s.status.done ++ BitVec.ofBool s.status.busy))))))))

/-- CTRL as the host reads it (R30): IE in bit 0, the rest 0. -/
def State.ctrlWord (s : State) : Word := 0#31 ++ BitVec.ofBool s.ie

/-- The interrupt output (R286). -/
def State.irq (s : State) : Bool := s.status.done && s.ie

end Sys2Proof.Machine
end

