-- ==== Sys2Proof/Machine/Ops.lean ====
section
/-! DEFINITION. The named operations over registers and memory, acceptance and completion of a command. -/

namespace Sys2Proof.Machine

/-! ### BUF (spec R40, R63, R67) -/

/-- One byte of BUF; an unlisted byte is 0 (R45). -/
def Memory.read : Memory → Nat → Byte
  | [], _ => 0
  | (x, c) :: m, a => if a = x then c else Memory.read m a

/-- Write one byte, keeping the canonical form: a zero byte is not listed. -/
def Memory.write : Memory → Nat → Byte → Memory
  | [], a, b => if b = 0 then [] else [(a, b)]
  | (x, c) :: m, a, b =>
    if a < x then (if b = 0 then (x, c) :: m else (a, b) :: (x, c) :: m)
    else if a = x then (if b = 0 then m else (a, b) :: m)
    else (x, c) :: Memory.write m a b

/-- Write a byte string from an address on. -/
def Memory.writeBytes : Memory → Nat → Bytes → Memory
  | m, _, [] => m
  | m, a, b :: B => Memory.writeBytes (Memory.write m a b) (a + 1) B

/-- MemRead(addr, n) (R9). -/
def memRead (s : State) (addr n : Nat) : Bytes := (List.range n).map fun i => s.buf.read (addr + i)

/-- MemWrite(addr, n, B) for an n-byte string B (R9). -/
def memWrite (addr n : Nat) (B : Bytes) (s : State) : State := { s with buf := s.buf.writeBytes addr (B.take n) }

/-! ### The register files (R9, R21 to R23) -/

/-- F[i]. -/
def State.readF (s : State) (i : Fin 16) : U256 := s.f[i.val]
/-- P[i]. -/
def State.readP (s : State) (i : Fin 4) : Point := s.p[i.val]
/-- R[i]. -/
def State.readR (s : State) (i : Fin 8) : Poly := s.r[i.val]
/-- ARG[k]. -/
def State.readArg (s : State) (k : Fin 8) : Word := s.arg[k.val]

/-- F[d] <- v with the Z flag (R25, R110 (d)). -/
def writeF (d : Fin 16) (v : U256) (s : State) : State :=
  { s with f := s.f.set d.val v, status := { s.status with z := zFlag v } }

/-- P[d] <- Q with the INF flag (R25, R141 (d)). -/
def writeP (d : Fin 4) (Q : Point) (s : State) : State :=
  { s with p := s.p.set d.val Q, status := { s.status with inf := infFlag Q } }

/-- R[d] <- f; no flag (R190 (c)). -/
def writeR (d : Fin 8) (f : Poly) (s : State) : State := { s with r := s.r.set d.val f }

/-- V and INF of PVALID (R25, R147). -/
def writeValid (v inf : Bool) (s : State) : State := { s with status := { s.status with v := v, inf := inf } }

/-- RLEN0 <- n (R32). -/
def writeRlen0 (n : Nat) (s : State) : State := { s with rlen0 := BitVec.ofNat 32 n }
/-- RLEN1 <- n (R32). -/
def writeRlen1 (n : Nat) (s : State) : State := { s with rlen1 := BitVec.ofNat 32 n }
/-- STRENGTH <- s (R231). -/
def writeStrength (x : Strength) (s : State) : State := { s with strength := x }

/-- Every field register, BUF, ARG and RLEN 0, the points (0, 0), the polynomials 0, the flags clear (R271). -/
def eraseData (s : State) : State :=
  { s with
    f := Vector.replicate 16 0
    p := Vector.replicate 4 Point.zero
    r := Vector.replicate 8 Poly.zero
    buf := []
    arg := Vector.replicate 8 0
    rlen0 := 0
    rlen1 := 0
    status := { s.status with z := false, inf := false, v := false } }

/-! ### Acceptance, completion, acknowledgement (R28, R273, R284) -/

/-- A CMD write is accepted: CMD <- the word, BUSY <- 1, DONE <- 0, and nothing of an earlier command is left (R28, R323). -/
def accept (w : Word) (s : State) : State :=
  { s with cmd := w, status := { s.status with busy := true, done := false }, engine := Engine.idle }

/-- Completion with a code, KAC's counterpart of taking an exception (R284): the scratch is cleared, CODE (and with it ERR) is
written, BUSY <- 0, DONE <- 1, ENTWAIT is 0. Nothing is saved and control goes nowhere. -/
def complete (code : Code) (s : State) : State :=
  { s with status := { s.status with busy := false, done := true, code := code }, engine := Engine.idle }

/-- `raise code`: the command ends with the code and has written nothing (R9, R283). -/
def raise (code : Code) (s : State) : Result := .next (complete code s)

/-- The command ends with SUCCESS, its result writes done (R284). -/
def succeed (s : State) : Result := .next (complete .success s)

/-- Acknowledge, the counterpart of the return (R273, R285): DONE is cleared, nothing else changes. -/
def acknowledge (s : State) : State := { s with status := { s.status with done := false } }

/-- A host write was dropped because BUSY is 1 (R29, R71). -/
def dropWrite (s : State) : State := { s with status := { s.status with werr := true } }

/-- WERR cleared by the host (R29). -/
def clearWerr (s : State) : State := { s with status := { s.status with werr := false } }

/-! ### Waiting inside a command (R74, R327) -/

/-- The byte string of an answer (R74). -/
def EntropyAnswer.bytes (ans : EntropyAnswer) : Bytes := ans.data.toList

/-- The command asks the entropy provider and waits, BUSY and ENTWAIT 1 (R74; log 4). -/
def requestEntropy (min max : BitVec 16) (s : State) : Result :=
  .next { s with engine := { s.engine with entReq := some { min := min, max := max }, entRsp := none } }

/-- The provider's answer to the outstanding request: ENTWAIT <- 0 and the command that asked goes on at the core's next move
(R74, R287); with no request outstanding nobody asked and the answer is discarded (log 4). -/
def deliverEntropy (ans : EntropyAnswer) (s : State) : State :=
  if s.engine.entReq.isSome then { s with engine := { s.engine with entReq := none, entRsp := some ans } } else s

/-- A late answer, to a request that a reset has withdrawn: discarded in every state, also while a new command waits for an
answer of its own, since only the command that asked consumes an answer (R311, R287). That the event says that the answer is
late is DESIGN CHOICE, safe (log 26). -/
def discardLateEntropy (_ans : EntropyAnswer) (s : State) : State := s

/-- A Parse of the command has not ended: the command stays BUSY and goes on at the core's next move (R327; log 5). -/
def keepParsing (s : State) : State :=
  { s with engine := { s.engine with parseRound := s.engine.parseRound + 1 } }

/-- Reset, by the pin or by CTRL.SRST (R310, R311). The inputs still to come are not the block's state (log 1). -/
def resetBlock (s : State) : State := { State.reset with agenda := s.agenda }

end Sys2Proof.Machine
end

