-- ==== Sys2Proof/Machine/Operands.lean ====
section
/-! DEFINITION. The operand forms of the commands: register operands as numbers, the absolute address of format M (spec R95),
descriptors (R66), entropy answers (R74) and the budget of Parse (R327). -/

namespace Sys2Proof.Machine

/-- An F operand as the integer it is, in [0, 2^256) (R110 (a)). -/
def State.natF (s : State) (i : Fin 16) : Nat := (s.readF i).toNat

/-- The range [addr, addr + n) lies inside BUF, on unbounded integers (R63). -/
def fitsBuf (addr n : Nat) : Bool := decide (addr + n ≤ Config.bufBytes)

/-- The address of format M: absolute, zero-extended, unscaled (R95). -/
def immAddr (imm : Imm16) : Nat := imm.toNat

/-- The address of descriptor i, in ARG[2i] (R66). -/
def descAddr (s : State) (i : Fin 4) : Nat := (s.readArg ⟨2 * i.val, by omega⟩).toNat

/-- The count of descriptor i, in ARG[2i+1] (R66). -/
def descCount (s : State) (i : Fin 4) : Nat := (s.readArg ⟨2 * i.val + 1, by omega⟩).toNat

/-- The range of descriptor i lies inside BUF (R63, R66). -/
def descFits (s : State) (i : Fin 4) : Bool := fitsBuf (descAddr s i) (descCount s i)

/-- The 64-byte encoding of a public key: x, then y, big-endian (R61). -/
def pointBytes (Q : Point) : Bytes := beBytes Q.x.toNat 32 ++ beBytes Q.y.toNat 32

/-- The pair of coordinates 64 bytes encode, unvalidated (R61, R142). -/
def bytesPoint (B : Bytes) : Point :=
  { inf := false, x := BitVec.ofNat 256 (beNat (slice B 0 32)), y := BitVec.ofNat 256 (beNat (slice B 32 64)) }

/-- An answer is good: status 0 and min <= count <= max (R74). -/
def goodAnswer (min max : BitVec 16) (ans : EntropyAnswer) : Bool :=
  decide (ans.status = 0) && decide (min.toNat ≤ ans.count.toNat) && decide (ans.count.toNat ≤ max.toNat)

/-- How many passes of Parse's loop the command may look at in this move (log 5). -/
def parseFuel (s : State) : Nat := Config.parseChunk * (s.engine.parseRound + 1)

end Sys2Proof.Machine
end

