-- ==== Sys2Proof/Machine/Ecdh.lean ====
section
/-! DEFINITION. The ECDH family: the key-pair generator and the shared-secret unit (spec R170 to R174). -/

namespace Sys2Proof.Machine

/-- The candidate scalar of 32 entropy bytes (R174). -/
def scalarOf (E : Bytes) : Nat := beNat (slice E 0 32) % orderN

/-- Steps 8 to 12 of ECDH_KEYGEN: the public key and the writes; the private key is written first (R80, R171). -/
def ecdhKeygenWrites (k : Nat) (s : State) : State :=
  let Q := Point.ofCurve (smul k basePoint)
  writeRlen1 64 (writeRlen0 32
    (memWrite (descAddr s 1) 64 (pointBytes Q) (memWrite (descAddr s 0) 32 (beBytes k 32) s)))

/-- ECDH_KEYGEN (R171). Without an answer the command asks for one; a scalar 0 asks again (R174; log 4). -/
def execEcdhKeygen (s : State) : Result :=
  if !descFits s 0 || !descFits s 1 then raise .badDescriptor s
  else if descCount s 0 < 32 ∨ descCount s 1 < 64 then raise .memoryFail s
  else match s.engine.entRsp with
    | none => requestEntropy 32 32 s
    | some ans =>
      if !goodAnswer 32 32 ans then raise .entropyFail s
      else if scalarOf ans.bytes = 0 then requestEntropy 32 32 s
      else succeed (ecdhKeygenWrites (scalarOf ans.bytes) s)

/-- The private key in BUF (R172 step 4). -/
def ecdhScalar (s : State) : Nat := beNat (memRead s (descAddr s 0) 32)

/-- The peer's public key in BUF (R172 step 7). -/
def ecdhPeer (s : State) : Point := bytesPoint (memRead s (descAddr s 1) 64)

/-- The shared point (R172 step 9). -/
def ecdhShared (s : State) : CurvePoint := smul (ecdhScalar s) (ecdhPeer s).toCurve

/-- ECDH_SECRET (R172), checks in the order of the rule. -/
def execEcdhSecret (s : State) : Result :=
  if !descFits s 0 || !descFits s 1 || !descFits s 2 then raise .badDescriptor s
  else if descCount s 2 < 32 then raise .memoryFail s
  else if descCount s 0 ≠ 32 then raise .invalidPrivkey s
  else if ecdhScalar s = 0 ∨ orderN ≤ ecdhScalar s then raise .invalidPrivkey s
  else if descCount s 1 ≠ 64 then raise .invalidPubkey s
  else if !validPub (ecdhPeer s) then raise .invalidPubkey s
  else match ecdhShared s with
    | .inf => raise .invalidPubkey s
    | .affine x _ => succeed (writeRlen0 32 (memWrite (descAddr s 2) 32 (beBytes x 32) s))

end Sys2Proof.Machine
end

