-- ==== Sys2Proof/Machine/Field.lean ====
section
/-! DEFINITION. The FIELD family: the Montgomery multiplier and the modular reducer (spec R110 to R125). -/

namespace Sys2Proof.Machine

/-- A FIELD result: F[d] <- v, the Z flag, SUCCESS (R110). -/
def finishF (d : Fin 16) (v : Nat) (s : State) : Result := succeed (writeF d (BitVec.ofNat 256 v) s)

/-- FADD (R111). -/
def execFadd (d a b : Fin 16) (s : State) : Result := finishF d ((s.natF a + s.natF b) % primeP) s

/-- FSUB (R112): the non-negative residue. -/
def execFsub (d a b : Fin 16) (s : State) : Result := finishF d (modInt ((s.natF a : Int) - s.natF b) primeP) s

/-- FMONT (R113). -/
def execFmont (d a b : Fin 16) (s : State) : Result := finishF d (mont (s.natF a) (s.natF b)) s

/-- FRED (R114). -/
def execFred (d a : Fin 16) (s : State) : Result := finishF d (s.natF a % primeP) s

/-- FREDW (R115): F[a] is the high half. -/
def execFredw (d a b : Fin 16) (s : State) : Result := finishF d ((s.natF a * 2 ^ 256 + s.natF b) % primeP) s

/-- FINV (R116): 0 for a multiple of p. -/
def execFinv (d a : Fin 16) (s : State) : Result :=
  finishF d (if s.natF a % primeP = 0 then 0 else invModP (s.natF a % primeP)) s

/-- FTOM (R117). -/
def execFtom (d a : Fin 16) (s : State) : Result := finishF d (s.natF a * radixRM % primeP) s

/-- FFROM (R118). -/
def execFfrom (d a : Fin 16) (s : State) : Result := finishF d (s.natF a * radixInv % primeP) s

/-- FMOV (R119): all 256 bits, no reduction. -/
def execFmov (d a : Fin 16) (s : State) : Result := succeed (writeF d (s.readF a) s)

/-- FLD (R120): big-endian, no reduction. -/
def execFld (d : Fin 16) (addr : Imm16) (s : State) : Result :=
  if !fitsBuf (immAddr addr) 32 then raise .badDescriptor s
  else finishF d (beNat (memRead s (immAddr addr) 32)) s

/-- FST (R121): no flag. -/
def execFst (a : Fin 16) (addr : Imm16) (s : State) : Result :=
  if !fitsBuf (immAddr addr) 32 then raise .badDescriptor s
  else succeed (memWrite (immAddr addr) 32 (beBytes (s.natF a) 32) s)

/-- SRED (R122). -/
def execSred (d a : Fin 16) (s : State) : Result := finishF d (s.natF a % orderN) s

end Sys2Proof.Machine
end

