-- ==== Sys2Proof/Machine/Kyber.lean ====
section
/-! DEFINITION. The KYBER family: parameter set, key generator, encapsulator, decapsulator (spec R230 to R241).
Each engine command is written over any symmetric unit `sym`; the command itself uses the block's own, `Config.sym`. -/

namespace Sys2Proof.Machine

/-- KYB_INIT (R231). -/
def execKybInit (strength : Imm16) (s : State) : Result :=
  match Strength.ofImm strength with
  | none => raise .invalidStrength s
  | some x => succeed (writeStrength x s)

/-- Steps 9 and 10 of KYB_KEYGEN: the private key first (R80, R235). -/
def kybKeygenWrites (sk pk : Bytes) (s : State) : State :=
  writeRlen1 s.strength.pubBytes (writeRlen0 s.strength.privBytes
    (memWrite (descAddr s 1) s.strength.pubBytes pk (memWrite (descAddr s 0) s.strength.privBytes sk s)))

/-- KYB_KEYGEN over a symmetric unit (R235). -/
def kybKeygenWith (sym : Sym) (s : State) : Result :=
  if s.strength = .unset then raise .invalidStrength s
  else if !descFits s 0 || !descFits s 1 then raise .badDescriptor s
  else if descCount s 0 < s.strength.privBytes ∨ descCount s 1 < s.strength.pubBytes then raise .memoryFail s
  else match s.engine.entRsp with
    | none => requestEntropy s.strength.minEntropy s.strength.maxEntropy s
    | some ans =>
      if !goodAnswer s.strength.minEntropy s.strength.maxEntropy ans then raise .entropyFail s
      else .next (match kemKeyGen sym (parseFuel s) s.strength ans.bytes with
        | none => keepParsing s
        | some (sk, pk) => complete .success (kybKeygenWrites sk pk s))

/-- KYB_KEYGEN (R235). -/
def execKybKeygen (s : State) : Result := kybKeygenWith Config.sym s

/-- Steps 12 and 13 of KYB_ENCAPS: the secret first (R80, R236). -/
def kybEncapsWrites (K c : Bytes) (s : State) : State :=
  writeRlen1 s.strength.ctBytes (writeRlen0 s.strength.secretBytes
    (memWrite (descAddr s 2) s.strength.ctBytes c (memWrite (descAddr s 1) s.strength.secretBytes K s)))

/-- KYB_ENCAPS over a symmetric unit (R236). -/
def kybEncapsWith (sym : Sym) (s : State) : Result :=
  if s.strength = .unset then raise .invalidStrength s
  else if !descFits s 0 || !descFits s 1 || !descFits s 2 then raise .badDescriptor s
  else if descCount s 1 < s.strength.secretBytes ∨ descCount s 2 < s.strength.ctBytes then raise .memoryFail s
  else if descCount s 0 ≠ s.strength.pubBytes then raise .invalidPubkey s
  else match s.engine.entRsp with
    | none => requestEntropy s.strength.minEntropy s.strength.maxEntropy s
    | some ans =>
      if !goodAnswer s.strength.minEntropy s.strength.maxEntropy ans then raise .entropyFail s
      else .next (match kemEncaps sym (parseFuel s) s.strength (memRead s (descAddr s 0) s.strength.pubBytes)
          ans.bytes with
        | none => keepParsing s
        | some (K, c) => complete .success (kybEncapsWrites K c s))

/-- KYB_ENCAPS (R236). -/
def execKybEncaps (s : State) : Result := kybEncapsWith Config.sym s

/-- Step 13 of KYB_DECAPS (R237). -/
def kybDecapsWrites (K : Bytes) (s : State) : State :=
  writeRlen0 s.strength.secretBytes (memWrite (descAddr s 2) s.strength.secretBytes K s)

/-- KYB_DECAPS over a symmetric unit (R237). -/
def kybDecapsWith (sym : Sym) (s : State) : Result :=
  if s.strength = .unset then raise .invalidStrength s
  else if !descFits s 0 || !descFits s 1 || !descFits s 2 then raise .badDescriptor s
  else if descCount s 2 < s.strength.secretBytes then raise .memoryFail s
  else if descCount s 0 ≠ s.strength.privBytes then raise .invalidPrivkey s
  else if descCount s 1 ≠ s.strength.ctBytes then raise .invalidCiphertext s
  else .next (match kemDecaps sym (parseFuel s) s.strength
      (memRead s (descAddr s 0) s.strength.privBytes) (memRead s (descAddr s 1) s.strength.ctBytes) with
    | none => keepParsing s
    | some K => complete .success (kybDecapsWrites K s))

/-- KYB_DECAPS (R237). -/
def execKybDecaps (s : State) : Result := kybDecapsWith Config.sym s

end Sys2Proof.Machine
end

