-- ==== Sys2Proof/Machine/PointOps.lean ====
section
/-! DEFINITION. The POINT family: the point adder, the doubler and the scalar multiplier (spec R140 to R154). -/

namespace Sys2Proof.Machine

/-- A POINT result: P[d] <- the point, the INF flag, SUCCESS (R141). -/
def finishP (d : Fin 4) (Q : Point) (s : State) : Result := succeed (writeP d Q s)

/-- PLD (R142): any 64 bytes load, unvalidated. -/
def execPld (d : Fin 4) (addr : Imm16) (s : State) : Result :=
  if !fitsBuf (immAddr addr) 64 then raise .badDescriptor s
  else finishP d (bytesPoint (memRead s (immAddr addr) 64)) s

/-- PST (R143): the range first, then INF, which has no encoding. -/
def execPst (a : Fin 4) (addr : Imm16) (s : State) : Result :=
  if !fitsBuf (immAddr addr) 64 then raise .badDescriptor s
  else if (s.readP a).inf then raise .invalidPubkey s
  else succeed (memWrite (immAddr addr) 64 (pointBytes (s.readP a)) s)

/-- PMOV (R144). -/
def execPmov (d a : Fin 4) (s : State) : Result := finishP d (s.readP a) s

/-- PBASE (R145). -/
def execPbase (d : Fin 4) (s : State) : Result := finishP d (Point.ofCurve basePoint) s

/-- PINF (R146). -/
def execPinf (d : Fin 4) (s : State) : Result := finishP d (Point.ofCurve .inf) s

/-- PVALID (R147): the answer is the V flag; no register is written. -/
def execPvalid (a : Fin 4) (s : State) : Result :=
  succeed (writeValid (validPub (s.readP a)) (infFlag (s.readP a)) s)

/-- PADD (R148). -/
def execPadd (d a b : Fin 4) (s : State) : Result :=
  if !onCurve (s.readP a) || !onCurve (s.readP b) then raise .invalidPubkey s
  else finishP d (Point.ofCurve (curveAdd (s.readP a).toCurve (s.readP b).toCurve)) s

/-- PDBL (R149). -/
def execPdbl (d a : Fin 4) (s : State) : Result :=
  if !onCurve (s.readP a) then raise .invalidPubkey s
  else finishP d (Point.ofCurve (curveAdd (s.readP a).toCurve (s.readP a).toCurve)) s

/-- PGETX (R150): 256 bits, no reduction; 0 for INF. -/
def execPgetx (d : Fin 16) (a : Fin 4) (s : State) : Result := succeed (writeF d (s.readP a).x s)

/-- PGETY (R151). -/
def execPgety (d : Fin 16) (a : Fin 4) (s : State) : Result := succeed (writeF d (s.readP a).y s)

/-- PSET (R152): no validation, no reduction. -/
def execPset (d : Fin 4) (a b : Fin 16) (s : State) : Result :=
  finishP d { inf := false, x := s.readF a, y := s.readF b } s

/-- SMUL (R153): every 256-bit scalar is legal; the point is checked whatever the scalar is. -/
def execSmul (d : Fin 4) (a : Fin 16) (b : Fin 4) (s : State) : Result :=
  if !onCurve (s.readP b) then raise .invalidPubkey s
  else finishP d (Point.ofCurve (smul (s.natF a) (s.readP b).toCurve)) s

end Sys2Proof.Machine
end

