-- ==== Sys2Proof/Machine/Ring.lean ====
section
/-! DEFINITION. The RING family: moves, lane arithmetic, the transforms, the multiplier, the samplers and the compressor
(spec R190 to R206). No RING command writes a flag. -/

namespace Sys2Proof.Machine

/-- A RING result: R[d] <- f, SUCCESS (R190). -/
def finishR (d : Fin 8) (f : Poly) (s : State) : Result := succeed (writeR d f s)

/-- RLD (R191): values 3329 to 4095 are reduced. -/
def execRld (d : Fin 8) (addr : Imm16) (s : State) : Result :=
  if !fitsBuf (immAddr addr) 384 then raise .badDescriptor s
  else finishR d (decodePoly (memRead s (immAddr addr) 384)) s

/-- RST (R192). -/
def execRst (a : Fin 8) (addr : Imm16) (s : State) : Result :=
  if !fitsBuf (immAddr addr) 384 then raise .badDescriptor s
  else succeed (memWrite (immAddr addr) 384 (encodePoly (s.readR a)) s)

/-- RMOV (R193). -/
def execRmov (d a : Fin 8) (s : State) : Result := finishR d (s.readR a) s

/-- RADD (R194). -/
def execRadd (d a b : Fin 8) (s : State) : Result := finishR d (polyAdd (s.readR a) (s.readR b)) s

/-- RSUB (R195). -/
def execRsub (d a b : Fin 8) (s : State) : Result := finishR d (polySub (s.readR a) (s.readR b)) s

/-- NTT (R197). -/
def execNtt (d a : Fin 8) (s : State) : Result := finishR d (nttPoly (s.readR a)) s

/-- INTT (R198). -/
def execIntt (d a : Fin 8) (s : State) : Result := finishR d (inttPoly (s.readR a)) s

/-- PWMUL (R199). -/
def execPwmul (d a b : Fin 8) (s : State) : Result := finishR d (pwPoly (s.readR a) (s.readR b)) s

/-- POLYMUL (R200). -/
def execPolymul (d a b : Fin 8) (s : State) : Result := finishR d (polyMul (s.readR a) (s.readR b)) s

/-- CBD (R201). A term with an eta that no legal word encodes ends with ILLEGAL_CMD, as its word does (R98; log 15). -/
def execCbd (d : Fin 8) (eta : Fin 16) (addr : Imm16) (s : State) : Result :=
  if !legalEta eta then raise .illegalCmd s
  else if !fitsBuf (immAddr addr) (64 * eta.val) then raise .badDescriptor s
  else finishR d (cbdPoly eta.val (memRead s (immAddr addr) (64 * eta.val))) s

/-- The rest of SAMPLEU once its seed is read, for a given XOF stream (R202): the command stays BUSY while Parse has not ended
(R327; log 5). -/
def finishSample (d : Fin 8) (stream : Nat → Byte) (s : State) : Result :=
  .next (match parse (parseFuel s) stream with
    | none => keepParsing s
    | some f => complete .success (writeR d f s))

/-- SAMPLEU over a symmetric unit (R202). -/
def sampleuWith (sym : Sym) (d : Fin 8) (a b : Fin 4) (addr : Imm16) (s : State) : Result :=
  if !fitsBuf (immAddr addr) 32 then raise .badDescriptor s
  else finishSample d (sym.xof (memRead s (immAddr addr) 32) (BitVec.ofNat 8 a.val) (BitVec.ofNat 8 b.val)) s

/-- SAMPLEU (R202). -/
def execSampleu (d : Fin 8) (a b : Fin 4) (addr : Imm16) (s : State) : Result := sampleuWith Config.sym d a b addr s

/-- RCOMP (R203). An illegal d: log 15. -/
def execRcomp (a : Fin 8) (bits : Fin 16) (addr : Imm16) (s : State) : Result :=
  if !legalBits bits then raise .illegalCmd s
  else if !fitsBuf (immAddr addr) (32 * bits.val) then raise .badDescriptor s
  else succeed (memWrite (immAddr addr) (32 * bits.val) (compressPoly bits.val (s.readR a)) s)

/-- RDECOMP (R204). An illegal d: log 15. -/
def execRdecomp (d : Fin 8) (bits : Fin 16) (addr : Imm16) (s : State) : Result :=
  if !legalBits bits then raise .illegalCmd s
  else if !fitsBuf (immAddr addr) (32 * bits.val) then raise .badDescriptor s
  else finishR d (decompressPoly bits.val (memRead s (immAddr addr) (32 * bits.val))) s

end Sys2Proof.Machine
end

