-- ==== Sys2Proof/Machine/System.lean ====
section
/-! DEFINITION. The SYSTEM family (spec R270, R271). -/

namespace Sys2Proof.Machine

/-- NOP (R270). -/
def execNop (s : State) : Result := succeed s

/-- ZEROIZE (R271): STRENGTH, CTRL.IE and WERR are kept. -/
def execZeroize (s : State) : Result := succeed (eraseData s)

end Sys2Proof.Machine
end

