-- ==== Sys2Proof/Machine/Dispatch.lean ====
section
/-! DEFINITION. Which meaning each command has, one arm per constructor of Instr. -/

namespace Sys2Proof.Machine

def exec (i : Instr) (s : State) : Host.Outcome State Fault Refusal :=
  match i with
  -- SYSTEM
  | .nop => Sys2Proof.Machine.execNop s
  | .zeroize => Sys2Proof.Machine.execZeroize s
  -- FIELD
  | .fadd d a b => Sys2Proof.Machine.execFadd d a b s
  | .fsub d a b => Sys2Proof.Machine.execFsub d a b s
  | .fmont d a b => Sys2Proof.Machine.execFmont d a b s
  | .fred d a => Sys2Proof.Machine.execFred d a s
  | .fredw d a b => Sys2Proof.Machine.execFredw d a b s
  | .finv d a => Sys2Proof.Machine.execFinv d a s
  | .ftom d a => Sys2Proof.Machine.execFtom d a s
  | .ffrom d a => Sys2Proof.Machine.execFfrom d a s
  | .fmov d a => Sys2Proof.Machine.execFmov d a s
  | .fld d addr => Sys2Proof.Machine.execFld d addr s
  | .fst a addr => Sys2Proof.Machine.execFst a addr s
  | .sred d a => Sys2Proof.Machine.execSred d a s
  -- POINT
  | .pld d addr => Sys2Proof.Machine.execPld d addr s
  | .pst a addr => Sys2Proof.Machine.execPst a addr s
  | .pmov d a => Sys2Proof.Machine.execPmov d a s
  | .pbase d => Sys2Proof.Machine.execPbase d s
  | .pinf d => Sys2Proof.Machine.execPinf d s
  | .pvalid a => Sys2Proof.Machine.execPvalid a s
  | .padd d a b => Sys2Proof.Machine.execPadd d a b s
  | .pdbl d a => Sys2Proof.Machine.execPdbl d a s
  | .pgetx d a => Sys2Proof.Machine.execPgetx d a s
  | .pgety d a => Sys2Proof.Machine.execPgety d a s
  | .pset d a b => Sys2Proof.Machine.execPset d a b s
  | .smul d a b => Sys2Proof.Machine.execSmul d a b s
  -- ECDH
  | .ecdhKeygen => Sys2Proof.Machine.execEcdhKeygen s
  | .ecdhSecret => Sys2Proof.Machine.execEcdhSecret s
  -- RING
  | .rld d addr => Sys2Proof.Machine.execRld d addr s
  | .rst a addr => Sys2Proof.Machine.execRst a addr s
  | .rmov d a => Sys2Proof.Machine.execRmov d a s
  | .radd d a b => Sys2Proof.Machine.execRadd d a b s
  | .rsub d a b => Sys2Proof.Machine.execRsub d a b s
  | .ntt d a => Sys2Proof.Machine.execNtt d a s
  | .intt d a => Sys2Proof.Machine.execIntt d a s
  | .pwmul d a b => Sys2Proof.Machine.execPwmul d a b s
  | .polymul d a b => Sys2Proof.Machine.execPolymul d a b s
  | .cbd d eta addr => Sys2Proof.Machine.execCbd d eta addr s
  | .sampleu d a b addr => Sys2Proof.Machine.execSampleu d a b addr s
  | .rcomp a bits addr => Sys2Proof.Machine.execRcomp a bits addr s
  | .rdecomp d bits addr => Sys2Proof.Machine.execRdecomp d bits addr s
  -- KYBER
  | .kybInit strength => Sys2Proof.Machine.execKybInit strength s
  | .kybKeygen => Sys2Proof.Machine.execKybKeygen s
  | .kybEncaps => Sys2Proof.Machine.execKybEncaps s
  | .kybDecaps => Sys2Proof.Machine.execKybDecaps s

end Sys2Proof.Machine
end

