-- ==== Sys2Proof/Machine/HostPort.lean ====
section
/-! DEFINITION. The host port: the register map (spec R26 to R35), reads (R68), writes and what becomes of them while a command
runs (R71), soft reset (R311). -/

namespace Sys2Proof.Machine

/-- What an offset of the host register space names (R26). -/
inductive HostReg where
  | id
  | cmd
  | status
  | ctrl
  | arg (k : Fin 8)
  | rlen0
  | rlen1
  | strength
  | pubkeySize
  | privkeySize
  | secretSize
  | encryptedSize
  | minEntropySize
  | maxEntropySize
  /-- the word of the BUF window that holds BUF[addr] to BUF[addr+3] -/
  | bufWord (addr : Nat)
  /-- reads 0, ignores writes (R35) -/
  | reserved
  deriving DecidableEq, Repr

/-- The register map (R26): the byte offset 4*a of word index a. -/
def hostReg (a : BitVec 15) : HostReg :=
  let off := 4 * a.toNat
  if off = 0x000 then .id
  else if off = 0x004 then .cmd
  else if off = 0x008 then .status
  else if off = 0x00C then .ctrl
  else if 0x010 ≤ off ∧ off < 0x030 then .arg (Fin.ofNat 8 ((off - 0x010) / 4))
  else if off = 0x030 then .rlen0
  else if off = 0x034 then .rlen1
  else if off = 0x040 then .strength
  else if off = 0x044 then .pubkeySize
  else if off = 0x048 then .privkeySize
  else if off = 0x04C then .secretSize
  else if off = 0x050 then .encryptedSize
  else if off = 0x054 then .minEntropySize
  else if off = 0x058 then .maxEntropySize
  else if 0x10000 ≤ off ∧ off < 0x10000 + Config.bufBytes then .bufWord (off - 0x10000)
  else .reserved

/-- The word of BUF at a BUF address (R65). -/
def bufWord (s : State) (addr : Nat) : Word :=
  leWord (s.buf.read addr) (s.buf.read (addr + 1)) (s.buf.read (addr + 2)) (s.buf.read (addr + 3))

/-- A size as a register word. -/
def sizeWord (n : Nat) : Word := BitVec.ofNat 32 n

/-- What a register reads as (R26 to R35); the BUF window reads 0 while a command runs (R71). -/
def readReg (s : State) : HostReg → Word
  | .id => Config.idValue
  | .cmd => s.cmd
  | .status => s.statusWord
  | .ctrl => s.ctrlWord
  | .arg k => s.readArg k
  | .rlen0 => s.rlen0
  | .rlen1 => s.rlen1
  | .strength => s.strength.word
  | .pubkeySize => sizeWord s.strength.pubBytes
  | .privkeySize => sizeWord s.strength.privBytes
  | .secretSize => sizeWord s.strength.secretBytes
  | .encryptedSize => sizeWord s.strength.ctBytes
  | .minEntropySize => s.strength.minEntropy.setWidth 32
  | .maxEntropySize => s.strength.maxEntropy.setWidth 32
  | .bufWord addr => if s.status.busy then 0 else bufWord s addr
  | .reserved => 0

/-- The data of a host read at word index a. -/
def hostRead (s : State) (a : BitVec 15) : Word := readReg s (hostReg a)

/-- A write to STATUS: bit 1 clears DONE and bit 6 clears WERR, where the written bit is 1 (R29, R273). -/
def writeStatus (w : Word) (s : State) : State :=
  let s1 := if w.getLsbD 1 then acknowledge s else s
  if w.getLsbD 6 then clearWerr s1 else s1

/-- A write to CTRL: SRST resets the block, else IE <- bit 0 (R30, R311). -/
def writeCtrl (w : Word) (s : State) : State :=
  if w.getLsbD 1 then resetBlock s else { s with ie := w.getLsbD 0 }

/-- A host write to a register (R26 to R35), dropped with WERR on CMD, ARG and BUF while a command runs (R71). -/
def writeReg (w : Word) (s : State) : HostReg → State
  | .cmd => if s.status.busy then dropWrite s else accept w s
  | .status => writeStatus w s
  | .ctrl => writeCtrl w s
  | .arg k => if s.status.busy then dropWrite s else { s with arg := s.arg.set k.val w }
  | .bufWord addr => if s.status.busy then dropWrite s else memWrite addr 4 (leWordBytes w) s
  | .id | .rlen0 | .rlen1 | .strength | .pubkeySize | .privkeySize | .secretSize | .encryptedSize => s
  | .minEntropySize | .maxEntropySize | .reserved => s

/-- A host write of w at word index a. -/
def hostWrite (a : BitVec 15) (w : Word) (s : State) : State := writeReg w s (hostReg a)

end Sys2Proof.Machine
end

