-- ==== Sys2Proof/Machine/Advance.lean ====
section
/-! DEFINITION. One move of each agent: the core, the host, the entropy provider, the reset input (spec R5, R70, R79).
Step.lean only chooses among them. -/

namespace Sys2Proof.Machine

/-- Run the command whose word CMD holds (R24, R102): an illegal word completes with ILLEGAL_CMD and writes nothing (R98, R283). -/
def runCommand (s : State) : Result :=
  match decode s.cmd with
  | .ok i => exec i s
  | .error _ => raise .illegalCmd s

/-- A command has been accepted, has not completed, and is not waiting for the entropy provider (R29, R74). -/
def running (s : State) : Bool := s.status.busy && !s.engine.entwait

/-- The core's move: it runs the accepted command, or holds its state (R74, R295; log 21). -/
def coreMove (s : State) : Result := if running s then runCommand s else .next s

/-- A host read puts the register's value on h_rdata and changes nothing else (R68, R79). -/
def hostReadMove (a : BitVec 15) (s : State) : State := { s with hRdata := hostRead s a }

/-- The command word w as if it had just been accepted, the core's move next: CMD is where a command is fetched from (R24; log 2). -/
def placeCommand (w : Word) (s : State) : State :=
  { accept w s with agenda := .core :: s.agenda }

end Sys2Proof.Machine
end

