-- ==== Sys2Proof/Machine/Step.lean ====
section
/-! DEFINITION. One step of the machine: the next event of the agenda happens (spec R5, R70; log 1). -/

namespace Sys2Proof.Machine

/-- One step. With nothing on the agenda the core moves. -/
def step (s : State) : Host.Outcome State Fault Refusal :=
  match s.agenda with
  | [] => coreMove s
  | .core :: rest => coreMove { s with agenda := rest }
  | .hostWrite a w :: rest => .next (hostWrite a w { s with agenda := rest })
  | .hostRead a :: rest => .next (hostReadMove a { s with agenda := rest })
  | .entropy ans :: rest => .next (deliverEntropy ans { s with agenda := rest })
  | .lateEntropy ans :: rest => .next (discardLateEntropy ans { s with agenda := rest })
  | .reset :: rest => .next (resetBlock { s with agenda := rest })

/-- s with the command word w accepted and the core's move next, so that the very next step runs it. Bit 0 of w is bit 0 of
the word and the bits at and above nbits are 0 (R90; log 2). -/
def State.withFetchWord (s : State) (nbits w : Nat) : State := placeCommand (BitVec.ofNat 32 (w % 2 ^ nbits)) s

end Sys2Proof.Machine
end

