-- ==== Sys2Proof/Safety.lean ====
section
/-! DEFINITION. What counts as a safe run, in the terms the claims use: the invariant of the machine, what "completed" means, and
for each command what it may write (spec R25, R31 to R33, R110, R141, R170, R190, R230, R281, R283, R284). -/

namespace Sys2Proof.Machine

/-! ### Outcomes -/

/-- The command has completed with the code (R284): CODE written, BUSY 0, DONE 1, ENTWAIT 0, the scratch clear. -/
def Completed (code : Code) (t : State) : Prop :=
  t.status.busy = false ∧ t.status.done = true ∧ t.status.code = code ∧ t.engine = Engine.idle

/-- Everything but CODE (with ERR), BUSY, DONE and the progress of the running command is the same: F, P, R, CMD, the flags, WERR,
IE, ARG, RLEN, STRENGTH and BUF, and the two fields of the host port (R283). -/
def SameData (s t : State) : Prop :=
  t.f = s.f ∧ t.p = s.p ∧ t.r = s.r ∧ t.cmd = s.cmd ∧
  t.status.z = s.status.z ∧ t.status.inf = s.status.inf ∧ t.status.v = s.status.v ∧ t.status.werr = s.status.werr ∧
  t.ie = s.ie ∧ t.arg = s.arg ∧ t.rlen0 = s.rlen0 ∧ t.rlen1 = s.rlen1 ∧ t.strength = s.strength ∧ t.buf = s.buf ∧
  t.hRdata = s.hRdata ∧ t.agenda = s.agenda

/-- The command is rejected with the code and nothing else is written (R283, R284). -/
def Rejected (code : Code) (s t : State) : Prop := Completed code t ∧ SameData s t

/-- The command has not completed and has written nothing: it waits for the provider, or its Parse goes on (R41, R74, R327). -/
def StillRunning (s t : State) : Prop := t.status = s.status ∧ SameData s t

/-! ### The invariant -/

/-- A point register in its canonical form (R22). -/
def Point.canonical (Q : Point) : Prop := Q.inf = true → Q.x = 0 ∧ Q.y = 0

/-- The entropy request a command makes at a strength (R75, R76); none for a command that makes none (R74). -/
def entropyRequest (i : Instr) (x : Strength) : Option EntropyRequest :=
  match i with
  | .ecdhKeygen => some { min := 32, max := 32 }
  | .kybKeygen | .kybEncaps =>
    if x = .unset then none else some { min := x.minEntropy, max := x.maxEntropy }
  | _ => none

/-- The command samples by Parse (R202, R232, R233). -/
def usesParse : Instr → Bool
  | .sampleu _ _ _ _ | .kybKeygen | .kybEncaps | .kybDecaps => true
  | _ => false

/-- What holds after reset and after every step. -/
structure KacInv (s : State) : Prop where
  /-- BUF is in canonical form (log 24) -/
  bufWf : s.buf.wf = true
  /-- no byte outside BUF has been written (R40, R63) -/
  bufIn : s.buf.inBuf = true
  /-- INF is held as (0, 0) (R22) -/
  points : ∀ i, (s.readP i).canonical
  /-- BUSY and DONE are never both 1 (R29) -/
  busyDone : ¬(s.status.busy = true ∧ s.status.done = true)
  /-- nothing of a command outlives it: no request, answer or progress between commands (R74, R323) -/
  idle : s.status.busy = false → s.engine = Engine.idle
  /-- an outstanding request is the running command's own (R74 to R76) -/
  request : ∀ q, s.engine.entReq = some q → ∃ i, decode s.cmd = .ok i ∧ entropyRequest i s.strength = some q
  /-- an answer at hand is one the running command asked for, and no request is outstanding beside it (R74) -/
  answer : s.engine.entRsp.isSome = true →
    s.engine.entReq = none ∧ ∃ i q, decode s.cmd = .ok i ∧ entropyRequest i s.strength = some q
  /-- only a sampling command is in the middle of a Parse (R327) -/
  parsing : s.engine.parseRound ≠ 0 → ∃ i, decode s.cmd = .ok i ∧ usesParse i = true

/-! ### What a command may write -/

/-- The F register a command writes. -/
def destF : Instr → Option (Fin 16)
  | .fadd d _ _ | .fsub d _ _ | .fmont d _ _ | .fredw d _ _ => some d
  | .fred d _ | .finv d _ | .ftom d _ | .ffrom d _ | .fmov d _ | .sred d _ => some d
  | .fld d _ => some d
  | .pgetx d _ | .pgety d _ => some d
  | _ => none

/-- The P register a command writes. -/
def destP : Instr → Option (Fin 4)
  | .pld d _ | .pmov d _ | .pbase d | .pinf d | .padd d _ _ | .pdbl d _ | .pset d _ _ | .smul d _ _ => some d
  | _ => none

/-- The R register a command writes. -/
def destR : Instr → Option (Fin 8)
  | .rld d _ | .rmov d _ | .radd d _ _ | .rsub d _ _ | .ntt d _ | .intt d _ | .pwmul d _ _ | .polymul d _ _ => some d
  | .cbd d _ _ | .sampleu d _ _ _ | .rdecomp d _ _ => some d
  | _ => none

/-- ZEROIZE, the one command that writes every data register, ARG and BUF (R271). -/
def isZeroize : Instr → Bool
  | .zeroize => true
  | _ => false

/-- PVALID, which writes V and INF and no register (R147). -/
def isPvalid : Instr → Bool
  | .pvalid _ => true
  | _ => false

/-- KYB_INIT, the one command that writes STRENGTH (R33, R231). -/
def isKybInit : Instr → Bool
  | .kybInit _ => true
  | _ => false

/-- The command writes RLEN0 on success (R32). -/
def writesRlen0 : Instr → Bool
  | .ecdhKeygen | .ecdhSecret | .kybKeygen | .kybEncaps | .kybDecaps | .zeroize => true
  | _ => false

/-- The command writes RLEN1 on success: it has two outputs (R32). -/
def writesRlen1 : Instr → Bool
  | .ecdhKeygen | .kybKeygen | .kybEncaps | .zeroize => true
  | _ => false

/-- The byte ranges (address, length) a command stores to on success, in the order it stores them (R67, R80). -/
def storeRanges (i : Instr) (s : State) : List (Nat × Nat) :=
  match i with
  | .fst _ addr => [(immAddr addr, 32)]
  | .pst _ addr => [(immAddr addr, 64)]
  | .rst _ addr => [(immAddr addr, 384)]
  | .rcomp _ d addr => [(immAddr addr, 32 * d.val)]
  | .ecdhKeygen => [(descAddr s 0, 32), (descAddr s 1, 64)]
  | .ecdhSecret => [(descAddr s 2, 32)]
  | .kybKeygen => [(descAddr s 0, s.strength.privBytes), (descAddr s 1, s.strength.pubBytes)]
  | .kybEncaps => [(descAddr s 1, s.strength.secretBytes), (descAddr s 2, s.strength.ctBytes)]
  | .kybDecaps => [(descAddr s 2, s.strength.secretBytes)]
  | _ => []

/-- The address lies in one of the ranges. -/
def inRanges (a : Nat) (l : List (Nat × Nat)) : Prop := ∃ x ∈ l, x.1 ≤ a ∧ a < x.1 + x.2

/-- Which codes a legal command can complete with, but ILLEGAL_CMD (R281). -/
def codesOf : Instr → List Code
  | .nop | .zeroize => [.success]
  | .fadd _ _ _ | .fsub _ _ _ | .fmont _ _ _ | .fred _ _ | .fredw _ _ _ | .finv _ _ | .ftom _ _ | .ffrom _ _
  | .fmov _ _ | .sred _ _ => [.success]
  | .fld _ _ | .fst _ _ => [.success, .badDescriptor]
  | .pmov _ _ | .pbase _ | .pinf _ | .pvalid _ | .pgetx _ _ | .pgety _ _ | .pset _ _ _ => [.success]
  | .pld _ _ => [.success, .badDescriptor]
  | .pst _ _ => [.success, .invalidPubkey, .badDescriptor]
  | .padd _ _ _ | .pdbl _ _ | .smul _ _ _ => [.success, .invalidPubkey]
  | .ecdhKeygen => [.success, .entropyFail, .memoryFail, .badDescriptor]
  | .ecdhSecret => [.success, .invalidPubkey, .invalidPrivkey, .memoryFail, .badDescriptor]
  | .rmov _ _ | .radd _ _ _ | .rsub _ _ _ | .ntt _ _ | .intt _ _ | .pwmul _ _ _ | .polymul _ _ _ => [.success]
  | .rld _ _ | .rst _ _ | .cbd _ _ _ | .sampleu _ _ _ _ | .rcomp _ _ _ | .rdecomp _ _ _ => [.success, .badDescriptor]
  | .kybInit _ => [.success, .invalidStrength]
  | .kybKeygen => [.success, .entropyFail, .memoryFail, .invalidStrength, .badDescriptor]
  | .kybEncaps => [.success, .entropyFail, .invalidPubkey, .memoryFail, .invalidStrength, .badDescriptor]
  | .kybDecaps => [.success, .invalidPrivkey, .memoryFail, .invalidStrength, .invalidCiphertext, .badDescriptor]

end Sys2Proof.Machine
end

