-- ==== Sys2Proof/Certificates/Slice0/Obligations.lean ====
section
/-! DEFINITION. The statements for the provers, from the numbered rules of spec/. Nothing is proved here. -/

open Sys2Proof Sys2Proof.Machine

namespace Sys2Proof.Claims

/-! ### The spec's own words for the claims -/

/-- A row of spec/opcode_table.json: a word selects it when (w and mask) = match and x is legal (R97). -/
structure Row where
  mnemonic : String
  bits     : Word
  mask     : Word
  xs       : List Nat

/-- The 45 rows of spec/opcode_table.json. -/
def rows : List Row :=
  [
    ⟨"NOP", 0x00000000, 0xFFFFFFFF, []⟩,
    ⟨"ZEROIZE", 0x01000000, 0xFFFFFFFF, []⟩,
    ⟨"FADD", 0x10000000, 0xFF000FFF, []⟩,
    ⟨"FSUB", 0x11000000, 0xFF000FFF, []⟩,
    ⟨"FMONT", 0x12000000, 0xFF000FFF, []⟩,
    ⟨"FRED", 0x13000000, 0xFF00FFFF, []⟩,
    ⟨"FREDW", 0x14000000, 0xFF000FFF, []⟩,
    ⟨"FINV", 0x15000000, 0xFF00FFFF, []⟩,
    ⟨"FTOM", 0x16000000, 0xFF00FFFF, []⟩,
    ⟨"FFROM", 0x17000000, 0xFF00FFFF, []⟩,
    ⟨"FMOV", 0x18000000, 0xFF00FFFF, []⟩,
    ⟨"FLD", 0x19000000, 0xFF0F0000, []⟩,
    ⟨"FST", 0x1A000000, 0xFF0F0000, []⟩,
    ⟨"SRED", 0x1B000000, 0xFF00FFFF, []⟩,
    ⟨"PLD", 0x20000000, 0xFFCF0000, []⟩ ] ++
  [
    ⟨"PST", 0x21000000, 0xFFCF0000, []⟩,
    ⟨"PMOV", 0x22000000, 0xFFCCFFFF, []⟩,
    ⟨"PBASE", 0x23000000, 0xFFCFFFFF, []⟩,
    ⟨"PINF", 0x24000000, 0xFFCFFFFF, []⟩,
    ⟨"PVALID", 0x25000000, 0xFFFCFFFF, []⟩,
    ⟨"PADD", 0x26000000, 0xFFCCCFFF, []⟩,
    ⟨"PDBL", 0x27000000, 0xFFCCFFFF, []⟩,
    ⟨"PGETX", 0x28000000, 0xFF0CFFFF, []⟩,
    ⟨"PGETY", 0x29000000, 0xFF0CFFFF, []⟩,
    ⟨"PSET", 0x2A000000, 0xFFC00FFF, []⟩,
    ⟨"SMUL", 0x2B000000, 0xFFC0CFFF, []⟩,
    ⟨"ECDH_KEYGEN", 0x30000000, 0xFFFFFFFF, []⟩,
    ⟨"ECDH_SECRET", 0x31000000, 0xFFFFFFFF, []⟩,
    ⟨"RLD", 0x40000000, 0xFF8F0000, []⟩,
    ⟨"RST", 0x41000000, 0xFF8F0000, []⟩ ] ++
  [
    ⟨"RMOV", 0x42000000, 0xFF88FFFF, []⟩,
    ⟨"RADD", 0x43000000, 0xFF888FFF, []⟩,
    ⟨"RSUB", 0x44000000, 0xFF888FFF, []⟩,
    ⟨"NTT", 0x45000000, 0xFF88FFFF, []⟩,
    ⟨"INTT", 0x46000000, 0xFF88FFFF, []⟩,
    ⟨"PWMUL", 0x47000000, 0xFF888FFF, []⟩,
    ⟨"POLYMUL", 0x48000000, 0xFF888FFF, []⟩,
    ⟨"CBD", 0x49000000, 0xFF800000, [2, 3]⟩,
    ⟨"SAMPLEU", 0x4A000000, 0xFF800000, []⟩,
    ⟨"RCOMP", 0x4B000000, 0xFF800000, [1, 4, 5, 10, 11]⟩,
    ⟨"RDECOMP", 0x4C000000, 0xFF800000, [1, 4, 5, 10, 11]⟩,
    ⟨"KYB_INIT", 0x50000000, 0xFFFF0000, []⟩,
    ⟨"KYB_KEYGEN", 0x51000000, 0xFFFFFFFF, []⟩,
    ⟨"KYB_ENCAPS", 0x52000000, 0xFFFFFFFF, []⟩,
    ⟨"KYB_DECAPS", 0x53000000, 0xFFFFFFFF, []⟩ ]

/-- The word selects the row (R97). -/
def Row.selects (row : Row) (w : Word) : Prop :=
  w &&& row.mask = row.bits ∧ (row.xs = [] ∨ (w.extractLsb' 16 4).toNat ∈ row.xs)

/-- The table's name of a command. -/
def mnemonic : Instr → String
  | .nop => "NOP" | .zeroize => "ZEROIZE"
  | .fadd _ _ _ => "FADD" | .fsub _ _ _ => "FSUB" | .fmont _ _ _ => "FMONT" | .fred _ _ => "FRED"
  | .fredw _ _ _ => "FREDW" | .finv _ _ => "FINV" | .ftom _ _ => "FTOM" | .ffrom _ _ => "FFROM"
  | .fmov _ _ => "FMOV" | .fld _ _ => "FLD" | .fst _ _ => "FST" | .sred _ _ => "SRED"
  | .pld _ _ => "PLD" | .pst _ _ => "PST" | .pmov _ _ => "PMOV" | .pbase _ => "PBASE" | .pinf _ => "PINF"
  | .pvalid _ => "PVALID" | .padd _ _ _ => "PADD" | .pdbl _ _ => "PDBL" | .pgetx _ _ => "PGETX"
  | .pgety _ _ => "PGETY" | .pset _ _ _ => "PSET" | .smul _ _ _ => "SMUL"
  | .ecdhKeygen => "ECDH_KEYGEN" | .ecdhSecret => "ECDH_SECRET"
  | .rld _ _ => "RLD" | .rst _ _ => "RST" | .rmov _ _ => "RMOV" | .radd _ _ _ => "RADD" | .rsub _ _ _ => "RSUB"
  | .ntt _ _ => "NTT" | .intt _ _ => "INTT" | .pwmul _ _ _ => "PWMUL" | .polymul _ _ _ => "POLYMUL"
  | .cbd _ _ _ => "CBD" | .sampleu _ _ _ _ => "SAMPLEU" | .rcomp _ _ _ => "RCOMP" | .rdecomp _ _ _ => "RDECOMP"
  | .kybInit _ => "KYB_INIT" | .kybKeygen => "KYB_KEYGEN" | .kybEncaps => "KYB_ENCAPS" | .kybDecaps => "KYB_DECAPS"

/-- bit(B, i): bits are taken least significant first inside a byte (R8). -/
def byteBit (B : Bytes) (i : Nat) : Nat := (B.getD (i / 8) 0).toNat / 2 ^ (i % 8) % 2

/-- Coefficient j of a polynomial, as a number. -/
def coeff (f : Poly) (j : Nat) : Nat := (f.toList.getD j 0).val

/-- The 7-bit bit-reversal of i (R14). -/
def brv7 (i : Nat) : Nat := ∑ j ∈ Finset.range 7, i / 2 ^ j % 2 * 2 ^ (6 - j)

/-- GAMMAS[i] = 17^(2*brv7(i)+1) mod q (R14). -/
def gamma (i : Nat) : Nat := 17 ^ (2 * brv7 i + 1) % 3329

/-- The byte at address x of BUF, as a number. -/
def byteAt (s : State) (x : Nat) : Nat := (s.buf.read x).toNat

/-- A 32-byte big-endian integer in BUF: the most significant byte at the lowest address (R61). -/
def beAt (s : State) (addr : Nat) : Nat := ∑ i ∈ Finset.range 32, byteAt s (addr + i) * 256 ^ (31 - i)

/-- ARG[k] as a number. -/
def argNat (s : State) (k : Fin 8) : Nat := (s.readArg k).toNat

/-- The range [a, a + n) lies inside BUF (R63). -/
def InBuf (a n : Nat) : Prop := a + n ≤ Config.bufBytes

/-- Every byte of BUF outside the range [a, a + n) reads as before. -/
def KeptOutside (a n : Nat) (s t : State) : Prop := ∀ x, x < a ∨ a + n ≤ x → t.buf.read x = s.buf.read x

/-- The curve equation, read as divisibility (R140). -/
def OnEquation (x y : Nat) : Prop := (primeP : Int) ∣ (y : Int) ^ 2 - ((x : Int) ^ 3 + curveA * x + curveB)

/-- (x3, y3) is the sum of the affine points (x1, y1) and (x2, y2) by R13's formulas: lam the slope of the chord, or of the
tangent where x1 = x2, then x3 and y3; everything modulo p. -/
def IsAffineSum (x1 y1 x2 y2 x3 y3 : Nat) : Prop :=
  x3 < primeP ∧ y3 < primeP ∧ ∃ lam : Int,
    (x1 = x2 → (primeP : Int) ∣ 2 * y1 * lam - (3 * (x1 : Int) ^ 2 + curveA)) ∧
    (x1 ≠ x2 → (primeP : Int) ∣ lam * ((x2 : Int) - x1) - ((y2 : Int) - y1)) ∧
    (primeP : Int) ∣ (x3 : Int) - (lam ^ 2 - x1 - x2) ∧
    (primeP : Int) ∣ (y3 : Int) - (lam * ((x1 : Int) - x3) - y1)

/-- ValidPub (R140). -/
def Valid (Q : Point) : Prop :=
  Q.inf = false ∧ Q.x.toNat < primeP ∧ Q.y.toNat < primeP ∧ OnEquation Q.x.toNat Q.y.toNat

/-- OnCurve (R140). -/
def OnTheCurve (Q : Point) : Prop := Q.inf = true ∨ Valid Q

/-- The core's move with nothing else on the agenda, k times. -/
def coreMoves (k : Nat) (s : State) : Result := Host.Core.run Sys2Proof.core k s

/-- The candidates of Parse in the first n three-byte groups of a stream, in its order: d1 before d2 in each group, the values
below q only (R16). -/
def candidates (n : Nat) (S : Nat → Byte) : List Nat :=
  ((List.range n).flatMap fun i =>
    [(S (3 * i)).toNat + 256 * ((S (3 * i + 1)).toNat % 16), (S (3 * i + 1)).toNat / 16 + 16 * (S (3 * i + 2)).toNat]).filter
      fun d => decide (d < 3329)

/-- The polynomial is Parse's result and Parse looks at no more than n groups: its coefficients are the first 256 candidates,
in their order, of which there are that many (R16). -/
def Parsed (n : Nat) (S : Nat → Byte) (f : Poly) : Prop := (f.toList.map fun c => c.val) = (candidates n S).take 256

/-- Parse has not ended after n groups (R16, R327). -/
def Unparsed (n : Nat) (S : Nat → Byte) : Prop := (candidates n S).length < 256

/-- What SAMPLEU does with the 32 bytes at addr, over a symmetric unit (R202, R327; the budget of one move is log 5). -/
def SampleEffect (sym : Sym) (d : Fin 8) (a b : Byte) (addr : Nat) (s t : State) : Prop :=
  let stream := sym.xof (memRead s addr 32) a b
  (¬ Unparsed (parseFuel s) stream → Completed .success t ∧ Parsed (parseFuel s) stream (t.readR d)) ∧
  (Unparsed (parseFuel s) stream → StillRunning s t ∧ t.engine.parseRound = s.engine.parseRound + 1)

/-! ### K-PKE, by the functions the RING commands compute: `nttPoly` of NTT, `inttPoly` of INTT, `pwPoly` of PWMUL, `cbdPoly` of CBD,
`encodePoly` and `decodePoly` of RST and RLD, `compressPoly` and `decompressPoly` of RCOMP and RDECOMP -/

/-- P is the sum of the polynomials, coefficient by coefficient, modulo q. -/
def IsSum (P : Poly) (fs : List Poly) : Prop := ∀ l, l < 256 → coeff P l = (fs.map fun f => coeff f l).sum % 3329

/-- CBD_eta(PRF(seed, N, 64*eta)). -/
def noise (sym : Sym) (eta : Nat) (seed : Bytes) (N : Nat) : Poly :=
  cbdPoly eta (sym.prf seed (BitVec.ofNat 8 N) (64 * eta)).toList

/-- XOF(rho, i, j). -/
def matrixStream (sym : Sym) (rho : Bytes) (i j : Nat) : Nat → Byte := sym.xof rho (BitVec.ofNat 8 i) (BitVec.ofNat 8 j)

/-- Polynomial i of a vector of 12-bit encodings, every value reduced modulo q. -/
def vectorEntry (B : Bytes) (i : Nat) : Poly := decodePoly (slice B (384 * i) (384 * i + 384))

/-- pk and sk0 are what KPKE_KeyGen(s, d) writes (R232): the matrix by the column index first, noise counters 0 to k-1 for the
secret and k to 2k-1 for the error, both with eta1; Encode_12 of that and of shat. -/
def IsKeyPair (sym : Sym) (fuel : Nat) (x : Strength) (d pk sk0 : Bytes) : Prop :=
  let rho := slice (sym.hash2 d).toList 0 32
  let sigma := slice (sym.hash2 d).toList 32 64
  let shat := fun i => nttPoly (noise sym x.eta1 sigma i)
  let ehat := fun i => nttPoly (noise sym x.eta1 sigma (x.rank + i))
  slice pk (384 * x.rank) (384 * x.rank + 32) = rho ∧
  ∃ (A : Nat → Nat → Poly) (that : Nat → Poly),
    (∀ i j, i < x.rank → j < x.rank → Parsed fuel (matrixStream sym rho j i) (A i j)) ∧
    ∀ i, i < x.rank →
      IsSum (that i) (((List.range x.rank).map fun j => pwPoly (A i j) (shat j)) ++ [ehat i]) ∧
      slice pk (384 * i) (384 * i + 384) = encodePoly (that i) ∧
      slice sk0 (384 * i) (384 * i + 384) = encodePoly (shat i)

/-- c is what KPKE_Enc(s, pk, m, r) returns (R233, R238): the matrix by the row index first, noise counters 0 to k-1 with eta1,
k to 2k-1 and 2k with eta2; c1 is the compressed u, du bits a coefficient, and c2 the compressed v, dv bits. -/
def IsCiphertext (sym : Sym) (fuel : Nat) (x : Strength) (pk m r c : Bytes) : Prop :=
  let rho := slice pk (384 * x.rank) (384 * x.rank + 32)
  let rhat := fun j => nttPoly (noise sym x.eta1 r j)
  c.length = 32 * x.du * x.rank + 32 * x.dv ∧
  (∃ A : Nat → Nat → Poly, (∀ i j, i < x.rank → j < x.rank → Parsed fuel (matrixStream sym rho i j) (A i j)) ∧
    ∀ i, i < x.rank → ∃ dot u : Poly,
      IsSum dot ((List.range x.rank).map fun j => pwPoly (A i j) (rhat j)) ∧
      IsSum u [inttPoly dot, noise sym x.eta2 r (x.rank + i)] ∧
      slice c (32 * x.du * i) (32 * x.du * (i + 1)) = compressPoly x.du u) ∧
  ∃ dot v : Poly,
    IsSum dot ((List.range x.rank).map fun j => pwPoly (vectorEntry pk j) (rhat j)) ∧
    IsSum v [inttPoly dot, noise sym x.eta2 r (2 * x.rank), decompressPoly 1 m] ∧
    slice c (32 * x.du * x.rank) (32 * x.du * x.rank + 32 * x.dv) = compressPoly x.dv v

/-- w is the noisy message of KPKE_Dec(s, sk0, c) (R234): v - INTT(the sum of PW(shat[i], NTT(u[i]))). -/
def IsNoisyMessage (x : Strength) (sk0 c : Bytes) (w : Poly) : Prop :=
  let u := fun i => decompressPoly x.du (slice c (32 * x.du * i) (32 * x.du * (i + 1)))
  let v := decompressPoly x.dv (slice c (32 * x.du * x.rank) (32 * x.du * x.rank + 32 * x.dv))
  ∃ dot : Poly,
    IsSum dot ((List.range x.rank).map fun i => pwPoly (vectorEntry sk0 i) (nttPoly (u i))) ∧
    ∀ l, l < 256 → (coeff w l : Int) = ((coeff v l : Int) - coeff (inttPoly dot) l) % 3329

/-- What KYB_KEYGEN does with a good answer, over a symmetric unit (R235, R80, R327; the budget of one move is log 5). -/
def KeygenEffect (sym : Sym) (ans : EntropyAnswer) (s t : State) : Prop :=
  (kemKeyGen sym (parseFuel s) s.strength ans.bytes = none → StillRunning s t) ∧
  (∀ sk pk, kemKeyGen sym (parseFuel s) s.strength ans.bytes = some (sk, pk) →
    Completed .success t ∧
    (argNat s 0 + s.strength.privBytes ≤ argNat s 2 ∨ argNat s 2 + s.strength.pubBytes ≤ argNat s 0 →
      memRead t (argNat s 0) s.strength.privBytes = sk) ∧
    memRead t (argNat s 2) s.strength.pubBytes = pk ∧
    t.rlen0.toNat = s.strength.privBytes ∧ t.rlen1.toNat = s.strength.pubBytes)

/-- What KYB_ENCAPS does with a good answer, over a symmetric unit (R236, R80, R327; the budget of one move is log 5). -/
def EncapsEffect (sym : Sym) (ans : EntropyAnswer) (s t : State) : Prop :=
  let result := kemEncaps sym (parseFuel s) s.strength (memRead s (argNat s 0) s.strength.pubBytes) ans.bytes
  (result = none → StillRunning s t) ∧
  (∀ K c, result = some (K, c) →
    Completed .success t ∧ c.length = s.strength.ctBytes ∧
    (argNat s 2 + 32 ≤ argNat s 4 ∨ argNat s 4 + s.strength.ctBytes ≤ argNat s 2 → memRead t (argNat s 2) 32 = K) ∧
    memRead t (argNat s 4) s.strength.ctBytes = c ∧
    t.rlen0 = 32 ∧ t.rlen1.toNat = s.strength.ctBytes)

/-- What KYB_DECAPS does with keys and ciphertexts of the right lengths, over a symmetric unit (R237, R327; the budget of one move is log 5). -/
def DecapsEffect (sym : Sym) (s t : State) : Prop :=
  let result := kemDecaps sym (parseFuel s) s.strength
    (memRead s (argNat s 0) s.strength.privBytes) (memRead s (argNat s 2) s.strength.ctBytes)
  (result = none → StillRunning s t ∧ t.engine.entReq = s.engine.entReq) ∧
  (∀ K, result = some K →
    Completed .success t ∧ K.length = 32 ∧ memRead t (argNat s 4) 32 = K ∧ KeptOutside (argNat s 4) 32 s t ∧
    t.rlen0 = 32 ∧ t.rlen1 = s.rlen1)

end Sys2Proof.Claims

open Sys2Proof.Claims

/-- decode (encode i) = i for every command with legal fields (R97, R102): no operand bit is dropped. -/
def Obligations.DecodeOfEncodeIsTheCommand : Prop :=
  ∀ i : Instr, i.wellFormed = true → decode (encode i) = .ok i

/-- A word that decodes is the encoding of what it decodes to (R98, R102): every must-be-zero bit is checked, and only legal fields come out. -/
def Obligations.EncodeOfDecodeIsTheWord : Prop :=
  ∀ (w : Word) (i : Instr), decode w = .ok i → encode i = w ∧ i.wellFormed = true

/-- The decoder against the opcode table (R97, R98): a word decodes exactly when a row selects it, and the row bears the command's name. -/
def Obligations.WordIsLegalExactlyWhenATableRowSelectsIt : Prop :=
  ∀ w : Word,
    (∀ i, decode w = .ok i → ∃ row ∈ rows, row.mnemonic = mnemonic i ∧ row.selects w) ∧
    ((∃ row ∈ rows, row.selects w) → ∃ i, decode w = .ok i)

/-- Words of the spec's lists (95_test_vectors.md 7.1 and 7.2): one or two legal words of each family, and one illegal word for each reason. -/
def Obligations.SpecWordsDecodeAndIllegalOnesAreRefused : Prop :=
  decode 0x00000000 = .ok .nop ∧ decode 0x01000000 = .ok .zeroize ∧
  decode 0x10201000 = .ok (.fadd 2 0 1) ∧ decode 0x1A300040 = .ok (.fst 3 0x0040) ∧
  decode 0x2A145000 = .ok (.pset 1 4 5) ∧ decode 0x2B001000 = .ok (.smul 0 0 1) ∧
  decode 0x30000000 = .ok .ecdhKeygen ∧ decode 0x47423000 = .ok (.pwmul 4 2 3) ∧
  decode 0x4A240040 = .ok (.sampleu 2 1 0 0x0040) ∧ decode 0x4B1A0200 = .ok (.rcomp 1 10 0x0200) ∧
  decode 0x50000200 = .ok (.kybInit 512) ∧ decode 0x53000000 = .ok .kybDecaps ∧
  decode 0x02000000 = .error .opcode ∧ decode 0x00000001 = .error .reserved ∧ decode 0x10001001 = .error .reserved ∧
  decode 0x13101000 = .error .reserved ∧ decode 0x20400000 = .error .register ∧ decode 0x45280000 = .error .register ∧
  decode 0x49040000 = .error .modifier ∧ decode 0x4C1C0000 = .error .modifier ∧ decode 0x50100200 = .error .reserved

/-- A step whose move is the core's runs the command CMD holds (R24, R28, R102; the agenda is the model's own, log 1); a placed word runs at once (log 2). -/
def Obligations.CoreMoveRunsTheDecodedCommand : Prop :=
  (∀ (s : State) (rest : List Event) (i : Instr),
    (s.agenda = [] ∧ rest = [] ∨ s.agenda = .core :: rest) → s.status.busy = true → s.engine.entReq = none →
    decode s.cmd = .ok i → step s = exec i { s with agenda := rest }) ∧
  (∀ (s : State) (w : Word) (i : Instr), decode w = .ok i → step (s.withFetchWord 32 w.toNat) = exec i (accept w s))

/-- R98: an illegal word, once accepted, completes with ILLEGAL_CMD and changes no other state, at every step whose move is the core's (the agenda is the model's own, log 1). -/
def Obligations.IllegalWordCompletesWithIllegalCmdOnly : Prop :=
  ∀ (s : State) (rest : List Event) (e : Illegal),
    (s.agenda = [] ∧ rest = [] ∨ s.agenda = .core :: rest) → s.status.busy = true → s.engine.entReq = none →
    decode s.cmd = .error e →
    ∃ t, step s = .next t ∧ Rejected .illegalCmd { s with agenda := rest } t

/-- R28: a CMD write is accepted while BUSY is 0 and dropped with WERR while it is 1; a read returns the last accepted word. -/
def Obligations.CmdWriteIsAcceptedOrDropped : Prop :=
  ∀ (s : State) (w : Word),
    (s.status.busy = false →
      hostWrite 1#15 w s = { s with cmd := w, status := { s.status with busy := true, done := false }, engine := Engine.idle } ∧
      hostRead (hostWrite 1#15 w s) 1#15 = w) ∧
    (s.status.busy = true →
      hostWrite 1#15 w s = { s with status := { s.status with werr := true } } ∧
      hostRead (hostWrite 1#15 w s) 1#15 = s.cmd) ∧
    hostRead State.reset 1#15 = 0

/-- R45, R310: every piece of state after reset. That ID_VALUE is 0x4B414301 is the default of a parameter (R6, R27), which the model takes (log 9). -/
def Obligations.ResetGivesEveryRegisterItsValue : Prop :=
  (∀ i, State.reset.readF i = 0) ∧
  (∀ i, State.reset.readP i = { inf := false, x := 0, y := 0 }) ∧
  (∀ i j, coeff (State.reset.readR i) j = 0) ∧
  hostRead State.reset 0#15 = 0x4B414301 ∧ State.reset.cmd = 0 ∧ State.reset.statusWord = 0 ∧ State.reset.ctrlWord = 0 ∧
  (∀ k, State.reset.readArg k = 0) ∧ State.reset.rlen0 = 0 ∧ State.reset.rlen1 = 0 ∧ State.reset.strength.word = 0 ∧
  (∀ a : BitVec 15, 0x44 ≤ 4 * a.toNat → 4 * a.toNat ≤ 0x58 → hostRead State.reset a = 0) ∧
  (∀ x, State.reset.buf.read x = 0) ∧ State.reset.engine.entReq = none ∧ State.reset.irq = false

/-- R310, R311: the reset input, and a CTRL write with SRST whatever bit 0 is, give the reset state, also while a command runs. What the outside does next is not the block's state (log 1); that h_rdata, one of the fields of State.reset, is 0 then too is the model's choice (log 13). -/
def Obligations.SoftResetIsResetInEveryState : Prop :=
  (∀ (s : State) (rest : List Event), s.agenda = .reset :: rest → step s = .next { State.reset with agenda := rest }) ∧
  (∀ (s : State) (w : Word), w.getLsbD 1 = true →
    hostWrite 3#15 w s = { State.reset with agenda := s.agenda } ∧
    (∀ e ans rest, e = Event.entropy ans ∨ e = .lateEntropy ans → s.agenda = .hostWrite 3#15 w :: e :: rest →
      ∃ t, Host.Core.run Sys2Proof.core 2 s = .next t ∧ t = { State.reset with agenda := rest }))

/-- R29, R273: a STATUS write clears DONE and WERR where its bits 1 and 6 are 1 and affects nothing else, busy or not. -/
def Obligations.StatusWriteClearsDoneAndWerrOnly : Prop :=
  ∀ (s : State) (w : Word),
    ∃ t, step { s with agenda := [.hostWrite 2#15 w] } = .next t ∧
      t.status.done = (s.status.done && !w.getLsbD 1) ∧ t.status.werr = (s.status.werr && !w.getLsbD 6) ∧
      t = { s with agenda := [], status := { s.status with done := t.status.done, werr := t.status.werr } }

/-- R68, R71, R35, R26: host accesses. A read changes no register in any state (h_rdata is the read port itself, log 13); CMD, ARG and BUF are closed while a command runs; a write to a read-only register or a reserved offset changes nothing at all, and a reserved offset reads 0. Where the BUF window ends follows from the size the model takes (log 7). -/
def Obligations.BusyBlocksCmdArgAndBufAccess : Prop :=
  ∀ (s : State) (a : BitVec 15) (w : Word) (rest : List Event),
    let off := 4 * a.toNat
    (s.agenda = .hostRead a :: rest → step s = .next { s with agenda := rest, hRdata := hostRead s a }) ∧
    (s.agenda = .hostWrite a w :: rest → step s = .next (hostWrite a w { s with agenda := rest })) ∧
    (off = 0 ∨ 0x30 ≤ off ∧ off < 0x10000 ∨ 0x10000 + Config.bufBytes ≤ off → hostWrite a w s = s) ∧
    (off = 0x38 ∨ off = 0x3C ∨ 0x5C ≤ off ∧ off < 0x10000 ∨ 0x10000 + Config.bufBytes ≤ off → hostRead s a = 0) ∧
    (s.status.busy = true →
      (∀ x, hostReg a = .bufWord x → hostRead s a = 0) ∧
      ((hostReg a = .cmd ∨ (∃ k, hostReg a = .arg k) ∨ ∃ x, hostReg a = .bufWord x) →
        hostWrite a w s = { s with status := { s.status with werr := true } }) ∧
      (hostReg a ≠ .cmd → (∀ k, hostReg a ≠ .arg k) → (∀ x, hostReg a ≠ .bufWord x) →
        (hostWrite a w s).status.werr = true → s.status.werr = true) ∧
      (hostWrite 3#15 0 s).ie = false ∧ (hostWrite 3#15 1 s).ie = true ∧ (hostWrite 2#15 0x40 s).status.werr = false) ∧
    (s.status.busy = false → ∀ k, hostReg a = .arg k →
      hostRead (hostWrite a w s) a = w ∧ ∀ k', k' ≠ k → (hostWrite a w s).readArg k' = s.readArg k')

/-- R65: the word at window offset 0x10000 + 4w holds BUF[4w] in bits 7:0 up to BUF[4w+3] in bits 31:24. -/
def Obligations.BufWindowPacksBytesLittleEndian : Prop :=
  ∀ (s : State) (w : Nat) (v : Word) (a : BitVec 15),
    s.buf.wf = true → s.status.busy = false → a.toNat = 0x4000 + w → 4 * w < Config.bufBytes →
    hostRead (hostWrite a v s) a = v ∧
    (∀ k, k < 4 → (hostWrite a v s).buf.read (4 * w + k) = v.extractLsb' (8 * k) 8) ∧
    KeptOutside (4 * w) 4 s (hostWrite a v s) ∧
    (∀ k, k < 4 → (hostRead s a).extractLsb' (8 * k) 8 = s.buf.read (4 * w + k))

/-- R29: the bit positions of STATUS, and ERR and ENTWAIT as functions of CODE and of the request. -/
def Obligations.StatusWordHoldsEachFieldAtItsBit : Prop :=
  ∀ s : State,
    s.statusWord.getLsbD 0 = s.status.busy ∧ s.statusWord.getLsbD 1 = s.status.done ∧
    s.statusWord.getLsbD 2 = decide (s.status.code ≠ .success) ∧
    s.statusWord.getLsbD 3 = s.status.z ∧ s.statusWord.getLsbD 4 = s.status.inf ∧ s.statusWord.getLsbD 5 = s.status.v ∧
    s.statusWord.getLsbD 6 = s.status.werr ∧ s.statusWord.getLsbD 7 = s.engine.entReq.isSome ∧
    s.statusWord.extractLsb' 8 8 = s.status.code.byte ∧ s.statusWord.extractLsb' 16 16 = 0 ∧
    hostRead s 2#15 = s.statusWord

/-- R33, R34: STRENGTH and the six size registers for each strength, and that a host write changes none of them. The two entropy sizes are the defaults of parameters (R6), which the model takes (log 8). -/
def Obligations.SizeRegistersFollowStrength : Prop :=
  ∀ s : State,
    let v := fun a : BitVec 15 => (hostRead s a).toNat
    (s.strength = .unset → v 16#15 = 0 ∧ v 17#15 = 0 ∧ v 18#15 = 0 ∧ v 19#15 = 0 ∧ v 20#15 = 0 ∧ v 21#15 = 0 ∧ v 22#15 = 0) ∧
    (s.strength = .s512 → v 16#15 = 512 ∧ v 17#15 = 800 ∧ v 18#15 = 1632 ∧ v 19#15 = 32 ∧ v 20#15 = 768 ∧ v 21#15 = 64 ∧ v 22#15 = 64) ∧
    (s.strength = .s768 → v 16#15 = 768 ∧ v 17#15 = 1184 ∧ v 18#15 = 2400 ∧ v 19#15 = 32 ∧ v 20#15 = 1088 ∧ v 21#15 = 64 ∧ v 22#15 = 64) ∧
    (s.strength = .s1024 → v 16#15 = 1024 ∧ v 17#15 = 1568 ∧ v 18#15 = 3168 ∧ v 19#15 = 32 ∧ v 20#15 = 1568 ∧ v 21#15 = 64 ∧ v 22#15 = 64) ∧
    (∀ (a : BitVec 15) (w : Word), 0x40 ≤ 4 * a.toNat → 4 * a.toNat ≤ 0x58 → hostWrite a w s = s)

/-- R286: irq is asserted from a completion until DONE is cleared, if IE is 1, and at once when IE is set. -/
def Obligations.InterruptLineFollowsDoneAndEnable : Prop :=
  ∀ (s : State) (c : Code) (w : Word),
    (complete c s).irq = s.ie ∧ (hostWrite 2#15 0x2 s).irq = false ∧
    (s.status.busy = false → (hostWrite 1#15 w s).irq = false) ∧
    (hostWrite 3#15 1 s).irq = s.status.done ∧ (hostWrite 3#15 0 s).irq = false ∧ (hostWrite 3#15 2 s).irq = false

/-- R74, R79: an answer carries as many bytes as its 16-bit count says, whole in one event (log 14); it clears ENTWAIT and is kept for the command that asked; only the command that asked consumes it (R287). A late answer, to a request that a reset withdrew, is discarded in every state, also while a new command waits (R311; the agenda says which answers are late, log 26), and so is one with no request outstanding (log 4). While a request is outstanding the core's move changes nothing. -/
def Obligations.EntropyAnswerEndsTheWaitOrIsDiscarded : Prop :=
  ∀ (s : State) (ans : EntropyAnswer) (rest : List Event),
    (ans.bytes.length = ans.count.toNat ∧ ans.bytes.length ≤ 65535) ∧
    (∀ q, s.engine.entReq = some q → s.agenda = .entropy ans :: rest →
      ∃ t, step s = .next t ∧ t.statusWord.getLsbD 7 = false ∧
        t = { s with agenda := rest, engine := { s.engine with entReq := none, entRsp := some ans } }) ∧
    (s.engine.entReq = none → s.agenda = .entropy ans :: rest → step s = .next { s with agenda := rest }) ∧
    (s.agenda = .lateEntropy ans :: rest → step s = .next { s with agenda := rest }) ∧
    (∀ q, s.engine.entReq = some q → s.agenda = .core :: rest → step s = .next { s with agenda := rest })

/-- Every step of the machine keeps the invariant of Safety.lean, from every state that has it (R22, R29, R40, R63, R74, R323, R327). -/
def Obligations.EveryStepKeepsTheMachineInvariant : Prop :=
  ∀ s t : State, KacInv s → step s = .next t → KacInv t

/-- The reset state has the invariant of Safety.lean. -/
def Obligations.ResetHasTheMachineInvariant : Prop :=
  KacInv State.reset

/-- R284, R41, R74, R327: a command answers a next state always; it has completed with a code, or it has written nothing and is one that may wait. -/
def Obligations.EveryCommandCompletesOrWaitsUnchanged : Prop :=
  ∀ (i : Instr) (s : State), ∃ t, exec i s = .next t ∧
    ((∃ c, Completed c t) ∨
      (StillRunning s t ∧ ((entropyRequest i s.strength).isSome = true ∨ usesParse i = true)))

/-- R283: a command that ends with a non-zero code performs no architected write but those of the completion. -/
def Obligations.FailingCommandWritesNothing : Prop :=
  ∀ (i : Instr) (s t : State) (c : Code),
    exec i s = .next t → Completed c t → c ≠ .success → SameData s t

/-- R281: which legal command can complete with which code. -/
def Obligations.CommandsCompleteOnlyWithTheirMatrixCodes : Prop :=
  ∀ (i : Instr) (s t : State) (c : Code),
    i.wellFormed = true → exec i s = .next t → Completed c t → c ∈ codesOf i

/-- R77: a command that ends with a code other than SUCCESS or ENTROPY_FAIL has issued no entropy request: it ends so whatever the entropy port holds, also right after acceptance. -/
def Obligations.OtherRejectionsNeedNoEntropy : Prop :=
  ∀ (i : Instr) (s t : State) (c : Code) (e : Engine),
    exec i s = .next t → Completed c t → c ≠ .success → c ≠ .entropyFail →
    ∃ t', exec i { s with engine := e } = .next t' ∧ Completed c t' ∧ SameData s t'

/-- Frame of F, P and R for all commands but ZEROIZE: only the destination register changes (R110, R141, R170, R190, R230). -/
def Obligations.RegisterFilesChangeOnlyAtTheDestination : Prop :=
  ∀ (i : Instr) (s t : State), isZeroize i = false → exec i s = .next t →
    (∀ j, destF i ≠ some j → t.readF j = s.readF j) ∧
    (∀ j, destP i ≠ some j → t.readP j = s.readP j) ∧
    (∀ j, destR i ≠ some j → t.readR j = s.readR j)

/-- Frame of Z, INF and V for all commands but ZEROIZE (R25). -/
def Obligations.FlagsChangeOnlyByTheirWriters : Prop :=
  ∀ (i : Instr) (s t : State), isZeroize i = false → exec i s = .next t →
    (destF i = none → t.status.z = s.status.z) ∧
    (destP i = none → isPvalid i = false → t.status.inf = s.status.inf) ∧
    (isPvalid i = false → t.status.v = s.status.v)

/-- Frame of the control registers for all commands (R31, R32, R33, R271). -/
def Obligations.ControlRegistersChangeOnlyByTheirWriters : Prop :=
  ∀ (i : Instr) (s t : State), exec i s = .next t →
    t.cmd = s.cmd ∧ t.ie = s.ie ∧ t.status.werr = s.status.werr ∧ t.hRdata = s.hRdata ∧ t.agenda = s.agenda ∧
    (isKybInit i = false → t.strength = s.strength) ∧
    (isZeroize i = false → t.arg = s.arg) ∧
    (writesRlen0 i = false → t.rlen0 = s.rlen0) ∧
    (writesRlen1 i = false → t.rlen1 = s.rlen1)

/-- Frame of BUF for all commands but ZEROIZE: the stored ranges are computed with the addresses the meanings use (R67). -/
def Obligations.BufChangesOnlyInTheStoredRanges : Prop :=
  ∀ (i : Instr) (s t : State) (x : Nat), isZeroize i = false → s.buf.wf = true → exec i s = .next t →
    ¬ inRanges x (storeRanges i s) → t.buf.read x = s.buf.read x

/-- R270: the word, the illegal words of its opcode, and the effect: BUSY, DONE, ERR and CODE change, after the acceptance CMD too, and nothing else. -/
def Obligations.NopOnlyCompletes : Prop :=
  decode 0x00000000 = .ok .nop ∧
  (∀ w : Word, w.extractLsb' 24 8 = 0 → w ≠ 0 → ∃ e, decode w = .error e) ∧
  (∀ s : State, ∃ t, exec .nop s = .next t ∧ Completed .success t ∧ SameData s t ∧ t.statusWord.getLsbD 2 = false ∧
    t.status.code.byte = 0) ∧
  (∀ s : State, s.agenda = [.hostWrite 1#15 0] → s.status.busy = false → ∃ t, coreMoves 2 s = .next t ∧
    Completed .success t ∧ SameData { s with cmd := 0, agenda := [] } t) ∧
  State.reset.cmd = 0 ∧ State.reset.status.done = false

/-- R271: the word, the illegal words of its opcode, what ZEROIZE clears and what it leaves. The last clause compares with the reset state; hRdata and agenda are the model's own fields (logs 1 and 13). -/
def Obligations.ZeroizeErasesAllButStrengthEnableAndWerr : Prop :=
  decode 0x01000000 = .ok .zeroize ∧
  (∀ w : Word, w.extractLsb' 24 8 = 1 → w ≠ 0x01000000 → ∃ e, decode w = .error e) ∧
  (∀ s : State, ∃ t, exec .zeroize s = .next t ∧ Completed .success t ∧
    (∀ i, t.readF i = 0) ∧ (∀ i, t.readP i = { inf := false, x := 0, y := 0 }) ∧ (∀ i j, coeff (t.readR i) j = 0) ∧
    (∀ x, t.buf.read x = 0) ∧ (∀ k, t.readArg k = 0) ∧ t.rlen0 = 0 ∧ t.rlen1 = 0 ∧
    t.status.z = false ∧ t.status.inf = false ∧ t.status.v = false ∧
    t.strength = s.strength ∧ t.ie = s.ie ∧ t.status.werr = s.status.werr ∧ hostRead t 0#15 = hostRead s 0#15 ∧ t.cmd = s.cmd ∧
    t = { State.reset with strength := s.strength, ie := s.ie, cmd := s.cmd, hRdata := s.hRdata, agenda := s.agenda,
                           status := { Status.reset with werr := s.status.werr, done := true } })

/-- R111, R112: FADD and FSUB on the full 256-bit operands. -/
def Obligations.FieldSumAndDifferenceModuloP : Prop :=
  ∀ (d a b : Fin 16) (s : State),
    (∃ t, exec (.fadd d a b) s = .next t ∧ Completed .success t ∧
      (t.readF d).toNat = ((s.readF a).toNat + (s.readF b).toNat) % primeP ∧
      (t.status.z = true ↔ t.readF d = 0)) ∧
    (∃ t, exec (.fsub d a b) s = .next t ∧ Completed .success t ∧
      ((t.readF d).toNat : Int) = (((s.readF a).toNat : Int) - (s.readF b).toNat) % (primeP : Int) ∧
      (t.status.z = true ↔ t.readF d = 0))

/-- R113, R117, R118, R12: the Montgomery product, the entry and the exit, by the property that defines inv(RM, p). -/
def Obligations.FieldMontgomeryProductAndDomainMoves : Prop :=
  ∀ (d a b : Fin 16) (s : State),
    (∃ t, exec (.fmont d a b) s = .next t ∧ Completed .success t ∧ (t.readF d).toNat < primeP ∧
      (t.readF d).toNat * 2 ^ 256 % primeP = (s.readF a).toNat * (s.readF b).toNat % primeP ∧
      (t.status.z = true ↔ t.readF d = 0)) ∧
    (∃ t, exec (.ftom d a) s = .next t ∧ Completed .success t ∧
      (t.readF d).toNat = (s.readF a).toNat * 2 ^ 256 % primeP ∧ (t.status.z = true ↔ t.readF d = 0)) ∧
    (∃ t, exec (.ffrom d a) s = .next t ∧ Completed .success t ∧ (t.readF d).toNat < primeP ∧
      (t.readF d).toNat * 2 ^ 256 % primeP = (s.readF a).toNat % primeP ∧ (t.status.z = true ↔ t.readF d = 0))

/-- R114, R115, R122: the reducer modulo p on one and two registers, and the scalar reducer modulo n, each one conditional subtraction where the rule says so. -/
def Obligations.FieldReducersReduce : Prop :=
  ∀ (d a b : Fin 16) (s : State),
    (∃ t, exec (.fred d a) s = .next t ∧ Completed .success t ∧
      (t.readF d).toNat = (if (s.readF a).toNat < primeP then (s.readF a).toNat else (s.readF a).toNat - primeP) ∧
      (t.status.z = true ↔ t.readF d = 0)) ∧
    (∃ t, exec (.fredw d a b) s = .next t ∧ Completed .success t ∧
      (t.readF d).toNat = ((s.readF a).toNat * 2 ^ 256 + (s.readF b).toNat) % primeP ∧
      (t.status.z = true ↔ t.readF d = 0)) ∧
    (∃ t, exec (.sred d a) s = .next t ∧ Completed .success t ∧
      (t.readF d).toNat = (if (s.readF a).toNat < orderN then (s.readF a).toNat else (s.readF a).toNat - orderN) ∧
      (t.status.z = true ↔ t.readF d = 0))

/-- R116: FINV writes the inverse modulo p of an operand that is not a multiple of p, and 0 with Z of one that is. -/
def Obligations.FieldInverseInvertsModuloP : Prop :=
  ∀ (d a : Fin 16) (s : State), ∃ t, exec (.finv d a) s = .next t ∧ Completed .success t ∧
    ((s.readF a).toNat % primeP = 0 → t.readF d = 0 ∧ t.status.z = true) ∧
    ((s.readF a).toNat % primeP ≠ 0 →
      1 ≤ (t.readF d).toNat ∧ (t.readF d).toNat < primeP ∧
      (s.readF a).toNat * (t.readF d).toNat % primeP = 1 ∧ t.status.z = false)

/-- R119, R120, R121: FMOV copies, FLD and FST move a 32-byte big-endian integer, BAD_DESCRIPTOR where the range passes BUF. -/
def Obligations.FieldMoveLoadAndStore : Prop :=
  ∀ (d a : Fin 16) (addr : Imm16) (s : State),
    (∃ t, exec (.fmov d a) s = .next t ∧ Completed .success t ∧ t.readF d = s.readF a ∧
      (t.status.z = true ↔ s.readF a = 0)) ∧
    (InBuf addr.toNat 32 →
      ∃ t, exec (.fld d addr) s = .next t ∧ Completed .success t ∧
        (t.readF d).toNat = beAt s addr.toNat ∧ (t.status.z = true ↔ t.readF d = 0)) ∧
    (InBuf addr.toNat 32 → s.buf.wf = true →
      ∃ t, exec (.fst a addr) s = .next t ∧ Completed .success t ∧
        beAt t addr.toNat = (s.readF a).toNat ∧ KeptOutside addr.toNat 32 s t) ∧
    (¬ InBuf addr.toNat 32 →
      (∃ t, exec (.fld d addr) s = .next t ∧ Rejected .badDescriptor s t) ∧
      (∃ t, exec (.fst a addr) s = .next t ∧ Rejected .badDescriptor s t))

/-- R142 to R146, R150 to R152: the moves, the constants, PSET, PGETX, PGETY, PLD and PST; PST checks the range first, then INF, and not the curve equation (log 25). -/
def Obligations.PointMovesAndLoadsWriteTheirPoint : Prop :=
  ∀ (d a : Fin 4) (g x y : Fin 16) (addr : Imm16) (s : State),
    (∃ t, exec (.pmov d a) s = .next t ∧ Completed .success t ∧ t.readP d = s.readP a ∧
      t.status.inf = (s.readP a).inf) ∧
    (∃ t, exec (.pbase d) s = .next t ∧ Completed .success t ∧ (t.readP d).inf = false ∧
      (t.readP d).x.toNat = baseX ∧ (t.readP d).y.toNat = baseY ∧ t.status.inf = false) ∧
    (∃ t, exec (.pinf d) s = .next t ∧ Completed .success t ∧
      t.readP d = { inf := true, x := 0, y := 0 } ∧ t.status.inf = true) ∧
    (∃ t, exec (.pset d x y) s = .next t ∧ Completed .success t ∧
      t.readP d = { inf := false, x := s.readF x, y := s.readF y } ∧ t.status.inf = false) ∧
    (∃ t, exec (.pgetx g a) s = .next t ∧ Completed .success t ∧ t.readF g = (s.readP a).x ∧
      (t.status.z = true ↔ (s.readP a).x = 0)) ∧
    (∃ t, exec (.pgety g a) s = .next t ∧ Completed .success t ∧ t.readF g = (s.readP a).y ∧
      (t.status.z = true ↔ (s.readP a).y = 0)) ∧
    (InBuf addr.toNat 64 →
      ∃ t, exec (.pld d addr) s = .next t ∧ Completed .success t ∧ (t.readP d).inf = false ∧
        (t.readP d).x.toNat = beAt s addr.toNat ∧ (t.readP d).y.toNat = beAt s (addr.toNat + 32) ∧
        t.status.inf = false) ∧
    (¬ InBuf addr.toNat 64 →
      (∃ t, exec (.pld d addr) s = .next t ∧ Rejected .badDescriptor s t) ∧
      (∃ t, exec (.pst a addr) s = .next t ∧ Rejected .badDescriptor s t)) ∧
    (InBuf addr.toNat 64 → (s.readP a).inf = true →
      ∃ t, exec (.pst a addr) s = .next t ∧ Rejected .invalidPubkey s t) ∧
    (InBuf addr.toNat 64 → (s.readP a).inf = false → s.buf.wf = true →
      ∃ t, exec (.pst a addr) s = .next t ∧ Completed .success t ∧
        beAt t addr.toNat = (s.readP a).x.toNat ∧ beAt t (addr.toNat + 32) = (s.readP a).y.toNat ∧
        KeptOutside addr.toNat 64 s t)

/-- R140, R147: PVALID's V is ValidPub, the equation and the ranges on the stored values; V and INF are all it writes. -/
def Obligations.PointValidationAnswersInTheVFlag : Prop :=
  ∀ (a : Fin 4) (s : State), ∃ t, exec (.pvalid a) s = .next t ∧ Completed .success t ∧
    (t.status.v = true ↔ Valid (s.readP a)) ∧ t.status.inf = (s.readP a).inf ∧
    SameData s { t with status := { t.status with v := s.status.v, inf := s.status.inf } }

/-- R148, R149, R153, R13: PADD, PDBL and SMUL on curve operands write the group law's point (curveAdd, which GroupLawStaysOnTheCurve pins to R13's formulas) and INF; off-curve operands are rejected, whatever the scalar is. -/
def Obligations.PointAdditionDoublingAndMultiplicationOnCurve : Prop :=
  ∀ (d a b : Fin 4) (k : Fin 16) (s : State),
    (OnTheCurve (s.readP a) → OnTheCurve (s.readP b) →
      ∃ t, exec (.padd d a b) s = .next t ∧ Completed .success t ∧
        t.readP d = Point.ofCurve (curveAdd (s.readP a).toCurve (s.readP b).toCurve) ∧
        t.status.inf = (t.readP d).inf) ∧
    (¬ (OnTheCurve (s.readP a) ∧ OnTheCurve (s.readP b)) →
      ∃ t, exec (.padd d a b) s = .next t ∧ Rejected .invalidPubkey s t) ∧
    (OnTheCurve (s.readP a) →
      ∃ t, exec (.pdbl d a) s = .next t ∧ Completed .success t ∧
        t.readP d = Point.ofCurve (curveAdd (s.readP a).toCurve (s.readP a).toCurve) ∧
        t.status.inf = (t.readP d).inf) ∧
    (¬ OnTheCurve (s.readP a) → ∃ t, exec (.pdbl d a) s = .next t ∧ Rejected .invalidPubkey s t) ∧
    (OnTheCurve (s.readP b) →
      ∃ t, exec (.smul d k b) s = .next t ∧ Completed .success t ∧
        t.readP d = Point.ofCurve (smul (s.readF k).toNat (s.readP b).toCurve) ∧
        t.status.inf = (t.readP d).inf ∧
        (s.readF k = 0 ∨ (s.readP b).inf = true → t.readP d = { inf := true, x := 0, y := 0 })) ∧
    (¬ OnTheCurve (s.readP b) → ∃ t, exec (.smul d k b) s = .next t ∧ Rejected .invalidPubkey s t)

/-- R13, R140: the sum of two affine points of the curve is INF where R13 says so, else the pair that R13's formulas for lam, x3 and y3 give; it is a point of the curve with reduced coordinates; INF is neutral and a point plus its negative is INF. -/
def Obligations.GroupLawStaysOnTheCurve : Prop :=
  (∀ Q R : Point, OnTheCurve Q → OnTheCurve R →
    OnTheCurve (Point.ofCurve (curveAdd Q.toCurve R.toCurve)) ∧
    (Point.ofCurve (curveAdd Q.toCurve R.toCurve)).toCurve = curveAdd Q.toCurve R.toCurve) ∧
  (∀ Q R : Point, Valid Q → Valid R →
    let same := Q.x = R.x ∧ (Q.y.toNat + R.y.toNat) % primeP = 0
    (same → curveAdd Q.toCurve R.toCurve = .inf) ∧
    (¬ same → ∃ x3 y3, curveAdd Q.toCurve R.toCurve = .affine x3 y3 ∧
      IsAffineSum Q.x.toNat Q.y.toNat R.x.toNat R.y.toNat x3 y3)) ∧
  (∀ P : CurvePoint, curveAdd .inf P = P ∧ curveAdd P .inf = P) ∧
  (∀ x y : Nat, y ≤ primeP → curveAdd (.affine x y) (.affine x (primeP - y)) = .inf)

/-- R13, R153: on points of the curve the scalar multiplier's doubling and adding gives R13's k-fold sum, for every 256-bit k (log 10). -/
def Obligations.ScalarMultiplierIsTheIteratedSum : Prop :=
  ∀ (Q : Point) (k : Nat), OnTheCurve Q → k < 2 ^ 256 → smul k Q.toCurve = smulSpec k Q.toCurve

/-- R171, R174, R75: the checks, the request (32, 32), the failure, the redraw on 0 and the results of ECDH_KEYGEN. -/
def Obligations.EcdhKeygenChecksThenAsksThenWrites : Prop :=
  ∀ s : State,
    let inside := InBuf (argNat s 0) (argNat s 1) ∧ InBuf (argNat s 2) (argNat s 3)
    let room := 32 ≤ argNat s 1 ∧ 64 ≤ argNat s 3
    (¬ inside → ∃ t, exec .ecdhKeygen s = .next t ∧ Rejected .badDescriptor s t) ∧
    (inside → ¬ room → ∃ t, exec .ecdhKeygen s = .next t ∧ Rejected .memoryFail s t) ∧
    (inside → room → s.engine.entRsp = none →
      ∃ t, exec .ecdhKeygen s = .next t ∧ StillRunning s t ∧ t.engine.entReq = some { min := 32, max := 32 }) ∧
    (∀ ans, inside → room → s.engine.entRsp = some ans → ¬ (ans.status = 0 ∧ ans.count.toNat = 32) →
      ∃ t, exec .ecdhKeygen s = .next t ∧ Rejected .entropyFail s t) ∧
    (∀ ans, inside → room → s.engine.entRsp = some ans → ans.status = 0 → ans.count.toNat = 32 →
      (beNat ans.bytes = 0 ∨ beNat ans.bytes = orderN) →
      ∃ t, exec .ecdhKeygen s = .next t ∧ StillRunning s t ∧ t.engine.entRsp = none ∧
        t.engine.entReq = some { min := 32, max := 32 }) ∧
    (∀ ans, inside → room → s.buf.wf = true → s.engine.entRsp = some ans → ans.status = 0 → ans.count.toNat = 32 →
      beNat ans.bytes ≠ 0 → beNat ans.bytes ≠ orderN →
      ∃ t, exec .ecdhKeygen s = .next t ∧ Completed .success t ∧
        let k := beNat ans.bytes % orderN
        let Q := Point.ofCurve (smul k basePoint)
        (argNat s 0 + 32 ≤ argNat s 2 ∨ argNat s 2 + 64 ≤ argNat s 0 → beAt t (argNat s 0) = k) ∧
        beAt t (argNat s 2) = Q.x.toNat ∧ beAt t (argNat s 2 + 32) = Q.y.toNat ∧
        t.rlen0 = 32 ∧ t.rlen1 = 64)

/-- R172, R282: the rejections of ECDH_SECRET in their order of precedence, and with valid keys and room the x-coordinate of k*Q, big-endian. -/
def Obligations.EcdhSecretChecksThenWritesTheSharedCoordinate : Prop :=
  ∀ s : State,
    let inside := InBuf (argNat s 0) (argNat s 1) ∧ InBuf (argNat s 2) (argNat s 3) ∧ InBuf (argNat s 4) (argNat s 5)
    let k := beAt s (argNat s 0)
    let privOk := argNat s 1 = 32 ∧ 1 ≤ k ∧ k < orderN
    let Q : Point := { inf := false, x := BitVec.ofNat 256 (beAt s (argNat s 2)),
                       y := BitVec.ofNat 256 (beAt s (argNat s 2 + 32)) }
    let pubOk := argNat s 3 = 64 ∧ Valid Q
    (¬ inside → ∃ t, exec .ecdhSecret s = .next t ∧ Rejected .badDescriptor s t) ∧
    (inside → argNat s 5 < 32 → ∃ t, exec .ecdhSecret s = .next t ∧ Rejected .memoryFail s t) ∧
    (inside → 32 ≤ argNat s 5 → ¬ privOk → ∃ t, exec .ecdhSecret s = .next t ∧ Rejected .invalidPrivkey s t) ∧
    (inside → 32 ≤ argNat s 5 → privOk → ¬ pubOk →
      ∃ t, exec .ecdhSecret s = .next t ∧ Rejected .invalidPubkey s t) ∧
    (∀ x y, inside → 32 ≤ argNat s 5 → privOk → pubOk → smul k Q.toCurve = .affine x y → s.buf.wf = true →
      ∃ t, exec .ecdhSecret s = .next t ∧ Completed .success t ∧
        beAt t (argNat s 4) = x ∧ KeptOutside (argNat s 4) 32 s t ∧ t.rlen0 = 32 ∧ t.rlen1 = s.rlen1)

/-- R173: for private keys kA, kB in [1, n-1] and the matching public keys, both sides succeed and write the same 32 bytes. -/
def Obligations.EcdhSecretsOfTwoPartiesAgree : Prop :=
  ∀ (sA sB : State) (kA kB : Nat),
    1 ≤ kA → kA < orderN → 1 ≤ kB → kB < orderN →
    (∀ s : State, s = sA ∨ s = sB → s.buf.wf = true ∧
      InBuf (argNat s 0) (argNat s 1) ∧ InBuf (argNat s 2) (argNat s 3) ∧ InBuf (argNat s 4) (argNat s 5) ∧
      argNat s 1 = 32 ∧ argNat s 3 = 64 ∧ 32 ≤ argNat s 5) →
    beAt sA (argNat sA 0) = kA → beAt sB (argNat sB 0) = kB →
    smulSpec kB basePoint = .affine (beAt sA (argNat sA 2)) (beAt sA (argNat sA 2 + 32)) →
    smulSpec kA basePoint = .affine (beAt sB (argNat sB 2)) (beAt sB (argNat sB 2 + 32)) →
    ∃ tA tB, exec .ecdhSecret sA = .next tA ∧ exec .ecdhSecret sB = .next tB ∧
      Completed .success tA ∧ Completed .success tB ∧
      memRead tA (argNat sA 4) 32 = memRead tB (argNat sB 4) 32

/-- R191, R192, R193: the 12-bit encoding byte by byte, reduced on load, and the copy. -/
def Obligations.RingLoadStoreAndMove : Prop :=
  ∀ (d a : Fin 8) (addr : Imm16) (s : State),
    (∃ t, exec (.rmov d a) s = .next t ∧ Completed .success t ∧ t.readR d = s.readR a) ∧
    (InBuf addr.toNat 384 →
      ∃ t, exec (.rld d addr) s = .next t ∧ Completed .success t ∧
        ∀ i, i < 128 →
          let B := fun k => byteAt s (addr.toNat + 3 * i + k)
          coeff (t.readR d) (2 * i) = (B 0 + 256 * (B 1 % 16)) % 3329 ∧
          coeff (t.readR d) (2 * i + 1) = (B 1 / 16 + 16 * B 2) % 3329) ∧
    (InBuf addr.toNat 384 → s.buf.wf = true →
      ∃ t, exec (.rst a addr) s = .next t ∧ Completed .success t ∧ KeptOutside addr.toNat 384 s t ∧
        ∀ i, i < 128 →
          let c0 := coeff (s.readR a) (2 * i)
          let c1 := coeff (s.readR a) (2 * i + 1)
          byteAt t (addr.toNat + 3 * i) = c0 % 256 ∧
          byteAt t (addr.toNat + 3 * i + 1) = c0 / 256 + 16 * (c1 % 16) ∧
          byteAt t (addr.toNat + 3 * i + 2) = c1 / 16) ∧
    (¬ InBuf addr.toNat 384 →
      (∃ t, exec (.rld d addr) s = .next t ∧ Rejected .badDescriptor s t) ∧
      (∃ t, exec (.rst a addr) s = .next t ∧ Rejected .badDescriptor s t)) ∧
    (InBuf addr.toNat 384 → s.buf.wf = true → ∀ t, exec (.rst a addr) s = .next t →
      ∃ u, exec (.rld d addr) t = .next u ∧ u.readR d = s.readR a)

/-- R194, R195, R205: RADD and RSUB. -/
def Obligations.RingSumAndDifferenceLaneByLane : Prop :=
  ∀ (d a b : Fin 8) (s : State),
    (∃ t, exec (.radd d a b) s = .next t ∧ Completed .success t ∧
      ∀ j, j < 256 → coeff (t.readR d) j = (coeff (s.readR a) j + coeff (s.readR b) j) % 3329) ∧
    (∃ t, exec (.rsub d a b) s = .next t ∧ Completed .success t ∧
      ∀ j, j < 256 → (coeff (t.readR d) j : Int) = ((coeff (s.readR a) j : Int) - coeff (s.readR b) j) % 3329)

/-- R197: the closed form of the forward transform; the pair (2i, 2i+1) is the polynomial modulo X^2 - GAMMAS[i]. -/
def Obligations.NttIsReductionModuloTheQuadraticFactors : Prop :=
  ∀ (d a : Fin 8) (s : State), ∃ t, exec (.ntt d a) s = .next t ∧ Completed .success t ∧
    ∀ i, i < 128 →
      coeff (t.readR d) (2 * i) = (∑ j ∈ Finset.range 128, coeff (s.readR a) (2 * j) * gamma i ^ j) % 3329 ∧
      coeff (t.readR d) (2 * i + 1) = (∑ j ∈ Finset.range 128, coeff (s.readR a) (2 * j + 1) * gamma i ^ j) % 3329

/-- R198: INTT after NTT and NTT after INTT are both the identity on every register value. -/
def Obligations.InverseTransformUndoesTheTransform : Prop :=
  ∀ (d a : Fin 8) (s : State),
    (∃ t u, exec (.ntt d a) s = .next t ∧ exec (.intt d d) t = .next u ∧ Completed .success u ∧ u.readR d = s.readR a) ∧
    (∃ t u, exec (.intt d a) s = .next t ∧ exec (.ntt d d) t = .next u ∧ Completed .success u ∧ u.readR d = s.readR a)

/-- R199: PWMUL on each pair, and its commutativity. -/
def Obligations.PairwiseProductModuloTheQuadraticFactors : Prop :=
  ∀ (d a b : Fin 8) (s : State), ∃ t, exec (.pwmul d a b) s = .next t ∧ Completed .success t ∧
    (∀ i, i < 128 →
      let a0 := coeff (s.readR a) (2 * i)
      let a1 := coeff (s.readR a) (2 * i + 1)
      let b0 := coeff (s.readR b) (2 * i)
      let b1 := coeff (s.readR b) (2 * i + 1)
      coeff (t.readR d) (2 * i) = (a0 * b0 + a1 * b1 * gamma i) % 3329 ∧
      coeff (t.readR d) (2 * i + 1) = (a0 * b1 + a1 * b0) % 3329) ∧
    exec (.pwmul d b a) s = .next t

/-- R200: POLYMUL by the transforms equals the product in Z_q[X]/(X^256 + 1). -/
def Obligations.PolynomialProductIsTheNegacyclicConvolution : Prop :=
  ∀ (d a b : Fin 8) (s : State), ∃ t, exec (.polymul d a b) s = .next t ∧ Completed .success t ∧
    ∀ k, k < 256 →
      (coeff (t.readR d) k : Int) =
        ((∑ i ∈ Finset.range 256, ∑ j ∈ Finset.range 256,
          if i + j = k then (coeff (s.readR a) i : Int) * coeff (s.readR b) j
          else if i + j = k + 256 then -((coeff (s.readR a) i : Int) * coeff (s.readR b) j) else 0)) % 3329

/-- R201, R16: CBD is the number of ones among eta bits minus that among the next eta bits, modulo q. -/
def Obligations.NoiseSamplerCountsBits : Prop :=
  ∀ (d : Fin 8) (eta : Fin 16) (addr : Imm16) (s : State), eta = 2 ∨ eta = 3 →
    (InBuf addr.toNat (64 * eta.val) →
      ∃ t, exec (.cbd d eta addr) s = .next t ∧ Completed .success t ∧
        ∀ i, i < 256 →
          let B := memRead s addr.toNat (64 * eta.val)
          (coeff (t.readR d) i : Int) =
            ((∑ j ∈ Finset.range eta.val, (byteBit B (2 * i * eta.val + j) : Int)) -
              ∑ j ∈ Finset.range eta.val, (byteBit B (2 * i * eta.val + eta.val + j) : Int)) % 3329) ∧
    (¬ InBuf addr.toNat (64 * eta.val) → ∃ t, exec (.cbd d eta addr) s = .next t ∧ Rejected .badDescriptor s t)

/-- R203, R204, R16: RCOMP packs Compress(c, d), RDECOMP unpacks and applies Decompress, d in 1, 4, 5, 10, 11. -/
def Obligations.CompressorAndDecompressorByTheirFormulas : Prop :=
  ∀ (r : Fin 8) (d : Fin 16) (addr : Imm16) (s : State), d = 1 ∨ d = 4 ∨ d = 5 ∨ d = 10 ∨ d = 11 →
    (InBuf addr.toNat (32 * d.val) → s.buf.wf = true →
      ∃ t, exec (.rcomp r d addr) s = .next t ∧ Completed .success t ∧ KeptOutside addr.toNat (32 * d.val) s t ∧
        ∀ i j, i < 256 → j < d.val →
          byteBit (memRead t addr.toNat (32 * d.val)) (i * d.val + j) =
            (coeff (s.readR r) i * 2 ^ d.val + 1664) / 3329 % 2 ^ d.val / 2 ^ j % 2) ∧
    (InBuf addr.toNat (32 * d.val) →
      ∃ t, exec (.rdecomp r d addr) s = .next t ∧ Completed .success t ∧
        ∀ i, i < 256 →
          let y := ∑ j ∈ Finset.range d.val, byteBit (memRead s addr.toNat (32 * d.val)) (i * d.val + j) * 2 ^ j
          coeff (t.readR r) i = (y * 3329 + 2 ^ (d.val - 1)) / 2 ^ d.val) ∧
    (¬ InBuf addr.toNat (32 * d.val) →
      (∃ t, exec (.rcomp r d addr) s = .next t ∧ Rejected .badDescriptor s t) ∧
      (∃ t, exec (.rdecomp r d addr) s = .next t ∧ Rejected .badDescriptor s t)) ∧
    (InBuf addr.toNat (32 * d.val) → s.buf.wf = true → ∀ t, exec (.rdecomp r d addr) s = .next t →
      ∃ u, exec (.rcomp r d addr) t = .next u ∧ Completed .success u ∧ u.buf = s.buf)

/-- R202, R327: SAMPLEU for whatever symmetric unit: it writes the polynomial of the first 256 candidates of R16, or stays BUSY having written nothing. How much of the stream one move looks at is the model's choice (log 5); the command itself uses Config.sym (log 6). -/
def Obligations.UniformSamplerWritesTheParsedPolynomial : Prop :=
  ∀ (d : Fin 8) (a b : Fin 4) (addr : Imm16) (s : State),
    (InBuf addr.toNat 32 → ∃ t, exec (.sampleu d a b addr) s = .next t ∧
      SampleEffect Config.sym d (BitVec.ofNat 8 a.val) (BitVec.ofNat 8 b.val) addr.toNat s t) ∧
    (∀ sym : Sym, InBuf addr.toNat 32 → ∃ t, sampleuWith sym d a b addr s = .next t ∧
      SampleEffect sym d (BitVec.ofNat 8 a.val) (BitVec.ofNat 8 b.val) addr.toNat s t) ∧
    (¬ InBuf addr.toNat 32 → ∃ t, exec (.sampleu d a b addr) s = .next t ∧ Rejected .badDescriptor s t)

/-- R327: after k core moves a SAMPLEU has completed with the first 256 candidates of R16 if Parse ends within the budget of k moves (log 5), else it is BUSY and has written nothing. -/
def Obligations.UniformSamplerRunsUntilParseEnds : Prop :=
  ∀ (d : Fin 8) (a b : Fin 4) (addr : Imm16) (s : State) (k : Nat),
    s.agenda = [] → s.status.busy = true → s.engine.entReq = none → decode s.cmd = .ok (.sampleu d a b addr) →
    InBuf addr.toNat 32 →
    let stream := Config.sym.xof (memRead s addr.toNat 32) (BitVec.ofNat 8 a.val) (BitVec.ofNat 8 b.val)
    let budget := Config.parseChunk * (s.engine.parseRound + k + 1)
    ∃ t, coreMoves (k + 1) s = .next t ∧
      (¬ Unparsed budget stream → Completed .success t ∧ Parsed budget stream (t.readR d)) ∧
      (Unparsed budget stream → StillRunning s t)

/-- R231: KYB_INIT with 512, 768 or 1024 sets STRENGTH and nothing else; any other value is INVALID_STRENGTH and leaves it. -/
def Obligations.KyberInitSelectsTheStrength : Prop :=
  ∀ (x : Imm16) (s : State),
    (x.toNat = 512 ∨ x.toNat = 768 ∨ x.toNat = 1024 →
      ∃ t, exec (.kybInit x) s = .next t ∧ Completed .success t ∧ t.strength.word.toNat = x.toNat ∧
        SameData s { t with strength := s.strength }) ∧
    (¬ (x.toNat = 512 ∨ x.toNat = 768 ∨ x.toNat = 1024) →
      ∃ t, exec (.kybInit x) s = .next t ∧ Rejected .invalidStrength s t)

/-- R230, R235, R76: the rejections of KYB_KEYGEN in their order, and its entropy request. -/
def Obligations.KyberKeygenChecksInTheFixedOrder : Prop :=
  ∀ s : State,
    let inside := InBuf (argNat s 0) (argNat s 1) ∧ InBuf (argNat s 2) (argNat s 3)
    let room := s.strength.privBytes ≤ argNat s 1 ∧ s.strength.pubBytes ≤ argNat s 3
    (s.strength = .unset → ∃ t, exec .kybKeygen s = .next t ∧ Rejected .invalidStrength s t) ∧
    (s.strength ≠ .unset → ¬ inside → ∃ t, exec .kybKeygen s = .next t ∧ Rejected .badDescriptor s t) ∧
    (s.strength ≠ .unset → inside → ¬ room → ∃ t, exec .kybKeygen s = .next t ∧ Rejected .memoryFail s t) ∧
    (s.strength ≠ .unset → inside → room → s.engine.entRsp = none →
      ∃ t, exec .kybKeygen s = .next t ∧ StillRunning s t ∧
        t.engine.entReq = some { min := s.strength.minEntropy, max := s.strength.maxEntropy }) ∧
    (∀ ans, s.strength ≠ .unset → inside → room → s.engine.entRsp = some ans →
      ¬ (ans.status = 0 ∧ s.strength.minEntropy.toNat ≤ ans.count.toNat ∧
        ans.count.toNat ≤ s.strength.maxEntropy.toNat) →
      ∃ t, exec .kybKeygen s = .next t ∧ Rejected .entropyFail s t)

/-- R235, R80: with every check passed and a good answer, the keys of the generator are written, the public key last, with their lengths in RLEN; so for the block's own symmetric unit (log 6) and for any other. How long it goes on while a Parse has not ended is the model's choice (log 5). -/
def Obligations.KyberKeygenWritesBothKeys : Prop :=
  ∀ (s : State) (ans : EntropyAnswer), s.buf.wf = true → s.strength ≠ .unset →
    InBuf (argNat s 0) (argNat s 1) → InBuf (argNat s 2) (argNat s 3) →
    s.strength.privBytes ≤ argNat s 1 → s.strength.pubBytes ≤ argNat s 3 →
    s.engine.entRsp = some ans → ans.status = 0 → s.strength.minEntropy.toNat ≤ ans.count.toNat →
    ans.count.toNat ≤ s.strength.maxEntropy.toNat →
    (∃ t, exec .kybKeygen s = .next t ∧ KeygenEffect Config.sym ans s t) ∧
    (∀ sym : Sym, ∃ t, kybKeygenWith sym s = .next t ∧ KeygenEffect sym ans s t)

/-- R232, R235, R238: the private key is Encode_12 of the secret vector, the public key, H(pk) and z; the public key is Encode_12 of A*s + e and rho; both have the lengths of R15. No key pair comes out exactly when a Parse of the matrix has not ended within the budget (log 5). -/
def Obligations.KyberKeyPairHasTheSpecsLayout : Prop :=
  (∀ (sym : Sym) (fuel : Nat) (x : Strength) (E : Bytes),
    kemKeyGen sym fuel x E = none ↔ ∃ i j, i < x.rank ∧ j < x.rank ∧
      Unparsed fuel (matrixStream sym (slice (sym.hash2 (slice E 0 32)).toList 0 32) i j)) ∧
  (∀ (sym : Sym) (fuel : Nat) (x : Strength) (E sk pk : Bytes), x ≠ .unset → 64 ≤ E.length →
    kemKeyGen sym fuel x E = some (sk, pk) →
    IsKeyPair sym fuel x (slice E 0 32) pk (slice sk 0 (384 * x.rank)) ∧
    sk.length = x.privBytes ∧ pk.length = x.pubBytes ∧
    slice sk (384 * x.rank) (768 * x.rank + 32) = pk ∧
    slice sk (768 * x.rank + 32) (768 * x.rank + 64) = (sym.hash pk).toList ∧
    slice sk (768 * x.rank + 64) (768 * x.rank + 96) = slice E 32 64)

/-- R230, R236, R76, C2: the rejections of KYB_ENCAPS in their order: capacity before key length, both before entropy. -/
def Obligations.KyberEncapsChecksInTheFixedOrder : Prop :=
  ∀ s : State,
    let inside := InBuf (argNat s 0) (argNat s 1) ∧ InBuf (argNat s 2) (argNat s 3) ∧ InBuf (argNat s 4) (argNat s 5)
    let room := s.strength.secretBytes ≤ argNat s 3 ∧ s.strength.ctBytes ≤ argNat s 5
    (s.strength = .unset → ∃ t, exec .kybEncaps s = .next t ∧ Rejected .invalidStrength s t) ∧
    (s.strength ≠ .unset → ¬ inside → ∃ t, exec .kybEncaps s = .next t ∧ Rejected .badDescriptor s t) ∧
    (s.strength ≠ .unset → inside → ¬ room → ∃ t, exec .kybEncaps s = .next t ∧ Rejected .memoryFail s t) ∧
    (s.strength ≠ .unset → inside → room → argNat s 1 ≠ s.strength.pubBytes →
      ∃ t, exec .kybEncaps s = .next t ∧ Rejected .invalidPubkey s t) ∧
    (s.strength ≠ .unset → inside → room → argNat s 1 = s.strength.pubBytes → s.engine.entRsp = none →
      ∃ t, exec .kybEncaps s = .next t ∧ StillRunning s t ∧
        t.engine.entReq = some { min := s.strength.minEntropy, max := s.strength.maxEntropy }) ∧
    (∀ ans, s.strength ≠ .unset → inside → room → argNat s 1 = s.strength.pubBytes → s.engine.entRsp = some ans →
      ¬ (ans.status = 0 ∧ s.strength.minEntropy.toNat ≤ ans.count.toNat ∧
        ans.count.toNat ≤ s.strength.maxEntropy.toNat) →
      ∃ t, exec .kybEncaps s = .next t ∧ Rejected .entropyFail s t)

/-- R236, R80: with every check passed and a good answer, the secret and the ciphertext are written, the ciphertext last; so for the block's own symmetric unit (log 6) and for any other. How long it goes on while a Parse has not ended is the model's choice (log 5). -/
def Obligations.KyberEncapsWritesSecretAndCiphertext : Prop :=
  ∀ (s : State) (ans : EntropyAnswer), s.buf.wf = true → s.strength ≠ .unset →
    InBuf (argNat s 0) (argNat s 1) → InBuf (argNat s 2) (argNat s 3) → InBuf (argNat s 4) (argNat s 5) →
    s.strength.secretBytes ≤ argNat s 3 → s.strength.ctBytes ≤ argNat s 5 → argNat s 1 = s.strength.pubBytes →
    s.engine.entRsp = some ans → ans.status = 0 → s.strength.minEntropy.toNat ≤ ans.count.toNat →
    ans.count.toNat ≤ s.strength.maxEntropy.toNat →
    (∃ t, exec .kybEncaps s = .next t ∧ EncapsEffect Config.sym ans s t) ∧
    (∀ sym : Sym, ∃ t, kybEncapsWith sym s = .next t ∧ EncapsEffect sym ans s t)

/-- R230, R237, R288: the rejections of KYB_DECAPS in their order; with the right lengths it ends only with SUCCESS and a 32-byte secret, whatever the bytes are; so for the block's own symmetric unit (log 6) and for any other. How long it goes on while a Parse has not ended is the model's choice (log 5). -/
def Obligations.KyberDecapsRejectsByLengthsOnly : Prop :=
  ∀ s : State,
    let inside := InBuf (argNat s 0) (argNat s 1) ∧ InBuf (argNat s 2) (argNat s 3) ∧ InBuf (argNat s 4) (argNat s 5)
    (s.strength = .unset → ∃ t, exec .kybDecaps s = .next t ∧ Rejected .invalidStrength s t) ∧
    (s.strength ≠ .unset → ¬ inside → ∃ t, exec .kybDecaps s = .next t ∧ Rejected .badDescriptor s t) ∧
    (s.strength ≠ .unset → inside → argNat s 5 < s.strength.secretBytes →
      ∃ t, exec .kybDecaps s = .next t ∧ Rejected .memoryFail s t) ∧
    (s.strength ≠ .unset → inside → s.strength.secretBytes ≤ argNat s 5 → argNat s 1 ≠ s.strength.privBytes →
      ∃ t, exec .kybDecaps s = .next t ∧ Rejected .invalidPrivkey s t) ∧
    (s.strength ≠ .unset → inside → s.strength.secretBytes ≤ argNat s 5 → argNat s 1 = s.strength.privBytes →
      argNat s 3 ≠ s.strength.ctBytes → ∃ t, exec .kybDecaps s = .next t ∧ Rejected .invalidCiphertext s t) ∧
    (s.strength ≠ .unset → inside → s.strength.secretBytes ≤ argNat s 5 → argNat s 1 = s.strength.privBytes →
      argNat s 3 = s.strength.ctBytes → s.buf.wf = true →
      (∃ t, exec .kybDecaps s = .next t ∧ DecapsEffect Config.sym s t) ∧
      (∀ sym : Sym, ∃ t, kybDecapsWith sym s = .next t ∧ DecapsEffect sym s t))

/-- R239, R237: the round trip conditional on K-PKE decryption returning the encapsulated message, and the noise bound that makes it do so; a ciphertext that does not re-encrypt gives KDF(z || H(c)). For every symmetric unit. -/
def Obligations.KyberRoundTripAndImplicitRejection : Prop :=
  (∀ (sym : Sym) (f1 f2 : Nat) (x : Strength) (E1 E2 sk pk K c : Bytes), x ≠ .unset → 64 ≤ E1.length →
    kemKeyGen sym f1 x E1 = some (sk, pk) → kemEncaps sym f2 x pk E2 = some (K, c) →
    kpkeDec x (slice sk 0 (384 * x.rank)) c = (sym.hash (slice E2 0 32)).toList →
    kemDecaps sym f2 x sk c = some K) ∧
  (∀ (x : Strength) (sk0 c m : Bytes), m.length = 32 →
    (∀ j, j < 256 → ∃ e : Int, -831 ≤ e ∧ e ≤ 831 ∧
      (coeff (kpkeNoisyMessage x sk0 c) j : Int) = (1665 * byteBit m j + e) % 3329) →
    kpkeDec x sk0 c = m) ∧
  (∀ (sym : Sym) (fuel : Nat) (x : Strength) (sk c c' : Bytes), x ≠ .unset → sk.length = x.privBytes →
    kpkeEnc sym fuel x (slice sk (384 * x.rank) (768 * x.rank + 32))
      (kpkeDec x (slice sk 0 (384 * x.rank)) c)
      (slice (sym.hash2 (kpkeDec x (slice sk 0 (384 * x.rank)) c ++
        slice sk (768 * x.rank + 32) (768 * x.rank + 64))).toList 32 64) = some c' →
    c' ≠ c →
    kemDecaps sym fuel x sk c = some (sym.kdf (sk.drop (x.privBytes - 32) ++ (sym.hash c).toList)).toList)

/-- R233, R234, R236, R237, R238: the ciphertext of K-PKE by its vectors, its decryption, and the secrets of encapsulation and decapsulation from them, over the parameters of R15. No ciphertext comes out exactly when a Parse of the matrix has not ended within the budget (log 5). -/
def Obligations.KyberEncryptionAndEncapsulationByTheirFormulas : Prop :=
  ([Strength.s512, .s768, .s1024].map fun x => [x.rank, x.eta1, x.eta2, x.du, x.dv]) =
    [[2, 3, 2, 10, 4], [3, 2, 2, 10, 4], [4, 2, 2, 11, 5]] ∧
  (∀ (sym : Sym) (fuel : Nat) (x : Strength) (pk m r : Bytes), x ≠ .unset →
    (∀ c, kpkeEnc sym fuel x pk m r = some c → IsCiphertext sym fuel x pk m r c) ∧
    (kpkeEnc sym fuel x pk m r = none ↔ ∃ i j, i < x.rank ∧ j < x.rank ∧
      Unparsed fuel (matrixStream sym (slice pk (384 * x.rank) (384 * x.rank + 32)) i j))) ∧
  (∀ (x : Strength) (sk0 c : Bytes), x ≠ .unset →
    IsNoisyMessage x sk0 c (kpkeNoisyMessage x sk0 c) ∧ (kpkeDec x sk0 c).length = 32 ∧
    ∀ j, j < 256 → (byteBit (kpkeDec x sk0 c) j = 1 ↔
      833 ≤ coeff (kpkeNoisyMessage x sk0 c) j ∧ coeff (kpkeNoisyMessage x sk0 c) j ≤ 2496)) ∧
  (∀ (sym : Sym) (fuel : Nat) (x : Strength) (pk E K c : Bytes), x ≠ .unset →
    let m := (sym.hash (slice E 0 32)).toList
    let g := (sym.hash2 (m ++ (sym.hash pk).toList)).toList
    (kemEncaps sym fuel x pk E = some (K, c) ↔
      kpkeEnc sym fuel x pk m (slice g 32 64) = some c ∧ K = (sym.kdf (slice g 0 32 ++ (sym.hash c).toList)).toList)) ∧
  (∀ (sym : Sym) (fuel : Nat) (x : Strength) (sk c K : Bytes), x ≠ .unset →
    let pk := slice sk (384 * x.rank) (768 * x.rank + 32)
    let h := slice sk (768 * x.rank + 32) (768 * x.rank + 64)
    let z := slice sk (768 * x.rank + 64) (768 * x.rank + 96)
    let m := kpkeDec x (slice sk 0 (384 * x.rank)) c
    let g := (sym.hash2 (m ++ h)).toList
    (kemDecaps sym fuel x sk c = some K ↔ ∃ c', kpkeEnc sym fuel x pk m (slice g 32 64) = some c' ∧
      K = (sym.kdf ((if c' = c then slice g 0 32 else z) ++ (sym.hash c).toList)).toList))
end

