-- ==== Sys2Proof/Laws/Arith.lean ====
section
/-! SUPPORT. Modular arithmetic: powers by squaring, residues, the Montgomery radix; and the primality of p and n (R11), by the
criterion of Lucas on the factors of p - 1 and n - 1. -/

namespace Sys2Proof.Machine

/-! ### Residues (R7) -/

/-- The residue, as an integer. -/
theorem modInt_cast (e : Int) {m : Nat} (hm : 0 < m) : (modInt e m : Int) = e % m := by
  rw [modInt, Int.toNat_of_nonneg (Int.emod_nonneg _ (by omega))]

/-- The residue is below the modulus. -/
theorem modInt_lt (e : Int) {m : Nat} (hm : 0 < m) : modInt e m < m := by
  have h1 := modInt_cast e hm
  have h2 := Int.emod_lt_of_pos e (show (0 : Int) < m by omega)
  omega

/-! ### Powers by squaring -/

/-- `powMod` computes the power, for exponents that fit. -/
theorem powMod_eq (m base : Nat) : ∀ (bits e : Nat), e < 2 ^ bits → powMod m base bits e = base ^ e % m := by
  intro bits
  induction bits with
  | zero => intro e h; rw [show e = 0 by simpa using h]; simp [powMod]
  | succ bits ih =>
    intro e h
    have h2 : e / 2 < 2 ^ bits := by rw [pow_succ] at h; omega
    rw [powMod, ih _ h2]
    rcases Nat.mod_two_eq_zero_or_one e with he | he
    · conv_rhs => rw [show e = e / 2 + e / 2 by omega, pow_add, Nat.mul_mod]
      simp [powStep, he]
    · conv_rhs => rw [show e = e / 2 + e / 2 + 1 by omega, pow_succ, pow_add, Nat.mul_mod, Nat.mul_mod (base ^ (e / 2))]
      simp [powStep, he, Nat.mul_mod]

/-- The inverse unit computes x^(p-2) (R116; log 11). -/
theorem invModP_eq (x : Nat) : invModP x = x ^ (primeP - 2) % primeP :=
  powMod_eq _ _ _ _ (by decide +kernel)

/-- `invModP` is a residue. -/
theorem invModP_lt (x : Nat) : invModP x < primeP := by
  rw [invModP_eq]; exact Nat.mod_lt _ (by decide +kernel)

/-! ### The Montgomery radix (R12) -/

/-- radixInv is inv(RM, p). -/
theorem radix_mul_radixInv : radixRM * radixInv % primeP = 1 := by decide +kernel

/-- The Montgomery product, multiplied by the radix, is the product (R12). -/
theorem mont_mul_radix (x y : Nat) : mont x y * radixRM % primeP = x * y % primeP := by
  rw [mont, Nat.mod_mul_mod, mul_assoc (x * y), mul_comm radixInv, Nat.mul_mod, radix_mul_radixInv, mul_one,
    Nat.mod_mod]

/-! ### The primes p and n (R11) -/

/-- Lucas's criterion: q is prime when the prime factors of q - 1 are known and some a has order q - 1 modulo q. -/
theorem prime_of_order (q a bits : Nat) (fs : List Nat) (hf : ∀ r ∈ fs, r.Prime) (hq : fs.prod + 1 = q)
    (hb : q < 2 ^ bits) (h1 : powMod q a bits (q - 1) = 1)
    (h2 : (fs.all fun r => powMod q a bits ((q - 1) / r) != 1) = true) : q.Prime := by
  have cast : ∀ e, e < 2 ^ bits → ((a : ZMod q) ^ e = 1 ↔ powMod q a bits e = 1 % q) := by
    intro e he
    rw [powMod_eq _ _ _ _ he, ← Nat.cast_pow, ← Nat.cast_one (R := ZMod q), ZMod.natCast_eq_natCast_iff]
    rfl
  have h1q : 1 % q = 1 := by
    rcases Nat.lt_or_ge 1 q with h | h
    · exact Nat.mod_eq_of_lt h
    · exfalso
      have : powMod q a bits (q - 1) = 1 % q := by
        rw [show q - 1 = 0 by omega, powMod_eq _ _ _ _ (by positivity), pow_zero]
      have hq1 : q = 1 := by
        have : fs.prod ≠ 0 := List.prod_ne_zero fun h0 => Nat.not_prime_zero (hf 0 h0)
        omega
      rw [h1, hq1] at this
      simp at this
  refine lucas_primality q (a : ZMod q) ((cast _ (by omega)).2 (by rw [h1, h1q])) fun r hr hd he => ?_
  have hmem : r ∈ fs := by
    rw [← hq, Nat.add_sub_cancel] at hd
    obtain ⟨s, hs, hrs⟩ := (Nat.Prime.prime hr).dvd_prod_iff.1 hd
    rwa [(Nat.prime_dvd_prime_iff_eq hr (hf s hs)).1 hrs]
  have hlt : (q - 1) / r < 2 ^ bits := lt_of_le_of_lt (Nat.div_le_self _ _) (by omega)
  have := List.all_eq_true.1 h2 r hmem
  rw [(cast _ hlt).1 he, h1q] at this
  simp at this

theorem prime_6700417 : Nat.Prime 6700417 := by
  refine prime_of_order 6700417 5 23 [2, 2, 2, 2, 2, 2, 2, 3, 17449] ?_ (by decide +kernel) (by decide +kernel) (by decide +kernel) (by decide +kernel)
  simp only [List.forall_mem_cons, List.not_mem_nil, false_implies, implies_true, and_true]
  exact ⟨(by norm_num), (by norm_num), (by norm_num), (by norm_num), (by norm_num), (by norm_num), (by norm_num), (by norm_num), (by norm_num)⟩

theorem prime_204061199 : Nat.Prime 204061199 := by
  refine prime_of_order 204061199 11 28 [2, 11, 23, 107, 3769] ?_ (by decide +kernel) (by decide +kernel) (by decide +kernel) (by decide +kernel)
  simp only [List.forall_mem_cons, List.not_mem_nil, false_implies, implies_true, and_true]
  exact ⟨(by norm_num), (by norm_num), (by norm_num), (by norm_num), (by norm_num)⟩

theorem prime_34282281433 : Nat.Prime 34282281433 := by
  refine prime_of_order 34282281433 17 35 [2, 2, 2, 3, 7, 204061199] ?_ (by decide +kernel) (by decide +kernel) (by decide +kernel) (by decide +kernel)
  simp only [List.forall_mem_cons, List.not_mem_nil, false_implies, implies_true, and_true]
  exact ⟨(by norm_num), (by norm_num), (by norm_num), (by norm_num), (by norm_num), prime_204061199⟩

theorem prime_66417393611 : Nat.Prime 66417393611 := by
  refine prime_of_order 66417393611 6 36 [2, 5, 53, 173, 197, 3677] ?_ (by decide +kernel) (by decide +kernel) (by decide +kernel) (by decide +kernel)
  simp only [List.forall_mem_cons, List.not_mem_nil, false_implies, implies_true, and_true]
  exact ⟨(by norm_num), (by norm_num), (by norm_num), (by norm_num), (by norm_num), (by norm_num)⟩

theorem prime_11290956913871 : Nat.Prime 11290956913871 := by
  refine prime_of_order 11290956913871 13 44 [2, 5, 17, 66417393611] ?_ (by decide +kernel) (by decide +kernel) (by decide +kernel) (by decide +kernel)
  simp only [List.forall_mem_cons, List.not_mem_nil, false_implies, implies_true, and_true]
  exact ⟨(by norm_num), (by norm_num), (by norm_num), prime_66417393611⟩

theorem prime_46076956964474543 : Nat.Prime 46076956964474543 := by
  refine prime_of_order 46076956964474543 5 56 [2, 23, 18169, 78283, 704251] ?_ (by decide +kernel) (by decide +kernel) (by decide +kernel) (by decide +kernel)
  simp only [List.forall_mem_cons, List.not_mem_nil, false_implies, implies_true, and_true]
  exact ⟨(by norm_num), (by norm_num), (by norm_num), (by norm_num), (by norm_num)⟩

theorem prime_774023187263532362759620327192479577272145303 : Nat.Prime 774023187263532362759620327192479577272145303 := by
  refine prime_of_order 774023187263532362759620327192479577272145303 3 150 [2, 3, 3, 2411, 34282281433, 11290956913871, 46076956964474543] ?_ (by decide +kernel) (by decide +kernel) (by decide +kernel) (by decide +kernel)
  simp only [List.forall_mem_cons, List.not_mem_nil, false_implies, implies_true, and_true]
  exact ⟨(by norm_num), (by norm_num), (by norm_num), (by norm_num), prime_34282281433, prime_11290956913871, prime_46076956964474543⟩

theorem prime_835945042244614951780389953367877943453916927241 : Nat.Prime 835945042244614951780389953367877943453916927241 := by
  refine prime_of_order 835945042244614951780389953367877943453916927241 11 160 [2, 2, 2, 3, 3, 3, 5, 774023187263532362759620327192479577272145303] ?_ (by decide +kernel) (by decide +kernel) (by decide +kernel) (by decide +kernel)
  simp only [List.forall_mem_cons, List.not_mem_nil, false_implies, implies_true, and_true]
  exact ⟨(by norm_num), (by norm_num), (by norm_num), (by norm_num), (by norm_num), (by norm_num), (by norm_num), prime_774023187263532362759620327192479577272145303⟩

theorem primeP_prime : Nat.Prime primeP := by
  refine prime_of_order primeP 6 256 [2, 3, 5, 5, 17, 257, 641, 1531, 65537, 490463, 6700417, 835945042244614951780389953367877943453916927241] ?_ (by decide +kernel) (by decide +kernel) (by decide +kernel) (by decide +kernel)
  simp only [List.forall_mem_cons, List.not_mem_nil, false_implies, implies_true, and_true]
  exact ⟨(by norm_num), (by norm_num), (by norm_num), (by norm_num), (by norm_num), (by norm_num), (by norm_num), (by norm_num), (by norm_num), (by norm_num), prime_6700417, prime_835945042244614951780389953367877943453916927241⟩

theorem prime_9350987 : Nat.Prime 9350987 := by
  refine prime_of_order 9350987 2 24 [2, 17, 229, 1201] ?_ (by decide +kernel) (by decide +kernel) (by decide +kernel) (by decide +kernel)
  simp only [List.forall_mem_cons, List.not_mem_nil, false_implies, implies_true, and_true]
  exact ⟨(by norm_num), (by norm_num), (by norm_num), (by norm_num)⟩

theorem prime_187019741 : Nat.Prime 187019741 := by
  refine prime_of_order 187019741 2 28 [2, 2, 5, 9350987] ?_ (by decide +kernel) (by decide +kernel) (by decide +kernel) (by decide +kernel)
  simp only [List.forall_mem_cons, List.not_mem_nil, false_implies, implies_true, and_true]
  exact ⟨(by norm_num), (by norm_num), (by norm_num), prime_9350987⟩

theorem prime_311245691 : Nat.Prime 311245691 := by
  refine prime_of_order 311245691 2 29 [2, 5, 7, 17, 29, 29, 311] ?_ (by decide +kernel) (by decide +kernel) (by decide +kernel) (by decide +kernel)
  simp only [List.forall_mem_cons, List.not_mem_nil, false_implies, implies_true, and_true]
  exact ⟨(by norm_num), (by norm_num), (by norm_num), (by norm_num), (by norm_num), (by norm_num), (by norm_num)⟩

theorem prime_622491383 : Nat.Prime 622491383 := by
  refine prime_of_order 622491383 5 30 [2, 311245691] ?_ (by decide +kernel) (by decide +kernel) (by decide +kernel) (by decide +kernel)
  simp only [List.forall_mem_cons, List.not_mem_nil, false_implies, implies_true, and_true]
  exact ⟨(by norm_num), prime_311245691⟩

theorem prime_3969899 : Nat.Prime 3969899 := by
  refine prime_of_order 3969899 2 22 [2, 19, 104471] ?_ (by decide +kernel) (by decide +kernel) (by decide +kernel) (by decide +kernel)
  simp only [List.forall_mem_cons, List.not_mem_nil, false_implies, implies_true, and_true]
  exact ⟨(by norm_num), (by norm_num), (by norm_num)⟩

theorem prime_1002328039319 : Nat.Prime 1002328039319 := by
  refine prime_of_order 1002328039319 19 40 [2, 126241, 3969899] ?_ (by decide +kernel) (by decide +kernel) (by decide +kernel) (by decide +kernel)
  simp only [List.forall_mem_cons, List.not_mem_nil, false_implies, implies_true, and_true]
  exact ⟨(by norm_num), (by norm_num), prime_3969899⟩

theorem prime_191039911 : Nat.Prime 191039911 := by
  refine prime_of_order 191039911 3 28 [2, 3, 5, 41, 155317] ?_ (by decide +kernel) (by decide +kernel) (by decide +kernel) (by decide +kernel)
  simp only [List.forall_mem_cons, List.not_mem_nil, false_implies, implies_true, and_true]
  exact ⟨(by norm_num), (by norm_num), (by norm_num), (by norm_num), (by norm_num)⟩

theorem prime_208150935158385979 : Nat.Prime 208150935158385979 := by
  refine prime_of_order 208150935158385979 2 58 [2, 3, 11, 43, 127, 3023, 191039911] ?_ (by decide +kernel) (by decide +kernel) (by decide +kernel) (by decide +kernel)
  simp only [List.forall_mem_cons, List.not_mem_nil, false_implies, implies_true, and_true]
  exact ⟨(by norm_num), (by norm_num), (by norm_num), (by norm_num), (by norm_num), (by norm_num), prime_191039911⟩

theorem prime_2624747550333869278416773953 : Nat.Prime 2624747550333869278416773953 := by
  refine prime_of_order 2624747550333869278416773953 7 92 [2, 2, 2, 2, 2, 2, 3, 3, 1297, 16879, 208150935158385979] ?_ (by decide +kernel) (by decide +kernel) (by decide +kernel) (by decide +kernel)
  simp only [List.forall_mem_cons, List.not_mem_nil, false_implies, implies_true, and_true]
  exact ⟨(by norm_num), (by norm_num), (by norm_num), (by norm_num), (by norm_num), (by norm_num), (by norm_num), (by norm_num), (by norm_num), (by norm_num), prime_208150935158385979⟩

theorem orderN_prime : Nat.Prime orderN := by
  refine prime_of_order orderN 7 256 [2, 2, 2, 2, 3, 71, 131, 373, 3407, 17449, 38189, 187019741, 622491383, 1002328039319, 2624747550333869278416773953] ?_ (by decide +kernel) (by decide +kernel) (by decide +kernel) (by decide +kernel)
  simp only [List.forall_mem_cons, List.not_mem_nil, false_implies, implies_true, and_true]
  exact ⟨(by norm_num), (by norm_num), (by norm_num), (by norm_num), (by norm_num), (by norm_num), (by norm_num), (by norm_num), (by norm_num), (by norm_num), (by norm_num), prime_187019741, prime_622491383, prime_1002328039319, prime_2624747550333869278416773953⟩
/-- The inverse unit inverts modulo p (R116). -/
theorem mul_invModP {x : Nat} (h : x % primeP ≠ 0) : x * invModP x % primeP = 1 := by
  have hp : Fact primeP.Prime := ⟨primeP_prime⟩
  have h1 : (x : ZMod primeP) ^ (primeP - 1) = 1 :=
    ZMod.pow_card_sub_one_eq_one fun h0 => h (Nat.mod_eq_zero_of_dvd ((ZMod.natCast_eq_zero_iff _ _).1 h0))
  rw [← Nat.cast_pow, ← Nat.cast_one (R := ZMod primeP), ZMod.natCast_eq_natCast_iff] at h1
  rw [invModP_eq, Nat.mul_mod_mod, ← pow_succ', show primeP - 2 + 1 = primeP - 1 by decide +kernel]
  exact h1

end Sys2Proof.Machine
end

