-- ==== Sys2Proof/Laws/Coding.lean ====
section
/-! SUPPORT. Byte strings, bit streams and their groups: lengths, and what undoes what (R8, R16). -/

namespace Sys2Proof.Machine

/-! ### Integers in byte strings -/

/-- One more byte at the least significant end. -/
@[simp] theorem beNat_append_singleton (B : Bytes) (b : Byte) : beNat (B ++ [b]) = 256 * beNat B + b.toNat := by
  simp [beNat]

/-- A byte string of length L is an integer below 256^L. -/
theorem beNat_lt (B : Bytes) : beNat B < 256 ^ B.length := by
  induction B using List.reverseRecOn with
  | nil => simp [beNat]
  | append_singleton B b ih =>
    have hb : b.toNat < 256 := b.isLt
    rw [beNat_append_singleton, List.length_append, List.length_singleton, pow_succ]
    omega

@[simp] theorem beBytes_length (v L : Nat) : (beBytes v L).length = L := by
  induction L generalizing v with
  | zero => rfl
  | succ L ih => simp [beBytes, ih]

/-- BE(BEbytes(v, L)) = v for v below 256^L. -/
theorem beNat_beBytes {v L : Nat} (h : v < 256 ^ L) : beNat (beBytes v L) = v := by
  induction L generalizing v with
  | zero => simp at h; simp [beBytes, beNat, h]
  | succ L ih =>
    rw [beBytes, beNat_append_singleton, ih (by rw [pow_succ] at h; omega)]
    simp
    omega

/-- A big-endian integer as the sum of its bytes (R8). -/
theorem beNat_eq_sum (B : Bytes) :
    beNat B = ∑ i ∈ Finset.range B.length, (B.getD i 0).toNat * 256 ^ (B.length - 1 - i) := by
  induction B using List.reverseRecOn with
  | nil => simp [beNat]
  | append_singleton B b ih =>
    rw [beNat_append_singleton, ih, List.length_append, List.length_singleton, Finset.sum_range_succ, Finset.mul_sum]
    congr 1
    · refine Finset.sum_congr rfl fun i hi => ?_
      have hi' := Finset.mem_range.1 hi
      rw [List.getD_append _ _ _ _ hi', show B.length + 1 - 1 - i = (B.length - 1 - i) + 1 by omega, pow_succ]
      ring
    · simp [List.getD_eq_getElem?_getD]

/-! ### Bits of a number -/

@[simp] theorem natBits_length (l v : Nat) : (natBits l v).length = l := by simp [natBits]

theorem natBits_getElem (l v j : Nat) (h : j < (natBits l v).length) : (natBits l v)[j] = v.testBit j := by
  simp [natBits]

/-- Bits above the highest are 0. -/
theorem bitsNat_lt (bs : List Bool) : bitsNat bs < 2 ^ bs.length := by
  induction bs with
  | nil => simp [bitsNat]
  | cons b bs ih => rw [bitsNat, List.length_cons, pow_succ]; cases b <;> (simp; omega)

/-- Bit j of the number with the given bits. -/
theorem bitsNat_testBit (bs : List Bool) (j : Nat) : (bitsNat bs).testBit j = bs.getD j false := by
  induction bs generalizing j with
  | nil => simp [bitsNat]
  | cons b bs ih =>
    cases j with
    | zero => cases b <;> simp [bitsNat, Nat.testBit_zero]
    | succ j =>
      rw [Nat.testBit_succ, bitsNat, List.getD_cons_succ, ← ih]
      congr 1
      cases b <;> simp <;> omega

/-- The bits of the number with the given bits. -/
theorem natBits_bitsNat (bs : List Bool) : natBits bs.length (bitsNat bs) = bs := by
  apply List.ext_getElem (by simp)
  intro i h1 h2
  rw [natBits_getElem, bitsNat_testBit, List.getD_eq_getElem?_getD, List.getElem?_eq_getElem h2, Option.getD_some]

/-- The same, with the length named. -/
theorem natBits_bitsNat_of_length {l : Nat} {bs : List Bool} (h : bs.length = l) : natBits l (bitsNat bs) = bs := by
  subst h; exact natBits_bitsNat bs

/-- The number with the bits of v, for v below 2^l. -/
theorem bitsNat_natBits {l v : Nat} (h : v < 2 ^ l) : bitsNat (natBits l v) = v := by
  apply Nat.eq_of_testBit_eq
  intro j
  rw [bitsNat_testBit, List.getD_eq_getElem?_getD]
  by_cases hj : j < l
  · rw [List.getElem?_eq_getElem (by simpa using hj), Option.getD_some, natBits_getElem]
  · rw [List.getElem?_eq_none (by simpa using hj), Option.getD_none]
    exact (Nat.testBit_lt_two_pow (lt_of_lt_of_le h (Nat.pow_le_pow_right (by omega) (by omega)))).symm

/-! ### Groups of a stream -/

@[simp] theorem groups_length (l k : Nat) (bs : List Bool) : (groups l k bs).length = k := by
  induction k generalizing bs with
  | zero => rfl
  | succ k ih => simp [groups, ih]

/-- Group i is the l bits from position l*i on. -/
theorem groups_getElem (l k : Nat) (bs : List Bool) (i : Nat) (h : i < (groups l k bs).length) :
    (groups l k bs)[i] = (bs.drop (l * i)).take l := by
  induction k generalizing bs i with
  | zero => simp [groups] at h
  | succ k ih =>
    cases i with
    | zero => simp [groups]
    | succ i =>
      simp only [groups, List.getElem_cons_succ, ih, List.drop_drop]
      congr 2
      ring

/-- The groups of a stream of l*k bits, one after the other, are the stream. -/
theorem groups_flatten {l k : Nat} {bs : List Bool} (h : bs.length = l * k) : (groups l k bs).flatten = bs := by
  induction k generalizing bs with
  | zero => simpa [groups, eq_comm] using h
  | succ k ih =>
    rw [groups, List.flatten_cons, ih (by rw [List.length_drop, h]; rw [Nat.mul_succ]; omega), List.take_append_drop]

/-- The groups of a stream made of groups. -/
theorem groups_flatten_map {α : Type} {l : Nat} (g : α → List Bool) (hg : ∀ a, (g a).length = l) (f : List α) :
    groups l f.length (f.flatMap g) = f.map g := by
  induction f with
  | nil => rfl
  | cons a f ih =>
    rw [List.flatMap_cons, List.length_cons, groups, List.take_left' (hg a), List.drop_left' (hg a), ih, List.map_cons]

/-- A stream of groups of l bits has l times as many bits. -/
theorem flatMap_length {α : Type} {l : Nat} (g : α → List Bool) (hg : ∀ a, (g a).length = l) (f : List α) :
    (f.flatMap g).length = l * f.length := by
  induction f with
  | nil => simp
  | cons a f ih => rw [List.flatMap_cons, List.length_append, hg, ih, List.length_cons]; ring

@[simp] theorem byteBits_length (B : Bytes) : (byteBits B).length = 8 * B.length := flatMap_length _ (by simp) B

theorem byteBits_cons (b : Byte) (B : Bytes) : byteBits (b :: B) = natBits 8 b.toNat ++ byteBits B := by
  simp [byteBits]

/-- Bit i of a byte string is bit (i mod 8) of byte (i div 8) (R8). -/
theorem byteBits_getElem (B : Bytes) (i : Nat) (h : i < (byteBits B).length) :
    (byteBits B)[i] = (B.getD (i / 8) 0).toNat.testBit (i % 8) := by
  induction B generalizing i with
  | nil => simp at h
  | cons b B ih =>
    rw [List.getElem_of_eq (byteBits_cons b B) h]
    by_cases hi : i < 8
    · rw [List.getElem_append_left (by simpa using hi), natBits_getElem, Nat.div_eq_of_lt hi, Nat.mod_eq_of_lt hi]
      rfl
    · rw [List.getElem_append_right (by simpa using hi), ih]
      simp only [natBits_length]
      rw [show i / 8 = (i - 8) / 8 + 1 by omega, List.getD_cons_succ, show (i - 8) % 8 = i % 8 by omega]

/-! ### Encode and Decode (R16) -/

@[simp] theorem encodeBits_length (l : Nat) (f : List Nat) : (encodeBits l f).length = 32 * l := by simp [encodeBits]

@[simp] theorem decodeBits_length (l : Nat) (B : Bytes) : (decodeBits l B).length = 256 := by simp [decodeBits]

/-- The bit stream of the bytes made of the groups of a stream is the stream. -/
theorem byteBits_ofGroups {k : Nat} {bs : List Bool} (h : bs.length = 8 * k) :
    byteBits ((groups 8 k bs).map fun g => BitVec.ofNat 8 (bitsNat g)) = bs := by
  conv_rhs => rw [← groups_flatten h]
  rw [byteBits, List.flatMap_map, List.flatMap_def]
  congr 1
  conv_rhs => rw [← List.map_id (groups 8 k bs)]
  apply List.map_congr_left
  intro g hg
  obtain ⟨i, hi, rfl⟩ := List.getElem_of_mem hg
  have hlen : ((groups 8 k bs)[i]).length = 8 := by
    rw [groups_getElem, List.length_take, List.length_drop, h]
    simp at hi; omega
  have hlt := bitsNat_lt ((groups 8 k bs)[i])
  rw [hlen] at hlt
  simp only [id]
  rw [BitVec.toNat_ofNat, Nat.mod_eq_of_lt hlt]
  exact natBits_bitsNat_of_length hlen

/-- The bit stream of an encoding is the bits of its integers, one after the other (R62). -/
theorem byteBits_encodeBits (l : Nat) {f : List Nat} (hf : f.length = 256) :
    byteBits (encodeBits l f) = f.flatMap (natBits l) := by
  apply byteBits_ofGroups
  rw [flatMap_length (l := l) _ (by simp), hf]; ring

/-- Decode undoes Encode on 256 integers below 2^l. -/
theorem decodeBits_encodeBits {l : Nat} {f : List Nat} (hf : f.length = 256) (hb : ∀ v ∈ f, v < 2 ^ l) :
    decodeBits l (encodeBits l f) = f := by
  rw [decodeBits, byteBits_encodeBits l hf]
  have := groups_flatten_map (natBits l) (natBits_length l) f
  rw [hf] at this
  rw [this, List.map_map]
  conv_rhs => rw [← List.map_id f]
  apply List.map_congr_left
  intro v hv
  exact bitsNat_natBits (hb v hv)

/-- The integers of Decode_l are below 2^l. -/
theorem decodeBits_lt {l : Nat} {B : Bytes} {v : Nat} (h : v ∈ decodeBits l B) : v < 2 ^ l := by
  obtain ⟨g, hg, rfl⟩ := List.mem_map.1 h
  obtain ⟨i, hi, rfl⟩ := List.getElem_of_mem hg
  refine lt_of_lt_of_le (bitsNat_lt _) (Nat.pow_le_pow_right (by omega) ?_)
  rw [groups_getElem, List.length_take]
  exact Nat.min_le_left _ _

/-- Encode undoes Decode on 32*l bytes. -/
theorem encodeBits_decodeBits {l : Nat} {B : Bytes} (hB : B.length = 32 * l) : encodeBits l (decodeBits l B) = B := by
  have hbits : (byteBits B).length = l * 256 := by rw [byteBits_length, hB]; ring
  have h1 : (decodeBits l B).flatMap (natBits l) = byteBits B := by
    conv_rhs => rw [← groups_flatten hbits]
    rw [decodeBits, List.flatMap_map, List.flatMap_def]
    congr 1
    conv_rhs => rw [← List.map_id (groups l 256 (byteBits B))]
    apply List.map_congr_left
    intro g hg
    obtain ⟨i, hi, rfl⟩ := List.getElem_of_mem hg
    have hlen : ((groups l 256 (byteBits B))[i]).length = l := by
      rw [groups_getElem, List.length_take, List.length_drop, hbits]
      simp only [groups_length] at hi
      have : l * (i + 1) ≤ l * 256 := Nat.mul_le_mul_left l hi
      rw [Nat.mul_succ] at this
      omega
    exact natBits_bitsNat_of_length hlen
  rw [encodeBits, h1]
  have := groups_flatten_map (l := 8) (fun b : Byte => natBits 8 b.toNat) (fun b => natBits_length 8 b.toNat) B
  rw [hB] at this
  rw [byteBits, this, List.map_map]
  conv_rhs => rw [← List.map_id B]
  apply List.map_congr_left
  intro b _
  simp [bitsNat_natBits b.isLt]

/-- Integer i of Decode_l, bit by bit. -/
theorem decodeBits_getElem_testBit {l : Nat} {B : Bytes} (hB : B.length = 32 * l) (i j : Nat)
    (hi : i < (decodeBits l B).length) (hj : j < l) :
    ((decodeBits l B)[i]).testBit j = (B.getD ((i * l + j) / 8) 0).toNat.testBit ((i * l + j) % 8) := by
  have hi' : i < 256 := by simpa using hi
  have hlt : i * l + j < (byteBits B).length := by
    rw [byteBits_length, hB]
    have : (i + 1) * l ≤ 256 * l := Nat.mul_le_mul_right l hi'
    rw [Nat.succ_mul] at this
    omega
  rw [← byteBits_getElem B _ hlt]
  simp only [decodeBits, List.getElem_map]
  rw [bitsNat_testBit, groups_getElem, List.getD_eq_getElem?_getD, List.getElem?_take, if_pos hj, List.getElem?_drop,
    show l * i + j = i * l + j by ring, List.getElem?_eq_getElem hlt, Option.getD_some]

/-! ### Polynomials as lists -/

@[simp] theorem Poly.toList_length (f : Poly) : f.toList.length = 256 := by simp

/-- A polynomial of 256 coefficients has them. -/
theorem Poly.toList_ofList {l : List Coeff} (h : l.length = 256) : (Poly.ofList l).toList = l := by
  have hp : padCoeffs l = l := by rw [padCoeffs, List.take_left' h]
  simp [Poly.ofList, hp]

/-- A polynomial is its coefficients. -/
theorem Poly.ofList_toList (f : Poly) : Poly.ofList f.toList = f := by
  apply Vector.toList_inj.1
  exact Poly.toList_ofList (by simp)

@[simp] theorem Poly.nats_length (f : Poly) : (Poly.nats f).length = 256 := by simp [Poly.nats]

/-- A coefficient is below q (R23). -/
theorem Poly.nats_lt {f : Poly} {v : Nat} (h : v ∈ Poly.nats f) : v < 3329 := by
  obtain ⟨c, _, rfl⟩ := List.mem_map.1 h
  exact c.isLt

/-- The polynomial of the numbers of a polynomial. -/
theorem Poly.ofNats_nats (f : Poly) : Poly.ofNats (Poly.nats f) = f := by
  rw [Poly.ofNats, Poly.nats, List.map_map]
  conv_rhs => rw [← Poly.ofList_toList f]
  congr 1
  conv_rhs => rw [← List.map_id f.toList]
  apply List.map_congr_left
  intro c _
  apply Fin.ext
  exact Nat.mod_eq_of_lt c.isLt

/-- The numbers of a polynomial given by 256 numbers below q. -/
theorem Poly.nats_ofNats {l : List Nat} (h : l.length = 256) (hq : ∀ v ∈ l, v < 3329) : Poly.nats (Poly.ofNats l) = l := by
  rw [Poly.nats, Poly.ofNats, Poly.toList_ofList (by simpa using h), List.map_map]
  conv_rhs => rw [← List.map_id l]
  apply List.map_congr_left
  intro v hv
  exact Nat.mod_eq_of_lt (hq v hv)

/-- Decode_12 undoes Encode_12 on a polynomial (R192). -/
theorem decodePoly_encodePoly (f : Poly) : decodePoly (encodePoly f) = f := by
  rw [decodePoly, encodePoly, decodeBits_encodeBits (by simp) fun v hv => lt_trans (Poly.nats_lt hv) (by norm_num),
    Poly.ofNats_nats]

@[simp] theorem encodePoly_length (f : Poly) : (encodePoly f).length = 384 := by simp [encodePoly]

@[simp] theorem compressPoly_length (d : Nat) (f : Poly) : (compressPoly d f).length = 32 * d := by simp [compressPoly]

end Sys2Proof.Machine
end

