-- ==== Sys2Proof/Laws/Curve.lean ====
section
/-! SUPPORT. The curve of the model against the group of a Weierstrass curve over Z/p (R13, R140): the group law of R13 is its
addition, so the sums of R13 are associative and commutative. -/

namespace Sys2Proof.Machine

/-! ### The model's numbers as elements of Z/p -/

/-- A residue, read in Z/p. -/
theorem cast_modInt (e : Int) : ((modInt e primeP : Nat) : ZMod primeP) = (e : ZMod primeP) := by
  have h : ((modInt e primeP : Nat) : Int) = e % primeP := modInt_cast e (by decide +kernel)
  calc ((modInt e primeP : Nat) : ZMod primeP) = (((modInt e primeP : Nat) : Int) : ZMod primeP) := by push_cast; rfl
    _ = (e : ZMod primeP) := by rw [h]; exact ZMod.intCast_mod e primeP

/-- A residue below p is determined by its value in Z/p. -/
theorem eq_of_cast_eq {x y : Nat} (hx : x < primeP) (hy : y < primeP) (h : (x : ZMod primeP) = y) : x = y := by
  have := (ZMod.natCast_eq_natCast_iff' x y primeP).1 h
  rwa [Nat.mod_eq_of_lt hx, Nat.mod_eq_of_lt hy] at this

/-- A number is a multiple of p exactly when it is 0 in Z/p. -/
theorem mod_eq_zero_iff_cast (x : Nat) : x % primeP = 0 ↔ (x : ZMod primeP) = 0 := by
  rw [ZMod.natCast_eq_zero_iff]
  exact ⟨Nat.dvd_of_mod_eq_zero, Nat.mod_eq_zero_of_dvd⟩

variable [Fact (Nat.Prime primeP)]

/-- The inverse unit, read in Z/p. -/
theorem cast_invModP {x : Nat} (h : (x : ZMod primeP) ≠ 0) :
    ((invModP x : Nat) : ZMod primeP) = (x : ZMod primeP)⁻¹ := by
  refine eq_inv_of_mul_eq_one_right ?_
  have h1 := mul_invModP fun h0 => h ((mod_eq_zero_iff_cast x).1 h0)
  rw [← Nat.cast_mul, ← Nat.cast_one, ZMod.natCast_eq_natCast_iff', h1]
  exact (Nat.mod_eq_of_lt (by decide +kernel)).symm

/-! ### The Weierstrass curve -/

/-- y^2 = x^3 + a*x + b over Z/p (R11). -/
def weierstrass : WeierstrassCurve (ZMod primeP) := ⟨0, 0, 0, (curveA : ZMod primeP), (curveB : ZMod primeP)⟩

/-- The curve is not singular. -/
theorem weierstrass_disc : weierstrass.Δ ≠ 0 := by
  have h : weierstrass.Δ = ((modInt (-(16 * (4 * (curveA : Int) ^ 3 + 27 * (curveB : Int) ^ 2))) primeP : Nat) :
      ZMod primeP) := by
    rw [cast_modInt]
    simp only [weierstrass, WeierstrassCurve.Δ, WeierstrassCurve.b₂, WeierstrassCurve.b₄, WeierstrassCurve.b₆,
      WeierstrassCurve.b₈]
    push_cast
    ring
  rw [h, Ne, ← mod_eq_zero_iff_cast]
  decide +kernel

/-- The curve equation of R140 is that of the Weierstrass curve. -/
theorem curveEquation_iff (x y : Nat) :
    curveEquation x y = true ↔ weierstrass.toAffine.Equation (x : ZMod primeP) (y : ZMod primeP) := by
  have hlt := modInt_lt ((y : Int) ^ 2 - ((x : Int) ^ 3 + curveA * x + curveB)) (m := primeP) (by decide +kernel)
  have h0 : curveEquation x y = true ↔
      ((modInt ((y : Int) ^ 2 - ((x : Int) ^ 3 + curveA * x + curveB)) primeP : Nat) : ZMod primeP) = 0 := by
    rw [← mod_eq_zero_iff_cast, Nat.mod_eq_of_lt hlt]
    simp [curveEquation]
  rw [h0, cast_modInt, WeierstrassCurve.Affine.equation_iff]
  simp only [weierstrass]
  push_cast
  constructor
  · intro h; linear_combination h
  · intro h; linear_combination h

/-- A valid pair is a nonsingular point (R140). -/
theorem affineValid_nonsingular {x y : Nat} (h : affineValid x y = true) :
    weierstrass.toAffine.Nonsingular (x : ZMod primeP) (y : ZMod primeP) := by
  simp only [affineValid, Bool.and_eq_true] at h
  exact (WeierstrassCurve.Affine.equation_iff_nonsingular_of_Δ_ne_zero weierstrass_disc).1
    ((curveEquation_iff x y).1 h.2)

/-- A point of the model stands for a point of the curve. -/
inductive Represents : CurvePoint → weierstrass.toAffine.Point → Prop
  | inf : Represents .inf 0
  | affine (x y : Nat) (hx : x < primeP) (hy : y < primeP)
    (h : weierstrass.toAffine.Nonsingular (x : ZMod primeP) (y : ZMod primeP)) : Represents (.affine x y) (.some _ _ h)

/-- A register on the curve stands for a point (R140). -/
theorem represents_of_onCurve {Q : Point} (h : onCurve Q = true) : ∃ R, Represents Q.toCurve R := by
  unfold Point.toCurve
  cases hi : Q.inf
  · have hv : affineValid Q.x.toNat Q.y.toNat = true := by simpa [onCurve, hi] using h
    have hv' := hv
    simp only [affineValid, Bool.and_eq_true, decide_eq_true_iff] at hv'
    exact ⟨_, .affine _ _ hv'.1.1 hv'.1.2 (affineValid_nonsingular hv)⟩
  · exact ⟨_, .inf⟩

/-- What a point of the curve is represented by is one thing. -/
theorem represents_unique {P P' : CurvePoint} {Q : weierstrass.toAffine.Point} (h : Represents P Q)
    (h' : Represents P' Q) : P = P' := by
  cases h with
  | inf => cases h'; rfl
  | affine x y hx hy hn =>
    generalize hQ : WeierstrassCurve.Affine.Point.some _ _ hn = Q' at h'
    cases h' with
    | inf => cases hQ
    | affine x' y' hx' hy' hn' =>
      rw [WeierstrassCurve.Affine.Point.some.injEq] at hQ
      obtain ⟨h1, h2⟩ := hQ
      rw [eq_of_cast_eq hx hx' h1, eq_of_cast_eq hy hy' h2]

/-- What is represented is valid, with reduced coordinates (R140). -/
theorem affineValid_of_represents {x y : Nat} {Q : weierstrass.toAffine.Point} (h : Represents (.affine x y) Q) :
    affineValid x y = true := by
  cases h with
  | affine _ _ hx hy hn =>
    simp only [affineValid, Bool.and_eq_true, decide_eq_true_iff]
    exact ⟨⟨hx, hy⟩, (curveEquation_iff x y).2 hn.1⟩

/-- The third point of R13 is the third point of the chord-and-tangent law. -/
theorem thirdPoint_represents {lam x1 y1 x2 : Nat} {P : weierstrass.toAffine.Point}
    (h : weierstrass.toAffine.Nonsingular (weierstrass.toAffine.addX x1 x2 lam) (weierstrass.toAffine.addY x1 x2 y1 lam))
    (hP : P = .some _ _ h) : Represents (thirdPoint lam x1 y1 x2) P := by
  have hX : ((modInt ((lam : Int) * lam - x1 - x2) primeP : Nat) : ZMod primeP) =
      weierstrass.toAffine.addX x1 x2 lam := by
    rw [cast_modInt]; simp [weierstrass, WeierstrassCurve.Affine.addX]; ring
  have hY : ((modInt ((lam : Int) * ((x1 : Int) - (modInt ((lam : Int) * lam - x1 - x2) primeP : Nat)) - y1) primeP : Nat) :
      ZMod primeP) = weierstrass.toAffine.addY x1 x2 y1 lam := by
    rw [cast_modInt]
    push_cast
    rw [hX]
    simp [weierstrass, WeierstrassCurve.Affine.addY, WeierstrassCurve.Affine.negY, WeierstrassCurve.Affine.negAddY]
    ring
  subst hP
  unfold thirdPoint
  have hr := Represents.affine _ _ (modInt_lt _ (by decide +kernel)) (modInt_lt _ (by decide +kernel)) (hX ▸ hY ▸ h)
  convert hr using 1
  rw [WeierstrassCurve.Affine.Point.some.injEq]
  exact ⟨hX.symm, hY.symm⟩

/-- add(P, Q) of R13 is the addition of the curve's group. -/
theorem represents_add {P P' : CurvePoint} {Q Q' : weierstrass.toAffine.Point} (h : Represents P Q)
    (h' : Represents P' Q') : Represents (curveAdd P P') (Q + Q') := by
  cases h with
  | inf => rw [zero_add]; exact h'
  | affine x1 y1 hx1 hy1 hn1 =>
    cases h' with
    | inf => rw [add_zero]; exact .affine x1 y1 hx1 hy1 hn1
    | affine x2 y2 hx2 hy2 hn2 =>
      have hneg : (y1 + y2) % primeP = 0 ↔ (y1 : ZMod primeP) = weierstrass.toAffine.negY x2 y2 := by
        rw [mod_eq_zero_iff_cast]
        simp only [WeierstrassCurve.Affine.negY, weierstrass]
        push_cast
        constructor <;> intro h <;> linear_combination h
      have hxe : x1 = x2 ↔ (x1 : ZMod primeP) = x2 := ⟨fun h => by rw [h], eq_of_cast_eq hx1 hx2⟩
      simp only [curveAdd]
      split
      · next hc =>
        rw [WeierstrassCurve.Affine.Point.add_of_Y_eq (hxe.1 hc.1) (hneg.1 hc.2)]
        exact .inf
      · next hc =>
        have hne : ¬((x1 : ZMod primeP) = x2 ∧ (y1 : ZMod primeP) = weierstrass.toAffine.negY x2 y2) :=
          fun hh => hc ⟨hxe.2 hh.1, hneg.2 hh.2⟩
        have key : ∀ lam : Nat, (lam : ZMod primeP) = weierstrass.toAffine.slope x1 x2 y1 y2 →
            Represents (thirdPoint lam x1 y1 x2)
              (WeierstrassCurve.Affine.Point.some _ _ hn1 + WeierstrassCurve.Affine.Point.some _ _ hn2) := by
          intro lam hl
          refine thirdPoint_represents (hl ▸ WeierstrassCurve.Affine.nonsingular_add hn1 hn2 hne) ?_
          rw [WeierstrassCurve.Affine.Point.add_some hne, WeierstrassCurve.Affine.Point.some.injEq]
          rw [hl]
          exact ⟨rfl, rfl⟩
        split
        · next hx =>
          refine key _ ?_
          subst hx
          have hy : (y1 : ZMod primeP) ≠ weierstrass.toAffine.negY x1 y2 := fun hh => hne ⟨rfl, hh⟩
          have hyy : (y1 : ZMod primeP) = y2 := WeierstrassCurve.Affine.Y_eq_of_Y_ne hn1.1 hn2.1 rfl hy
          have h2 : ((2 * y1 % primeP : Nat) : ZMod primeP) ≠ 0 := by
            rw [ZMod.natCast_mod]
            intro h0
            apply hy
            rw [← hyy]
            simp only [WeierstrassCurve.Affine.negY, weierstrass]
            push_cast at h0
            linear_combination h0
          rw [WeierstrassCurve.Affine.slope_of_Y_ne rfl hy, slopeDouble, ZMod.natCast_mod, Nat.cast_mul, cast_invModP h2,
            ZMod.natCast_mod, div_eq_mul_inv]
          simp only [WeierstrassCurve.Affine.negY, weierstrass]
          push_cast
          rw [show (y1 : ZMod primeP) - (-y1 - 0 * x1 - 0) = 2 * y1 by ring]
          ring
        · next hx =>
          refine key _ ?_
          have hxn : (x1 : ZMod primeP) ≠ x2 := fun hh => hx (hxe.2 hh)
          have h2 : ((modInt ((x2 : Int) - x1) primeP : Nat) : ZMod primeP) ≠ 0 := by
            rw [cast_modInt]; push_cast; exact sub_ne_zero.2 hxn.symm
          rw [WeierstrassCurve.Affine.slope_of_X_ne hxn, slopeChord, ZMod.natCast_mod, Nat.cast_mul, cast_invModP h2,
            cast_modInt, cast_modInt]
          push_cast
          rw [← neg_sub (y1 : ZMod primeP), ← neg_sub (x1 : ZMod primeP), inv_neg, neg_mul_neg, div_eq_mul_inv]

/-- The iterated sum of R13 is multiplication in the curve's group. -/
theorem represents_smulSpec {P : CurvePoint} {Q : weierstrass.toAffine.Point} (h : Represents P Q) (k : Nat) :
    Represents (smulSpec k P) (k • Q) := by
  induction k with
  | zero => rw [zero_nsmul]; exact .inf
  | succ k ih => rw [succ_nsmul]; exact represents_add ih h

/-- The doubling and adding of the scalar multiplier is multiplication in the curve's group. -/
theorem represents_smulBits {P : CurvePoint} {Q : weierstrass.toAffine.Point} (h : Represents P Q) (bits k : Nat)
    (hk : k < 2 ^ bits) : Represents (smulBits P bits k) (k • Q) := by
  induction bits generalizing k with
  | zero => rw [show k = 0 by simpa using hk, zero_nsmul]; exact .inf
  | succ bits ih =>
    have hd := ih (k / 2) (by rw [pow_succ] at hk; omega)
    have h2 := represents_add hd hd
    unfold smulBits smulStep
    rcases Nat.mod_two_eq_zero_or_one k with he | he
    · rw [he, show k • Q = (k / 2) • Q + (k / 2) • Q by rw [← add_nsmul]; congr 1; omega]
      exact h2
    · rw [he, show k • Q = (k / 2) • Q + (k / 2) • Q + Q by rw [← add_nsmul, ← succ_nsmul]; congr 1; omega]
      exact represents_add h2 h

end Sys2Proof.Machine
end

