-- ==== Sys2Proof/Laws/Decode.lean ====
section
/-! SUPPORT. The decoder and the encoder, field by field: what each format yields, and what each field of an encoded word is. -/

namespace Sys2Proof

/-! ### A word is its fields -/

/-- A word is its opcode followed by its other bits (R91). -/
theorem word_eq_wordN (w : Word) : w = opField w ++ nField w := by
  apply BitVec.eq_of_getLsbD_eq
  intro i hi
  rw [show (opField w ++ nField w).getLsbD i = if i < 24 then (nField w).getLsbD i else (opField w).getLsbD (i - 24) from
    BitVec.getLsbD_append]
  split
  · next h => simp [nField, h]
  · next h => simp [opField, show i - 24 < 8 by omega, show 24 + (i - 24) = i by omega]

/-- Bits 23:0 of a format R word are its four fields (R92). -/
theorem nField_eq_wordR (w : Word) : nField w = rdField w ++ (raField w ++ (rbField w ++ lowField w)) := by
  apply BitVec.eq_of_getLsbD_eq
  intro i hi
  rw [show (rdField w ++ (raField w ++ (rbField w ++ lowField w))).getLsbD i =
    if i < 20 then (if i < 16 then (if i < 12 then (lowField w).getLsbD i else (rbField w).getLsbD (i - 12))
      else (raField w).getLsbD (i - 16)) else (rdField w).getLsbD (i - 20) by
    rw [BitVec.getLsbD_append, BitVec.getLsbD_append, BitVec.getLsbD_append]]
  rcases (by omega : i < 12 ∨ (12 ≤ i ∧ i < 16) ∨ (16 ≤ i ∧ i < 20) ∨ 20 ≤ i) with h | h | h | h
  · simp [nField, lowField, h, hi, show i < 16 by omega, show i < 20 by omega]
  · simp [nField, rbField, hi, show ¬ i < 12 by omega, show i < 16 by omega, show i < 20 by omega,
      show i - 12 < 4 by omega, show 12 + (i - 12) = i by omega]
  · simp [nField, raField, hi, show ¬ i < 16 by omega, show i < 20 by omega,
      show i - 16 < 4 by omega, show 16 + (i - 16) = i by omega]
  · simp [nField, rdField, hi, show ¬ i < 20 by omega, show i - 20 < 4 by omega, show 20 + (i - 20) = i by omega]

/-- Bits 23:0 of a format M word are its three fields (R93). -/
theorem nField_eq_wordM (w : Word) : nField w = rdField w ++ (raField w ++ immField w) := by
  apply BitVec.eq_of_getLsbD_eq
  intro i hi
  rw [show (rdField w ++ (raField w ++ immField w)).getLsbD i =
    if i < 20 then (if i < 16 then (immField w).getLsbD i else (raField w).getLsbD (i - 16))
      else (rdField w).getLsbD (i - 20) by
    rw [BitVec.getLsbD_append, BitVec.getLsbD_append]]
  rcases (by omega : i < 16 ∨ (16 ≤ i ∧ i < 20) ∨ 20 ≤ i) with h | h | h
  · simp [nField, immField, h, hi, show i < 20 by omega]
  · simp [nField, raField, hi, show ¬ i < 16 by omega, show i < 20 by omega,
      show i - 16 < 4 by omega, show 16 + (i - 16) = i by omega]
  · simp [nField, rdField, hi, show ¬ i < 20 by omega, show i - 20 < 4 by omega, show 20 + (i - 20) = i by omega]

/-- The word of format R with the fields of w is w, when its low field is 0. -/
theorem wordR_fields {w : Word} (h : lowField w = 0) : wordR (opField w) (rdField w) (raField w) (rbField w) = w := by
  conv_rhs => rw [word_eq_wordN w, nField_eq_wordR w, h]
  rfl

/-- The word of format M with the fields of w is w. -/
theorem wordM_fields (w : Word) : wordM (opField w) (rdField w) (raField w) (immField w) = w := by
  conv_rhs => rw [word_eq_wordN w, nField_eq_wordM w]
  rfl

/-- The word of format N with the opcode of w is w, when its other bits are 0. -/
theorem wordN_fields {w : Word} (h : nField w = 0) : wordN (opField w) = w := by
  conv_rhs => rw [word_eq_wordN w, h]
  rfl

/-! ### The fields of an encoded word -/

/-- Bit i of a format N word. -/
theorem getLsbD_wordN (op : BitVec 8) (i : Nat) :
    (wordN op).getLsbD i = if i < 24 then false else op.getLsbD (i - 24) := by
  rw [show (wordN op).getLsbD i = BitVec.getLsbD (op ++ 0#24) i from rfl, BitVec.getLsbD_append, BitVec.getLsbD_zero]

/-- Bit i of a format R word. -/
theorem getLsbD_wordR (op : BitVec 8) (rd ra rb : BitVec 4) (i : Nat) : (wordR op rd ra rb).getLsbD i =
    if i < 24 then (if i < 20 then (if i < 16 then (if i < 12 then false else rb.getLsbD (i - 12))
      else ra.getLsbD (i - 16)) else rd.getLsbD (i - 20)) else op.getLsbD (i - 24) := by
  rw [show (wordR op rd ra rb).getLsbD i = BitVec.getLsbD (op ++ (rd ++ (ra ++ (rb ++ 0#12)))) i from rfl,
    BitVec.getLsbD_append, BitVec.getLsbD_append, BitVec.getLsbD_append, BitVec.getLsbD_append, BitVec.getLsbD_zero]

/-- Bit i of a format M word. -/
theorem getLsbD_wordM (op : BitVec 8) (r x : BitVec 4) (imm : Imm16) (i : Nat) : (wordM op r x imm).getLsbD i =
    if i < 24 then (if i < 20 then (if i < 16 then imm.getLsbD i else x.getLsbD (i - 16))
      else r.getLsbD (i - 20)) else op.getLsbD (i - 24) := by
  rw [show (wordM op r x imm).getLsbD i = BitVec.getLsbD (op ++ (r ++ (x ++ imm))) i from rfl,
    BitVec.getLsbD_append, BitVec.getLsbD_append, BitVec.getLsbD_append]

@[simp] theorem opField_wordN (op : BitVec 8) : opField (wordN op) = op := by
  apply BitVec.eq_of_getLsbD_eq; intro i hi
  simp [opField, getLsbD_wordN, hi]

@[simp] theorem nField_wordN (op : BitVec 8) : nField (wordN op) = 0 := by
  apply BitVec.eq_of_getLsbD_eq; intro i hi
  simp [nField, getLsbD_wordN, hi]

@[simp] theorem opField_wordR (op : BitVec 8) (rd ra rb : BitVec 4) : opField (wordR op rd ra rb) = op := by
  apply BitVec.eq_of_getLsbD_eq; intro i hi
  simp [opField, getLsbD_wordR, hi]

@[simp] theorem rdField_wordR (op : BitVec 8) (rd ra rb : BitVec 4) : rdField (wordR op rd ra rb) = rd := by
  apply BitVec.eq_of_getLsbD_eq; intro i hi
  simp [rdField, getLsbD_wordR, hi, show 20 + i < 24 by omega]

@[simp] theorem raField_wordR (op : BitVec 8) (rd ra rb : BitVec 4) : raField (wordR op rd ra rb) = ra := by
  apply BitVec.eq_of_getLsbD_eq; intro i hi
  simp [raField, getLsbD_wordR, hi, show 16 + i < 24 by omega, show 16 + i < 20 by omega]

@[simp] theorem rbField_wordR (op : BitVec 8) (rd ra rb : BitVec 4) : rbField (wordR op rd ra rb) = rb := by
  apply BitVec.eq_of_getLsbD_eq; intro i hi
  simp [rbField, getLsbD_wordR, hi, show 12 + i < 24 by omega, show 12 + i < 20 by omega, show 12 + i < 16 by omega]

@[simp] theorem lowField_wordR (op : BitVec 8) (rd ra rb : BitVec 4) : lowField (wordR op rd ra rb) = 0 := by
  apply BitVec.eq_of_getLsbD_eq; intro i hi
  simp [lowField, getLsbD_wordR, hi, show i < 24 by omega, show i < 20 by omega, show i < 16 by omega]

@[simp] theorem opField_wordM (op : BitVec 8) (r x : BitVec 4) (imm : Imm16) : opField (wordM op r x imm) = op := by
  apply BitVec.eq_of_getLsbD_eq; intro i hi
  simp [opField, getLsbD_wordM, hi]

@[simp] theorem rdField_wordM (op : BitVec 8) (r x : BitVec 4) (imm : Imm16) : rdField (wordM op r x imm) = r := by
  apply BitVec.eq_of_getLsbD_eq; intro i hi
  simp [rdField, getLsbD_wordM, hi, show 20 + i < 24 by omega]

@[simp] theorem raField_wordM (op : BitVec 8) (r x : BitVec 4) (imm : Imm16) : raField (wordM op r x imm) = x := by
  apply BitVec.eq_of_getLsbD_eq; intro i hi
  simp [raField, getLsbD_wordM, hi, show 16 + i < 24 by omega, show 16 + i < 20 by omega]

@[simp] theorem immField_wordM (op : BitVec 8) (r x : BitVec 4) (imm : Imm16) : immField (wordM op r x imm) = imm := by
  apply BitVec.eq_of_getLsbD_eq; intro i hi
  simp [immField, getLsbD_wordM, hi, show i < 24 by omega, show i < 20 by omega]

/-! ### Register indices (R94) -/

@[simp] theorem fIndex_indexBits (i : Fin 16) : fIndex (indexBits i) = i := by revert i; decide
@[simp] theorem pIndex_indexBits (i : Fin 4) : pIndex (indexBits i) = .ok i := by revert i; decide
@[simp] theorem rIndex_indexBits (i : Fin 8) : rIndex (indexBits i) = .ok i := by revert i; decide
@[simp] theorem indexBits_fIndex (x : BitVec 4) : indexBits (fIndex x) = x := by simp [indexBits, fIndex]
@[simp] theorem mustBeZero_zero (n : Nat) : mustBeZero (0#n) = .ok () := by simp [mustBeZero]

/-- A field that must be 0 passes exactly when it is. -/
theorem mustBeZero_eq_ok_iff {n : Nat} (x : BitVec n) (u : Unit) : mustBeZero x = .ok u ↔ x = 0#n := by
  unfold mustBeZero; split <;> simp_all

/-- A P index passes exactly when it encodes the register. -/
theorem pIndex_eq_ok_iff (x : BitVec 4) (i : Fin 4) : pIndex x = .ok i ↔ x = indexBits i := by
  revert x i; decide

/-- An R index passes exactly when it encodes the register. -/
theorem rIndex_eq_ok_iff (x : BitVec 4) (i : Fin 8) : rIndex x = .ok i ↔ x = indexBits i := by
  revert x i; decide

/-- A chain of checks passes exactly when the first passes and so does the rest. -/
theorem bind_eq_ok_iff {α β : Type} (x : Except Illegal α) (k : α → Except Illegal β) (b : β) :
    x >>= k = .ok b ↔ ∃ a, x = .ok a ∧ k a = .ok b := by
  cases x <;> simp [bind, Except.bind]

/-! ### The opcode map (R97), one equation a row -/

theorem decode_nop {w : Word} (h : opField w = 0x00#8) : decode w = formN w .nop := by
  unfold decode; rw [h]; rfl

theorem decode_zeroize {w : Word} (h : opField w = 0x01#8) : decode w = formN w .zeroize := by
  unfold decode; rw [h]; rfl

theorem decode_fadd {w : Word} (h : opField w = 0x10#8) : decode w = formFFF w .fadd := by
  unfold decode; rw [h]; rfl

theorem decode_fsub {w : Word} (h : opField w = 0x11#8) : decode w = formFFF w .fsub := by
  unfold decode; rw [h]; rfl

theorem decode_fmont {w : Word} (h : opField w = 0x12#8) : decode w = formFFF w .fmont := by
  unfold decode; rw [h]; rfl

theorem decode_fred {w : Word} (h : opField w = 0x13#8) : decode w = formFF w .fred := by
  unfold decode; rw [h]; rfl

theorem decode_fredw {w : Word} (h : opField w = 0x14#8) : decode w = formFFF w .fredw := by
  unfold decode; rw [h]; rfl

theorem decode_finv {w : Word} (h : opField w = 0x15#8) : decode w = formFF w .finv := by
  unfold decode; rw [h]; rfl

theorem decode_ftom {w : Word} (h : opField w = 0x16#8) : decode w = formFF w .ftom := by
  unfold decode; rw [h]; rfl

theorem decode_ffrom {w : Word} (h : opField w = 0x17#8) : decode w = formFF w .ffrom := by
  unfold decode; rw [h]; rfl

theorem decode_fmov {w : Word} (h : opField w = 0x18#8) : decode w = formFF w .fmov := by
  unfold decode; rw [h]; rfl

theorem decode_fld {w : Word} (h : opField w = 0x19#8) : decode w = formFM w .fld := by
  unfold decode; rw [h]; rfl

theorem decode_fst {w : Word} (h : opField w = 0x1A#8) : decode w = formFM w .fst := by
  unfold decode; rw [h]; rfl

theorem decode_sred {w : Word} (h : opField w = 0x1B#8) : decode w = formFF w .sred := by
  unfold decode; rw [h]; rfl

theorem decode_pld {w : Word} (h : opField w = 0x20#8) : decode w = formPM w .pld := by
  unfold decode; rw [h]; rfl

theorem decode_pst {w : Word} (h : opField w = 0x21#8) : decode w = formPM w .pst := by
  unfold decode; rw [h]; rfl

theorem decode_pmov {w : Word} (h : opField w = 0x22#8) : decode w = formPP w .pmov := by
  unfold decode; rw [h]; rfl

theorem decode_pbase {w : Word} (h : opField w = 0x23#8) : decode w = formPd w .pbase := by
  unfold decode; rw [h]; rfl

theorem decode_pinf {w : Word} (h : opField w = 0x24#8) : decode w = formPd w .pinf := by
  unfold decode; rw [h]; rfl

theorem decode_pvalid {w : Word} (h : opField w = 0x25#8) : decode w = formPa w .pvalid := by
  unfold decode; rw [h]; rfl

theorem decode_padd {w : Word} (h : opField w = 0x26#8) : decode w = formPPP w .padd := by
  unfold decode; rw [h]; rfl

theorem decode_pdbl {w : Word} (h : opField w = 0x27#8) : decode w = formPP w .pdbl := by
  unfold decode; rw [h]; rfl

theorem decode_pgetx {w : Word} (h : opField w = 0x28#8) : decode w = formFP w .pgetx := by
  unfold decode; rw [h]; rfl

theorem decode_pgety {w : Word} (h : opField w = 0x29#8) : decode w = formFP w .pgety := by
  unfold decode; rw [h]; rfl

theorem decode_pset {w : Word} (h : opField w = 0x2A#8) : decode w = formPFF w .pset := by
  unfold decode; rw [h]; rfl

theorem decode_smul {w : Word} (h : opField w = 0x2B#8) : decode w = formPFP w .smul := by
  unfold decode; rw [h]; rfl

theorem decode_ecdhKeygen {w : Word} (h : opField w = 0x30#8) : decode w = formN w .ecdhKeygen := by
  unfold decode; rw [h]; rfl

theorem decode_ecdhSecret {w : Word} (h : opField w = 0x31#8) : decode w = formN w .ecdhSecret := by
  unfold decode; rw [h]; rfl

theorem decode_rld {w : Word} (h : opField w = 0x40#8) : decode w = formRM w .rld := by
  unfold decode; rw [h]; rfl

theorem decode_rst {w : Word} (h : opField w = 0x41#8) : decode w = formRM w .rst := by
  unfold decode; rw [h]; rfl

theorem decode_rmov {w : Word} (h : opField w = 0x42#8) : decode w = formRR w .rmov := by
  unfold decode; rw [h]; rfl

theorem decode_radd {w : Word} (h : opField w = 0x43#8) : decode w = formRRR w .radd := by
  unfold decode; rw [h]; rfl

theorem decode_rsub {w : Word} (h : opField w = 0x44#8) : decode w = formRRR w .rsub := by
  unfold decode; rw [h]; rfl

theorem decode_ntt {w : Word} (h : opField w = 0x45#8) : decode w = formRR w .ntt := by
  unfold decode; rw [h]; rfl

theorem decode_intt {w : Word} (h : opField w = 0x46#8) : decode w = formRR w .intt := by
  unfold decode; rw [h]; rfl

theorem decode_pwmul {w : Word} (h : opField w = 0x47#8) : decode w = formRRR w .pwmul := by
  unfold decode; rw [h]; rfl

theorem decode_polymul {w : Word} (h : opField w = 0x48#8) : decode w = formRRR w .polymul := by
  unfold decode; rw [h]; rfl

theorem decode_cbd {w : Word} (h : opField w = 0x49#8) : decode w = formRxM w legalEta .cbd := by
  unfold decode; rw [h]; rfl

theorem decode_sampleu {w : Word} (h : opField w = 0x4A#8) : decode w = formRabM w .sampleu := by
  unfold decode; rw [h]; rfl

theorem decode_rcomp {w : Word} (h : opField w = 0x4B#8) : decode w = formRxM w legalBits .rcomp := by
  unfold decode; rw [h]; rfl

theorem decode_rdecomp {w : Word} (h : opField w = 0x4C#8) : decode w = formRxM w legalBits .rdecomp := by
  unfold decode; rw [h]; rfl

theorem decode_kybInit {w : Word} (h : opField w = 0x50#8) : decode w = formS w .kybInit := by
  unfold decode; rw [h]; rfl

theorem decode_kybKeygen {w : Word} (h : opField w = 0x51#8) : decode w = formN w .kybKeygen := by
  unfold decode; rw [h]; rfl

theorem decode_kybEncaps {w : Word} (h : opField w = 0x52#8) : decode w = formN w .kybEncaps := by
  unfold decode; rw [h]; rfl

theorem decode_kybDecaps {w : Word} (h : opField w = 0x53#8) : decode w = formN w .kybDecaps := by
  unfold decode; rw [h]; rfl

end Sys2Proof
end

