-- ==== Sys2Proof/Laws/Memory.lean ====
section
/-! SUPPORT. The laws of BUF: read after write, the canonical form, the range (spec R40, R63; log 24). -/

namespace Sys2Proof.Machine

/-- The canonical form as a proposition. -/
theorem Memory.wf_iff (m : Memory) :
    m.wf = true ↔ m.Pairwise (fun c c' => c.1 < c'.1) ∧ ∀ c ∈ m, c.2 ≠ 0#8 := by
  simp [Memory.wf]

/-- The range as a proposition. -/
theorem Memory.inBuf_iff (m : Memory) : m.inBuf = true ↔ ∀ c ∈ m, c.1 < Config.bufBytes := by
  simp [Memory.inBuf]

@[simp] theorem Memory.read_nil (a : Nat) : Memory.read [] a = 0 := rfl

theorem Memory.read_cons (x : Nat) (c : Byte) (m : Memory) (a : Nat) :
    Memory.read ((x, c) :: m) a = if a = x then c else Memory.read m a := rfl

/-- An address below every listed one reads 0. -/
theorem Memory.read_below {m : Memory} {a : Nat} (h : ∀ c ∈ m, a < c.1) : m.read a = 0 := by
  induction m with
  | nil => rfl
  | cons c m ih =>
    obtain ⟨x, b⟩ := c
    have hx : a < x := h (x, b) (by simp)
    rw [Memory.read_cons, if_neg (by omega)]
    exact ih fun c hc => h c (by simp [hc])

/-- What a write leaves listed: cells listed before, or the cell written. -/
theorem Memory.mem_write {m : Memory} {a : Nat} {b : Byte} {c : Host.Cell} (h : c ∈ m.write a b) :
    c ∈ m ∨ (c = (a, b) ∧ b ≠ 0) := by
  induction m with
  | nil =>
    rw [Memory.write] at h
    split at h
    · simp at h
    · rename_i hb
      simp only [List.mem_singleton] at h
      exact .inr ⟨h, hb⟩
  | cons d m ih =>
    obtain ⟨x, e⟩ := d
    rw [Memory.write] at h
    split at h
    · split at h
      · exact .inl h
      · rename_i hb
        rcases List.mem_cons.1 h with h | h
        · exact .inr ⟨h, hb⟩
        · exact .inl h
    · split at h
      · split at h
        · exact .inl (by simp [h])
        · rename_i hb
          rcases List.mem_cons.1 h with h | h
          · exact .inr ⟨h, hb⟩
          · exact .inl (by simp [h])
      · rcases List.mem_cons.1 h with h | h
        · exact .inl (by simp [h])
        · rcases ih h with h | h
          · exact .inl (by simp [h])
          · exact .inr h

/-- A write keeps the canonical form. -/
theorem Memory.write_wf {m : Memory} (h : m.wf = true) (a : Nat) (b : Byte) : (m.write a b).wf = true := by
  rw [Memory.wf_iff] at h ⊢
  refine ⟨?_, fun c hc => ?_⟩
  · obtain ⟨hp, hn⟩ := h
    induction m with
    | nil => rw [Memory.write]; split <;> simp
    | cons d m ih =>
      obtain ⟨x, e⟩ := d
      have hp' := List.pairwise_cons.1 hp
      rw [Memory.write]
      split
      · rename_i hax
        split
        · exact hp
        · refine List.pairwise_cons.2 ⟨fun c hc => ?_, hp⟩
          rcases List.mem_cons.1 hc with rfl | hc
          · exact hax
          · exact Nat.lt_trans hax (hp'.1 c hc)
      · split
        · rename_i _ hax
          split
          · exact hp'.2
          · subst hax
            exact List.pairwise_cons.2 ⟨fun c hc => hp'.1 c hc, hp'.2⟩
        · refine List.pairwise_cons.2 ⟨fun c hc => ?_, ih hp'.2 fun c hc => hn c (by simp [hc])⟩
          rcases Memory.mem_write hc with hc | ⟨rfl, _⟩
          · exact hp'.1 c hc
          · simp only; omega
  · rcases Memory.mem_write hc with hc | ⟨rfl, hb⟩
    · exact h.2 c hc
    · exact hb

/-- Read after write, for a canonical memory. -/
theorem Memory.read_write {m : Memory} (h : m.wf = true) (a : Nat) (b : Byte) (a' : Nat) :
    (m.write a b).read a' = if a' = a then b else m.read a' := by
  rw [Memory.wf_iff] at h
  obtain ⟨hp, -⟩ := h
  induction m with
  | nil =>
    rw [Memory.write]
    split
    · rename_i hb; subst hb; simp
    · rw [Memory.read_cons]
  | cons d m ih =>
    obtain ⟨x, e⟩ := d
    have hp' := List.pairwise_cons.1 hp
    rw [Memory.write]
    split
    · rename_i hax
      split
      · rename_i hb; subst hb
        split
        · rename_i haa; subst haa
          apply Memory.read_below
          intro c hc
          rcases List.mem_cons.1 hc with rfl | hc
          · exact hax
          · exact Nat.lt_trans hax (hp'.1 c hc)
        · rfl
      · rw [Memory.read_cons]
    · split
      · rename_i _ hax
        subst hax
        split
        · rename_i hb; subst hb
          split
          · rename_i haa; subst haa
            exact Memory.read_below fun c hc => hp'.1 c hc
          · rename_i haa
            rw [Memory.read_cons, if_neg haa]
        · rw [Memory.read_cons, Memory.read_cons]
          split <;> rfl
      · rename_i hax hne
        rw [Memory.read_cons, Memory.read_cons, ih hp'.2]
        split
        · rename_i haa; subst haa
          rw [if_neg (fun e => hne e.symm)]
        · rfl

/-- A write inside BUF keeps every cell inside BUF. -/
theorem Memory.write_inBuf {m : Memory} (h : m.inBuf = true) {a : Nat} (ha : a < Config.bufBytes) (b : Byte) :
    (m.write a b).inBuf = true := by
  rw [Memory.inBuf_iff] at h ⊢
  intro c hc
  rcases Memory.mem_write hc with hc | ⟨rfl, _⟩
  · exact h c hc
  · exact ha

/-- Writing a byte string keeps the canonical form. -/
theorem Memory.writeBytes_wf {m : Memory} (h : m.wf = true) (a : Nat) (B : Bytes) : (m.writeBytes a B).wf = true := by
  induction B generalizing m a with
  | nil => exact h
  | cons b B ih => exact ih (Memory.write_wf h a b) (a + 1)

/-- Writing a byte string inside BUF keeps every cell inside BUF. -/
theorem Memory.writeBytes_inBuf {m : Memory} (h : m.inBuf = true) {a : Nat} {B : Bytes}
    (ha : a + B.length ≤ Config.bufBytes) : (m.writeBytes a B).inBuf = true := by
  induction B generalizing m a with
  | nil => exact h
  | cons b B ih =>
    rw [List.length_cons] at ha
    exact ih (Memory.write_inBuf h (by omega) b) (by omega)

/-- Reading after a byte string is written: the string where it was written, the old byte elsewhere. -/
theorem Memory.read_writeBytes {m : Memory} (h : m.wf = true) (a : Nat) (B : Bytes) (a' : Nat) :
    (m.writeBytes a B).read a' = if a ≤ a' ∧ a' < a + B.length then B.getD (a' - a) 0 else m.read a' := by
  induction B generalizing m a with
  | nil => rw [Memory.writeBytes, if_neg (by simp)]
  | cons b B ih =>
    rw [Memory.writeBytes, ih (Memory.write_wf h a b), Memory.read_write h, List.length_cons]
    by_cases h1 : a + 1 ≤ a' ∧ a' < a + 1 + B.length
    · rw [if_pos h1, if_pos (by omega)]
      obtain ⟨k, rfl⟩ : ∃ k, a' = a + 1 + k := ⟨a' - (a + 1), by omega⟩
      rw [show a + 1 + k - (a + 1) = k by omega, show a + 1 + k - a = k + 1 by omega, List.getD_cons_succ]
    · rw [if_neg h1]
      by_cases h2 : a' = a
      · subst h2
        rw [if_pos rfl, if_pos (by omega), Nat.sub_self, List.getD_cons_zero]
      · rw [if_neg h2, if_neg (by omega)]

/-- Two canonical memories that read alike everywhere are equal. -/
theorem Memory.ext_read {m m' : Memory} (h : m.wf = true) (h' : m'.wf = true) (e : ∀ a, m.read a = m'.read a) :
    m = m' := by
  rw [Memory.wf_iff] at h h'
  induction m generalizing m' with
  | nil =>
    cases m' with
    | nil => rfl
    | cons d m' =>
      have := e d.1
      rw [Memory.read_nil, Memory.read_cons, if_pos rfl] at this
      exact absurd this.symm (h'.2 d (by simp))
  | cons c m ih =>
    cases m' with
    | nil =>
      have := e c.1
      rw [Memory.read_nil, Memory.read_cons, if_pos rfl] at this
      exact absurd this (h.2 c (by simp))
    | cons d m' =>
      obtain ⟨x, b⟩ := c
      obtain ⟨y, b'⟩ := d
      have hp := List.pairwise_cons.1 h.1
      have hp' := List.pairwise_cons.1 h'.1
      have hxy : x = y := by
        rcases Nat.lt_trichotomy x y with hlt | rfl | hlt
        · have := e x
          rw [Memory.read_cons, if_pos rfl, Memory.read_below] at this
          · exact absurd this (h.2 (x, b) (by simp))
          · intro c hc
            rcases List.mem_cons.1 hc with rfl | hc
            · exact hlt
            · exact Nat.lt_trans hlt (hp'.1 c hc)
        · rfl
        · have := (e y).symm
          rw [Memory.read_cons, if_pos rfl, Memory.read_below] at this
          · exact absurd this (h'.2 (y, b') (by simp))
          · intro c hc
            rcases List.mem_cons.1 hc with rfl | hc
            · exact hlt
            · exact Nat.lt_trans hlt (hp.1 c hc)
      subst hxy
      have hb : b = b' := by
        have := e x
        rwa [Memory.read_cons, if_pos rfl, Memory.read_cons, if_pos rfl] at this
      subst hb
      have := ih (m' := m') ⟨hp.2, fun c hc => h.2 c (by simp [hc])⟩ ⟨hp'.2, fun c hc => h'.2 c (by simp [hc])⟩
        fun a => by
          by_cases ha : a = x
          · subst ha
            rw [Memory.read_below fun c hc => hp.1 c hc, Memory.read_below fun c hc => hp'.1 c hc]
          · have := e a
            rwa [Memory.read_cons, if_neg ha, Memory.read_cons, if_neg ha] at this
      rw [this]

/-! ### The memory of a state -/

/-- MemRead gives n bytes. -/
@[simp] theorem memRead_length (s : State) (a n : Nat) : (memRead s a n).length = n := by simp [memRead]

/-- Byte i of MemRead. -/
theorem memRead_getElem (s : State) (a n i : Nat) (h : i < (memRead s a n).length) :
    (memRead s a n)[i] = s.buf.read (a + i) := by simp [memRead]

/-- MemRead depends on BUF only. -/
theorem memRead_congr {s t : State} (h : t.buf = s.buf) (a n : Nat) : memRead t a n = memRead s a n := by
  simp [memRead, h]

/-- MemWrite keeps the canonical form. -/
theorem memWrite_wf {s : State} (h : s.buf.wf = true) (a n : Nat) (B : Bytes) : (memWrite a n B s).buf.wf = true :=
  Memory.writeBytes_wf h a _

/-- MemWrite inside BUF keeps every cell inside BUF. -/
theorem memWrite_inBuf {s : State} (h : s.buf.inBuf = true) {a n : Nat} (ha : a + n ≤ Config.bufBytes) (B : Bytes) :
    (memWrite a n B s).buf.inBuf = true := by
  apply Memory.writeBytes_inBuf h
  have : (B.take n).length ≤ n := by simp
  omega

/-- Outside the n bytes written nothing changes. -/
theorem memWrite_read_outside {s : State} (h : s.buf.wf = true) {a n : Nat} (B : Bytes) {x : Nat}
    (hx : x < a ∨ a + n ≤ x) : (memWrite a n B s).buf.read x = s.buf.read x := by
  have : (B.take n).length ≤ n := by simp
  rw [show (memWrite a n B s).buf = s.buf.writeBytes a (B.take n) from rfl, Memory.read_writeBytes h,
    if_neg (by omega)]

/-- Reading back a byte string just written. -/
theorem memRead_memWrite {s : State} (h : s.buf.wf = true) (a n : Nat) (B : Bytes) (hB : B.length = n) :
    memRead (memWrite a n B s) a n = B := by
  subst hB
  apply List.ext_getElem (by simp)
  intro i h1 h2
  rw [memRead_getElem, show (memWrite a B.length B s).buf = s.buf.writeBytes a (B.take B.length) from rfl,
    List.take_length, Memory.read_writeBytes h, if_pos (by omega), show a + i - a = i by omega,
    List.getD_eq_getElem?_getD, List.getElem?_eq_getElem h2, Option.getD_some]

end Sys2Proof.Machine
end

