-- ==== Sys2Proof/Laws/State.lean ====
section
/-! SUPPORT. What each state operation leaves in each field: one lemma per operation and field, true by definition. -/

namespace Sys2Proof.Machine

@[simp] theorem writeF_f (d : Fin 16) (v : U256) (s : State) : (writeF d v s).f = s.f.set d.val v := rfl
@[simp] theorem writeF_p (d : Fin 16) (v : U256) (s : State) : (writeF d v s).p = s.p := rfl
@[simp] theorem writeF_r (d : Fin 16) (v : U256) (s : State) : (writeF d v s).r = s.r := rfl
@[simp] theorem writeF_cmd (d : Fin 16) (v : U256) (s : State) : (writeF d v s).cmd = s.cmd := rfl
@[simp] theorem writeF_status (d : Fin 16) (v : U256) (s : State) : (writeF d v s).status = { s.status with z := zFlag v } := rfl
@[simp] theorem writeF_ie (d : Fin 16) (v : U256) (s : State) : (writeF d v s).ie = s.ie := rfl
@[simp] theorem writeF_arg (d : Fin 16) (v : U256) (s : State) : (writeF d v s).arg = s.arg := rfl
@[simp] theorem writeF_rlen0 (d : Fin 16) (v : U256) (s : State) : (writeF d v s).rlen0 = s.rlen0 := rfl
@[simp] theorem writeF_rlen1 (d : Fin 16) (v : U256) (s : State) : (writeF d v s).rlen1 = s.rlen1 := rfl
@[simp] theorem writeF_strength (d : Fin 16) (v : U256) (s : State) : (writeF d v s).strength = s.strength := rfl
@[simp] theorem writeF_buf (d : Fin 16) (v : U256) (s : State) : (writeF d v s).buf = s.buf := rfl
@[simp] theorem writeF_engine (d : Fin 16) (v : U256) (s : State) : (writeF d v s).engine = s.engine := rfl
@[simp] theorem writeF_hRdata (d : Fin 16) (v : U256) (s : State) : (writeF d v s).hRdata = s.hRdata := rfl
@[simp] theorem writeF_agenda (d : Fin 16) (v : U256) (s : State) : (writeF d v s).agenda = s.agenda := rfl

@[simp] theorem writeP_f (d : Fin 4) (Q : Point) (s : State) : (writeP d Q s).f = s.f := rfl
@[simp] theorem writeP_p (d : Fin 4) (Q : Point) (s : State) : (writeP d Q s).p = s.p.set d.val Q := rfl
@[simp] theorem writeP_r (d : Fin 4) (Q : Point) (s : State) : (writeP d Q s).r = s.r := rfl
@[simp] theorem writeP_cmd (d : Fin 4) (Q : Point) (s : State) : (writeP d Q s).cmd = s.cmd := rfl
@[simp] theorem writeP_status (d : Fin 4) (Q : Point) (s : State) : (writeP d Q s).status = { s.status with inf := infFlag Q } := rfl
@[simp] theorem writeP_ie (d : Fin 4) (Q : Point) (s : State) : (writeP d Q s).ie = s.ie := rfl
@[simp] theorem writeP_arg (d : Fin 4) (Q : Point) (s : State) : (writeP d Q s).arg = s.arg := rfl
@[simp] theorem writeP_rlen0 (d : Fin 4) (Q : Point) (s : State) : (writeP d Q s).rlen0 = s.rlen0 := rfl
@[simp] theorem writeP_rlen1 (d : Fin 4) (Q : Point) (s : State) : (writeP d Q s).rlen1 = s.rlen1 := rfl
@[simp] theorem writeP_strength (d : Fin 4) (Q : Point) (s : State) : (writeP d Q s).strength = s.strength := rfl
@[simp] theorem writeP_buf (d : Fin 4) (Q : Point) (s : State) : (writeP d Q s).buf = s.buf := rfl
@[simp] theorem writeP_engine (d : Fin 4) (Q : Point) (s : State) : (writeP d Q s).engine = s.engine := rfl
@[simp] theorem writeP_hRdata (d : Fin 4) (Q : Point) (s : State) : (writeP d Q s).hRdata = s.hRdata := rfl
@[simp] theorem writeP_agenda (d : Fin 4) (Q : Point) (s : State) : (writeP d Q s).agenda = s.agenda := rfl

@[simp] theorem writeR_f (d : Fin 8) (f : Poly) (s : State) : (writeR d f s).f = s.f := rfl
@[simp] theorem writeR_p (d : Fin 8) (f : Poly) (s : State) : (writeR d f s).p = s.p := rfl
@[simp] theorem writeR_r (d : Fin 8) (f : Poly) (s : State) : (writeR d f s).r = s.r.set d.val f := rfl
@[simp] theorem writeR_cmd (d : Fin 8) (f : Poly) (s : State) : (writeR d f s).cmd = s.cmd := rfl
@[simp] theorem writeR_status (d : Fin 8) (f : Poly) (s : State) : (writeR d f s).status = s.status := rfl
@[simp] theorem writeR_ie (d : Fin 8) (f : Poly) (s : State) : (writeR d f s).ie = s.ie := rfl
@[simp] theorem writeR_arg (d : Fin 8) (f : Poly) (s : State) : (writeR d f s).arg = s.arg := rfl
@[simp] theorem writeR_rlen0 (d : Fin 8) (f : Poly) (s : State) : (writeR d f s).rlen0 = s.rlen0 := rfl
@[simp] theorem writeR_rlen1 (d : Fin 8) (f : Poly) (s : State) : (writeR d f s).rlen1 = s.rlen1 := rfl
@[simp] theorem writeR_strength (d : Fin 8) (f : Poly) (s : State) : (writeR d f s).strength = s.strength := rfl
@[simp] theorem writeR_buf (d : Fin 8) (f : Poly) (s : State) : (writeR d f s).buf = s.buf := rfl
@[simp] theorem writeR_engine (d : Fin 8) (f : Poly) (s : State) : (writeR d f s).engine = s.engine := rfl
@[simp] theorem writeR_hRdata (d : Fin 8) (f : Poly) (s : State) : (writeR d f s).hRdata = s.hRdata := rfl
@[simp] theorem writeR_agenda (d : Fin 8) (f : Poly) (s : State) : (writeR d f s).agenda = s.agenda := rfl

@[simp] theorem writeValid_f (v inf : Bool) (s : State) : (writeValid v inf s).f = s.f := rfl
@[simp] theorem writeValid_p (v inf : Bool) (s : State) : (writeValid v inf s).p = s.p := rfl
@[simp] theorem writeValid_r (v inf : Bool) (s : State) : (writeValid v inf s).r = s.r := rfl
@[simp] theorem writeValid_cmd (v inf : Bool) (s : State) : (writeValid v inf s).cmd = s.cmd := rfl
@[simp] theorem writeValid_status (v inf : Bool) (s : State) : (writeValid v inf s).status = { s.status with v := v, inf := inf } := rfl
@[simp] theorem writeValid_ie (v inf : Bool) (s : State) : (writeValid v inf s).ie = s.ie := rfl
@[simp] theorem writeValid_arg (v inf : Bool) (s : State) : (writeValid v inf s).arg = s.arg := rfl
@[simp] theorem writeValid_rlen0 (v inf : Bool) (s : State) : (writeValid v inf s).rlen0 = s.rlen0 := rfl
@[simp] theorem writeValid_rlen1 (v inf : Bool) (s : State) : (writeValid v inf s).rlen1 = s.rlen1 := rfl
@[simp] theorem writeValid_strength (v inf : Bool) (s : State) : (writeValid v inf s).strength = s.strength := rfl
@[simp] theorem writeValid_buf (v inf : Bool) (s : State) : (writeValid v inf s).buf = s.buf := rfl
@[simp] theorem writeValid_engine (v inf : Bool) (s : State) : (writeValid v inf s).engine = s.engine := rfl
@[simp] theorem writeValid_hRdata (v inf : Bool) (s : State) : (writeValid v inf s).hRdata = s.hRdata := rfl
@[simp] theorem writeValid_agenda (v inf : Bool) (s : State) : (writeValid v inf s).agenda = s.agenda := rfl

@[simp] theorem writeRlen0_f (n : Nat) (s : State) : (writeRlen0 n s).f = s.f := rfl
@[simp] theorem writeRlen0_p (n : Nat) (s : State) : (writeRlen0 n s).p = s.p := rfl
@[simp] theorem writeRlen0_r (n : Nat) (s : State) : (writeRlen0 n s).r = s.r := rfl
@[simp] theorem writeRlen0_cmd (n : Nat) (s : State) : (writeRlen0 n s).cmd = s.cmd := rfl
@[simp] theorem writeRlen0_status (n : Nat) (s : State) : (writeRlen0 n s).status = s.status := rfl
@[simp] theorem writeRlen0_ie (n : Nat) (s : State) : (writeRlen0 n s).ie = s.ie := rfl
@[simp] theorem writeRlen0_arg (n : Nat) (s : State) : (writeRlen0 n s).arg = s.arg := rfl
@[simp] theorem writeRlen0_rlen0 (n : Nat) (s : State) : (writeRlen0 n s).rlen0 = BitVec.ofNat 32 n := rfl
@[simp] theorem writeRlen0_rlen1 (n : Nat) (s : State) : (writeRlen0 n s).rlen1 = s.rlen1 := rfl
@[simp] theorem writeRlen0_strength (n : Nat) (s : State) : (writeRlen0 n s).strength = s.strength := rfl
@[simp] theorem writeRlen0_buf (n : Nat) (s : State) : (writeRlen0 n s).buf = s.buf := rfl
@[simp] theorem writeRlen0_engine (n : Nat) (s : State) : (writeRlen0 n s).engine = s.engine := rfl
@[simp] theorem writeRlen0_hRdata (n : Nat) (s : State) : (writeRlen0 n s).hRdata = s.hRdata := rfl
@[simp] theorem writeRlen0_agenda (n : Nat) (s : State) : (writeRlen0 n s).agenda = s.agenda := rfl

@[simp] theorem writeRlen1_f (n : Nat) (s : State) : (writeRlen1 n s).f = s.f := rfl
@[simp] theorem writeRlen1_p (n : Nat) (s : State) : (writeRlen1 n s).p = s.p := rfl
@[simp] theorem writeRlen1_r (n : Nat) (s : State) : (writeRlen1 n s).r = s.r := rfl
@[simp] theorem writeRlen1_cmd (n : Nat) (s : State) : (writeRlen1 n s).cmd = s.cmd := rfl
@[simp] theorem writeRlen1_status (n : Nat) (s : State) : (writeRlen1 n s).status = s.status := rfl
@[simp] theorem writeRlen1_ie (n : Nat) (s : State) : (writeRlen1 n s).ie = s.ie := rfl
@[simp] theorem writeRlen1_arg (n : Nat) (s : State) : (writeRlen1 n s).arg = s.arg := rfl
@[simp] theorem writeRlen1_rlen0 (n : Nat) (s : State) : (writeRlen1 n s).rlen0 = s.rlen0 := rfl
@[simp] theorem writeRlen1_rlen1 (n : Nat) (s : State) : (writeRlen1 n s).rlen1 = BitVec.ofNat 32 n := rfl
@[simp] theorem writeRlen1_strength (n : Nat) (s : State) : (writeRlen1 n s).strength = s.strength := rfl
@[simp] theorem writeRlen1_buf (n : Nat) (s : State) : (writeRlen1 n s).buf = s.buf := rfl
@[simp] theorem writeRlen1_engine (n : Nat) (s : State) : (writeRlen1 n s).engine = s.engine := rfl
@[simp] theorem writeRlen1_hRdata (n : Nat) (s : State) : (writeRlen1 n s).hRdata = s.hRdata := rfl
@[simp] theorem writeRlen1_agenda (n : Nat) (s : State) : (writeRlen1 n s).agenda = s.agenda := rfl

@[simp] theorem writeStrength_f (x : Strength) (s : State) : (writeStrength x s).f = s.f := rfl
@[simp] theorem writeStrength_p (x : Strength) (s : State) : (writeStrength x s).p = s.p := rfl
@[simp] theorem writeStrength_r (x : Strength) (s : State) : (writeStrength x s).r = s.r := rfl
@[simp] theorem writeStrength_cmd (x : Strength) (s : State) : (writeStrength x s).cmd = s.cmd := rfl
@[simp] theorem writeStrength_status (x : Strength) (s : State) : (writeStrength x s).status = s.status := rfl
@[simp] theorem writeStrength_ie (x : Strength) (s : State) : (writeStrength x s).ie = s.ie := rfl
@[simp] theorem writeStrength_arg (x : Strength) (s : State) : (writeStrength x s).arg = s.arg := rfl
@[simp] theorem writeStrength_rlen0 (x : Strength) (s : State) : (writeStrength x s).rlen0 = s.rlen0 := rfl
@[simp] theorem writeStrength_rlen1 (x : Strength) (s : State) : (writeStrength x s).rlen1 = s.rlen1 := rfl
@[simp] theorem writeStrength_strength (x : Strength) (s : State) : (writeStrength x s).strength = x := rfl
@[simp] theorem writeStrength_buf (x : Strength) (s : State) : (writeStrength x s).buf = s.buf := rfl
@[simp] theorem writeStrength_engine (x : Strength) (s : State) : (writeStrength x s).engine = s.engine := rfl
@[simp] theorem writeStrength_hRdata (x : Strength) (s : State) : (writeStrength x s).hRdata = s.hRdata := rfl
@[simp] theorem writeStrength_agenda (x : Strength) (s : State) : (writeStrength x s).agenda = s.agenda := rfl

@[simp] theorem memWrite_f (a n : Nat) (B : Bytes) (s : State) : (memWrite a n B s).f = s.f := rfl
@[simp] theorem memWrite_p (a n : Nat) (B : Bytes) (s : State) : (memWrite a n B s).p = s.p := rfl
@[simp] theorem memWrite_r (a n : Nat) (B : Bytes) (s : State) : (memWrite a n B s).r = s.r := rfl
@[simp] theorem memWrite_cmd (a n : Nat) (B : Bytes) (s : State) : (memWrite a n B s).cmd = s.cmd := rfl
@[simp] theorem memWrite_status (a n : Nat) (B : Bytes) (s : State) : (memWrite a n B s).status = s.status := rfl
@[simp] theorem memWrite_ie (a n : Nat) (B : Bytes) (s : State) : (memWrite a n B s).ie = s.ie := rfl
@[simp] theorem memWrite_arg (a n : Nat) (B : Bytes) (s : State) : (memWrite a n B s).arg = s.arg := rfl
@[simp] theorem memWrite_rlen0 (a n : Nat) (B : Bytes) (s : State) : (memWrite a n B s).rlen0 = s.rlen0 := rfl
@[simp] theorem memWrite_rlen1 (a n : Nat) (B : Bytes) (s : State) : (memWrite a n B s).rlen1 = s.rlen1 := rfl
@[simp] theorem memWrite_strength (a n : Nat) (B : Bytes) (s : State) : (memWrite a n B s).strength = s.strength := rfl
@[simp] theorem memWrite_buf (a n : Nat) (B : Bytes) (s : State) : (memWrite a n B s).buf = s.buf.writeBytes a (B.take n) := rfl
@[simp] theorem memWrite_engine (a n : Nat) (B : Bytes) (s : State) : (memWrite a n B s).engine = s.engine := rfl
@[simp] theorem memWrite_hRdata (a n : Nat) (B : Bytes) (s : State) : (memWrite a n B s).hRdata = s.hRdata := rfl
@[simp] theorem memWrite_agenda (a n : Nat) (B : Bytes) (s : State) : (memWrite a n B s).agenda = s.agenda := rfl

@[simp] theorem eraseData_f (s : State) : (eraseData s).f = Vector.replicate 16 0 := rfl
@[simp] theorem eraseData_p (s : State) : (eraseData s).p = Vector.replicate 4 Point.zero := rfl
@[simp] theorem eraseData_r (s : State) : (eraseData s).r = Vector.replicate 8 Poly.zero := rfl
@[simp] theorem eraseData_cmd (s : State) : (eraseData s).cmd = s.cmd := rfl
@[simp] theorem eraseData_status (s : State) : (eraseData s).status = { s.status with z := false, inf := false, v := false } := rfl
@[simp] theorem eraseData_ie (s : State) : (eraseData s).ie = s.ie := rfl
@[simp] theorem eraseData_arg (s : State) : (eraseData s).arg = Vector.replicate 8 0 := rfl
@[simp] theorem eraseData_rlen0 (s : State) : (eraseData s).rlen0 = 0 := rfl
@[simp] theorem eraseData_rlen1 (s : State) : (eraseData s).rlen1 = 0 := rfl
@[simp] theorem eraseData_strength (s : State) : (eraseData s).strength = s.strength := rfl
@[simp] theorem eraseData_buf (s : State) : (eraseData s).buf = [] := rfl
@[simp] theorem eraseData_engine (s : State) : (eraseData s).engine = s.engine := rfl
@[simp] theorem eraseData_hRdata (s : State) : (eraseData s).hRdata = s.hRdata := rfl
@[simp] theorem eraseData_agenda (s : State) : (eraseData s).agenda = s.agenda := rfl

@[simp] theorem accept_f (w : Word) (s : State) : (accept w s).f = s.f := rfl
@[simp] theorem accept_p (w : Word) (s : State) : (accept w s).p = s.p := rfl
@[simp] theorem accept_r (w : Word) (s : State) : (accept w s).r = s.r := rfl
@[simp] theorem accept_cmd (w : Word) (s : State) : (accept w s).cmd = w := rfl
@[simp] theorem accept_status (w : Word) (s : State) : (accept w s).status = { s.status with busy := true, done := false } := rfl
@[simp] theorem accept_ie (w : Word) (s : State) : (accept w s).ie = s.ie := rfl
@[simp] theorem accept_arg (w : Word) (s : State) : (accept w s).arg = s.arg := rfl
@[simp] theorem accept_rlen0 (w : Word) (s : State) : (accept w s).rlen0 = s.rlen0 := rfl
@[simp] theorem accept_rlen1 (w : Word) (s : State) : (accept w s).rlen1 = s.rlen1 := rfl
@[simp] theorem accept_strength (w : Word) (s : State) : (accept w s).strength = s.strength := rfl
@[simp] theorem accept_buf (w : Word) (s : State) : (accept w s).buf = s.buf := rfl
@[simp] theorem accept_engine (w : Word) (s : State) : (accept w s).engine = Engine.idle := rfl
@[simp] theorem accept_hRdata (w : Word) (s : State) : (accept w s).hRdata = s.hRdata := rfl
@[simp] theorem accept_agenda (w : Word) (s : State) : (accept w s).agenda = s.agenda := rfl

@[simp] theorem complete_f (c : Code) (s : State) : (complete c s).f = s.f := rfl
@[simp] theorem complete_p (c : Code) (s : State) : (complete c s).p = s.p := rfl
@[simp] theorem complete_r (c : Code) (s : State) : (complete c s).r = s.r := rfl
@[simp] theorem complete_cmd (c : Code) (s : State) : (complete c s).cmd = s.cmd := rfl
@[simp] theorem complete_status (c : Code) (s : State) : (complete c s).status = { s.status with busy := false, done := true, code := c } := rfl
@[simp] theorem complete_ie (c : Code) (s : State) : (complete c s).ie = s.ie := rfl
@[simp] theorem complete_arg (c : Code) (s : State) : (complete c s).arg = s.arg := rfl
@[simp] theorem complete_rlen0 (c : Code) (s : State) : (complete c s).rlen0 = s.rlen0 := rfl
@[simp] theorem complete_rlen1 (c : Code) (s : State) : (complete c s).rlen1 = s.rlen1 := rfl
@[simp] theorem complete_strength (c : Code) (s : State) : (complete c s).strength = s.strength := rfl
@[simp] theorem complete_buf (c : Code) (s : State) : (complete c s).buf = s.buf := rfl
@[simp] theorem complete_engine (c : Code) (s : State) : (complete c s).engine = Engine.idle := rfl
@[simp] theorem complete_hRdata (c : Code) (s : State) : (complete c s).hRdata = s.hRdata := rfl
@[simp] theorem complete_agenda (c : Code) (s : State) : (complete c s).agenda = s.agenda := rfl

@[simp] theorem acknowledge_f (s : State) : (acknowledge s).f = s.f := rfl
@[simp] theorem acknowledge_p (s : State) : (acknowledge s).p = s.p := rfl
@[simp] theorem acknowledge_r (s : State) : (acknowledge s).r = s.r := rfl
@[simp] theorem acknowledge_cmd (s : State) : (acknowledge s).cmd = s.cmd := rfl
@[simp] theorem acknowledge_status (s : State) : (acknowledge s).status = { s.status with done := false } := rfl
@[simp] theorem acknowledge_ie (s : State) : (acknowledge s).ie = s.ie := rfl
@[simp] theorem acknowledge_arg (s : State) : (acknowledge s).arg = s.arg := rfl
@[simp] theorem acknowledge_rlen0 (s : State) : (acknowledge s).rlen0 = s.rlen0 := rfl
@[simp] theorem acknowledge_rlen1 (s : State) : (acknowledge s).rlen1 = s.rlen1 := rfl
@[simp] theorem acknowledge_strength (s : State) : (acknowledge s).strength = s.strength := rfl
@[simp] theorem acknowledge_buf (s : State) : (acknowledge s).buf = s.buf := rfl
@[simp] theorem acknowledge_engine (s : State) : (acknowledge s).engine = s.engine := rfl
@[simp] theorem acknowledge_hRdata (s : State) : (acknowledge s).hRdata = s.hRdata := rfl
@[simp] theorem acknowledge_agenda (s : State) : (acknowledge s).agenda = s.agenda := rfl

@[simp] theorem dropWrite_f (s : State) : (dropWrite s).f = s.f := rfl
@[simp] theorem dropWrite_p (s : State) : (dropWrite s).p = s.p := rfl
@[simp] theorem dropWrite_r (s : State) : (dropWrite s).r = s.r := rfl
@[simp] theorem dropWrite_cmd (s : State) : (dropWrite s).cmd = s.cmd := rfl
@[simp] theorem dropWrite_status (s : State) : (dropWrite s).status = { s.status with werr := true } := rfl
@[simp] theorem dropWrite_ie (s : State) : (dropWrite s).ie = s.ie := rfl
@[simp] theorem dropWrite_arg (s : State) : (dropWrite s).arg = s.arg := rfl
@[simp] theorem dropWrite_rlen0 (s : State) : (dropWrite s).rlen0 = s.rlen0 := rfl
@[simp] theorem dropWrite_rlen1 (s : State) : (dropWrite s).rlen1 = s.rlen1 := rfl
@[simp] theorem dropWrite_strength (s : State) : (dropWrite s).strength = s.strength := rfl
@[simp] theorem dropWrite_buf (s : State) : (dropWrite s).buf = s.buf := rfl
@[simp] theorem dropWrite_engine (s : State) : (dropWrite s).engine = s.engine := rfl
@[simp] theorem dropWrite_hRdata (s : State) : (dropWrite s).hRdata = s.hRdata := rfl
@[simp] theorem dropWrite_agenda (s : State) : (dropWrite s).agenda = s.agenda := rfl

@[simp] theorem clearWerr_f (s : State) : (clearWerr s).f = s.f := rfl
@[simp] theorem clearWerr_p (s : State) : (clearWerr s).p = s.p := rfl
@[simp] theorem clearWerr_r (s : State) : (clearWerr s).r = s.r := rfl
@[simp] theorem clearWerr_cmd (s : State) : (clearWerr s).cmd = s.cmd := rfl
@[simp] theorem clearWerr_status (s : State) : (clearWerr s).status = { s.status with werr := false } := rfl
@[simp] theorem clearWerr_ie (s : State) : (clearWerr s).ie = s.ie := rfl
@[simp] theorem clearWerr_arg (s : State) : (clearWerr s).arg = s.arg := rfl
@[simp] theorem clearWerr_rlen0 (s : State) : (clearWerr s).rlen0 = s.rlen0 := rfl
@[simp] theorem clearWerr_rlen1 (s : State) : (clearWerr s).rlen1 = s.rlen1 := rfl
@[simp] theorem clearWerr_strength (s : State) : (clearWerr s).strength = s.strength := rfl
@[simp] theorem clearWerr_buf (s : State) : (clearWerr s).buf = s.buf := rfl
@[simp] theorem clearWerr_engine (s : State) : (clearWerr s).engine = s.engine := rfl
@[simp] theorem clearWerr_hRdata (s : State) : (clearWerr s).hRdata = s.hRdata := rfl
@[simp] theorem clearWerr_agenda (s : State) : (clearWerr s).agenda = s.agenda := rfl

@[simp] theorem keepParsing_f (s : State) : (keepParsing s).f = s.f := rfl
@[simp] theorem keepParsing_p (s : State) : (keepParsing s).p = s.p := rfl
@[simp] theorem keepParsing_r (s : State) : (keepParsing s).r = s.r := rfl
@[simp] theorem keepParsing_cmd (s : State) : (keepParsing s).cmd = s.cmd := rfl
@[simp] theorem keepParsing_status (s : State) : (keepParsing s).status = s.status := rfl
@[simp] theorem keepParsing_ie (s : State) : (keepParsing s).ie = s.ie := rfl
@[simp] theorem keepParsing_arg (s : State) : (keepParsing s).arg = s.arg := rfl
@[simp] theorem keepParsing_rlen0 (s : State) : (keepParsing s).rlen0 = s.rlen0 := rfl
@[simp] theorem keepParsing_rlen1 (s : State) : (keepParsing s).rlen1 = s.rlen1 := rfl
@[simp] theorem keepParsing_strength (s : State) : (keepParsing s).strength = s.strength := rfl
@[simp] theorem keepParsing_buf (s : State) : (keepParsing s).buf = s.buf := rfl
@[simp] theorem keepParsing_engine (s : State) : (keepParsing s).engine = { s.engine with parseRound := s.engine.parseRound + 1 } := rfl
@[simp] theorem keepParsing_hRdata (s : State) : (keepParsing s).hRdata = s.hRdata := rfl
@[simp] theorem keepParsing_agenda (s : State) : (keepParsing s).agenda = s.agenda := rfl

@[simp] theorem hostReadMove_f (a : BitVec 15) (s : State) : (hostReadMove a s).f = s.f := rfl
@[simp] theorem hostReadMove_p (a : BitVec 15) (s : State) : (hostReadMove a s).p = s.p := rfl
@[simp] theorem hostReadMove_r (a : BitVec 15) (s : State) : (hostReadMove a s).r = s.r := rfl
@[simp] theorem hostReadMove_cmd (a : BitVec 15) (s : State) : (hostReadMove a s).cmd = s.cmd := rfl
@[simp] theorem hostReadMove_status (a : BitVec 15) (s : State) : (hostReadMove a s).status = s.status := rfl
@[simp] theorem hostReadMove_ie (a : BitVec 15) (s : State) : (hostReadMove a s).ie = s.ie := rfl
@[simp] theorem hostReadMove_arg (a : BitVec 15) (s : State) : (hostReadMove a s).arg = s.arg := rfl
@[simp] theorem hostReadMove_rlen0 (a : BitVec 15) (s : State) : (hostReadMove a s).rlen0 = s.rlen0 := rfl
@[simp] theorem hostReadMove_rlen1 (a : BitVec 15) (s : State) : (hostReadMove a s).rlen1 = s.rlen1 := rfl
@[simp] theorem hostReadMove_strength (a : BitVec 15) (s : State) : (hostReadMove a s).strength = s.strength := rfl
@[simp] theorem hostReadMove_buf (a : BitVec 15) (s : State) : (hostReadMove a s).buf = s.buf := rfl
@[simp] theorem hostReadMove_engine (a : BitVec 15) (s : State) : (hostReadMove a s).engine = s.engine := rfl
@[simp] theorem hostReadMove_hRdata (a : BitVec 15) (s : State) : (hostReadMove a s).hRdata = hostRead s a := rfl
@[simp] theorem hostReadMove_agenda (a : BitVec 15) (s : State) : (hostReadMove a s).agenda = s.agenda := rfl

@[simp] theorem placeCommand_f (w : Word) (s : State) : (placeCommand w s).f = s.f := rfl
@[simp] theorem placeCommand_p (w : Word) (s : State) : (placeCommand w s).p = s.p := rfl
@[simp] theorem placeCommand_r (w : Word) (s : State) : (placeCommand w s).r = s.r := rfl
@[simp] theorem placeCommand_cmd (w : Word) (s : State) : (placeCommand w s).cmd = w := rfl
@[simp] theorem placeCommand_status (w : Word) (s : State) : (placeCommand w s).status = { s.status with busy := true, done := false } := rfl
@[simp] theorem placeCommand_ie (w : Word) (s : State) : (placeCommand w s).ie = s.ie := rfl
@[simp] theorem placeCommand_arg (w : Word) (s : State) : (placeCommand w s).arg = s.arg := rfl
@[simp] theorem placeCommand_rlen0 (w : Word) (s : State) : (placeCommand w s).rlen0 = s.rlen0 := rfl
@[simp] theorem placeCommand_rlen1 (w : Word) (s : State) : (placeCommand w s).rlen1 = s.rlen1 := rfl
@[simp] theorem placeCommand_strength (w : Word) (s : State) : (placeCommand w s).strength = s.strength := rfl
@[simp] theorem placeCommand_buf (w : Word) (s : State) : (placeCommand w s).buf = s.buf := rfl
@[simp] theorem placeCommand_engine (w : Word) (s : State) : (placeCommand w s).engine = Engine.idle := rfl
@[simp] theorem placeCommand_hRdata (w : Word) (s : State) : (placeCommand w s).hRdata = s.hRdata := rfl
@[simp] theorem placeCommand_agenda (w : Word) (s : State) : (placeCommand w s).agenda = .core :: s.agenda := rfl

/-! ### Reset -/

@[simp] theorem resetBlock_agenda (s : State) : (resetBlock s).agenda = s.agenda := rfl
@[simp] theorem resetBlock_status (s : State) : (resetBlock s).status = Status.reset := rfl
@[simp] theorem resetBlock_engine (s : State) : (resetBlock s).engine = Engine.idle := rfl
@[simp] theorem resetBlock_buf (s : State) : (resetBlock s).buf = [] := rfl
@[simp] theorem resetBlock_p (s : State) : (resetBlock s).p = Vector.replicate 4 Point.zero := rfl

/-! ### Reading a register file after writing it -/

@[simp] theorem readF_writeF_same (d : Fin 16) (v : U256) (s : State) : (writeF d v s).readF d = v := by
  simp [State.readF]

theorem readF_writeF_ne {d i : Fin 16} (v : U256) (s : State) (h : i ≠ d) : (writeF d v s).readF i = s.readF i := by
  have : d.val ≠ i.val := fun e => h (Fin.ext e.symm)
  simp [State.readF, this]

@[simp] theorem readP_writeP_same (d : Fin 4) (Q : Point) (s : State) : (writeP d Q s).readP d = Q := by
  simp [State.readP]

theorem readP_writeP_ne {d i : Fin 4} (Q : Point) (s : State) (h : i ≠ d) : (writeP d Q s).readP i = s.readP i := by
  have : d.val ≠ i.val := fun e => h (Fin.ext e.symm)
  simp [State.readP, this]

@[simp] theorem readR_writeR_same (d : Fin 8) (f : Poly) (s : State) : (writeR d f s).readR d = f := by
  simp [State.readR]

theorem readR_writeR_ne {d i : Fin 8} (f : Poly) (s : State) (h : i ≠ d) : (writeR d f s).readR i = s.readR i := by
  have : d.val ≠ i.val := fun e => h (Fin.ext e.symm)
  simp [State.readR, this]

/-- A register read depends on its register file only. -/
theorem readF_congr {s t : State} (h : t.f = s.f) (i : Fin 16) : t.readF i = s.readF i := by rw [State.readF, h]; rfl
theorem readP_congr {s t : State} (h : t.p = s.p) (i : Fin 4) : t.readP i = s.readP i := by rw [State.readP, h]; rfl
theorem readR_congr {s t : State} (h : t.r = s.r) (i : Fin 8) : t.readR i = s.readR i := by rw [State.readR, h]; rfl

end Sys2Proof.Machine
end

