-- ==== Sys2Proof/Laws/Ops.lean ====
section
/-! SUPPORT. One lemma for each shared operation that says everything it can do: range checks, completion, rejection, waiting. -/

namespace Sys2Proof.Machine

/-! ### Range checks -/

/-- The range check, as the inequality it is (R63). -/
@[simp] theorem fitsBuf_iff (a n : Nat) : fitsBuf a n = true ↔ a + n ≤ Config.bufBytes := decide_eq_true_iff

@[simp] theorem fitsBuf_eq_false_iff (a n : Nat) : fitsBuf a n = false ↔ ¬ a + n ≤ Config.bufBytes := decide_eq_false_iff_not

@[simp] theorem descFits_iff (s : State) (i : Fin 4) :
    descFits s i = true ↔ descAddr s i + descCount s i ≤ Config.bufBytes := fitsBuf_iff _ _

@[simp] theorem descFits_eq_false_iff (s : State) (i : Fin 4) :
    descFits s i = false ↔ ¬ descAddr s i + descCount s i ≤ Config.bufBytes := fitsBuf_eq_false_iff _ _

/-- An answer's byte string has length count (R74). -/
@[simp] theorem EntropyAnswer.bytes_length (ans : EntropyAnswer) : ans.bytes.length = ans.count.toNat := by
  simp [EntropyAnswer.bytes]

/-- No answer is longer than a 16-bit count says (R79). -/
theorem EntropyAnswer.bytes_length_lt (ans : EntropyAnswer) : ans.bytes.length < 2 ^ 16 := by
  rw [ans.bytes_length]; exact ans.count.isLt

/-- A good answer: status 0 and a count within the bounds (R74). -/
theorem goodAnswer_iff (min max : BitVec 16) (ans : EntropyAnswer) :
    goodAnswer min max ans = true ↔ ans.status = 0 ∧ min.toNat ≤ ans.count.toNat ∧ ans.count.toNat ≤ max.toNat := by
  simp [goodAnswer, and_assoc]

/-! ### How a command can end -/

/-- `raise` answers the completion with the code, and nothing else. -/
theorem raise_eq_next_iff (c : Code) (s t : State) : raise c s = .next t ↔ t = complete c s := by
  simp [raise, eq_comm]

/-- `succeed` answers the completion with SUCCESS, and nothing else. -/
theorem succeed_eq_next_iff (s t : State) : succeed s = .next t ↔ t = complete .success s := by
  simp [succeed, eq_comm]

/-- A completion is Completed with its code. -/
@[simp] theorem complete_completed (c : Code) (s : State) : Completed c (complete c s) := ⟨rfl, rfl, rfl, rfl⟩

/-- A completion has one code. -/
@[simp] theorem completed_complete_iff (c c' : Code) (s : State) : Completed c (complete c' s) ↔ c = c' :=
  ⟨fun h => h.2.2.1.symm, fun h => h ▸ complete_completed c s⟩

/-- A completion writes nothing but CODE, BUSY, DONE and the progress of the command (R284). -/
theorem complete_sameData (c : Code) (s : State) : SameData s (complete c s) :=
  ⟨rfl, rfl, rfl, rfl, rfl, rfl, rfl, rfl, rfl, rfl, rfl, rfl, rfl, rfl, rfl, rfl⟩

/-- A rejection is the completion of the unchanged state. -/
theorem raise_rejected (c : Code) (s : State) : ∃ t, raise c s = .next t ∧ Rejected c s t :=
  ⟨_, rfl, complete_completed c s, complete_sameData c s⟩

/-- The state while a command waits for entropy: only the progress of the command differs (R74). -/
theorem requestEntropy_stillRunning (min max : BitVec 16) (s : State) :
    ∃ t, requestEntropy min max s = .next t ∧ StillRunning s t ∧
      t.engine = { s.engine with entReq := some { min := min, max := max }, entRsp := none } :=
  ⟨_, rfl, ⟨rfl, rfl, rfl, rfl, rfl, rfl, rfl, rfl, rfl, rfl, rfl, rfl, rfl, rfl, rfl, rfl, rfl⟩, rfl⟩

/-- The state while a Parse goes on: only the count of the core's moves differs (R327). -/
theorem keepParsing_stillRunning (s : State) : StillRunning s (keepParsing s) :=
  ⟨rfl, rfl, rfl, rfl, rfl, rfl, rfl, rfl, rfl, rfl, rfl, rfl, rfl, rfl, rfl, rfl, rfl⟩

/-- What a FIELD result leaves (R110). -/
theorem finishF_next (d : Fin 16) (v : Nat) (s : State) :
    ∃ t, finishF d v s = .next t ∧ Completed .success t ∧ t.readF d = BitVec.ofNat 256 v ∧
      (t.status.z = true ↔ t.readF d = 0) := by
  refine ⟨_, rfl, complete_completed _ _, readF_writeF_same d _ s, ?_⟩
  rw [show (complete .success (writeF d (BitVec.ofNat 256 v) s)).readF d = BitVec.ofNat 256 v from
    readF_writeF_same d _ s]
  simp [zFlag]

/-- What a POINT result leaves (R141). -/
theorem finishP_next (d : Fin 4) (Q : Point) (s : State) :
    ∃ t, finishP d Q s = .next t ∧ Completed .success t ∧ t.readP d = Q ∧ t.status.inf = Q.inf :=
  ⟨_, rfl, complete_completed _ _, readP_writeP_same d Q s, rfl⟩

/-- What a RING result leaves (R190). -/
theorem finishR_next (d : Fin 8) (f : Poly) (s : State) :
    ∃ t, finishR d f s = .next t ∧ Completed .success t ∧ t.readR d = f :=
  ⟨_, rfl, complete_completed _ _, readR_writeR_same d f s⟩

/-! ### The entropy port -/

/-- An answer that was asked for ends the wait (R74). -/
theorem deliverEntropy_asked {ans : EntropyAnswer} {s : State} {q : EntropyRequest} (h : s.engine.entReq = some q) :
    deliverEntropy ans s = { s with engine := { s.engine with entReq := none, entRsp := some ans } } := by
  simp [deliverEntropy, h]

/-- A late answer changes nothing, whatever is waited for (R311). -/
@[simp] theorem discardLateEntropy_eq (ans : EntropyAnswer) (s : State) : discardLateEntropy ans s = s := rfl

/-- An answer nobody asked for is discarded (R287). -/
theorem deliverEntropy_unasked {ans : EntropyAnswer} {s : State} (h : s.engine.entReq = none) :
    deliverEntropy ans s = s := by
  simp [deliverEntropy, h]

/-! ### The ARG registers as descriptors (R66) -/

@[simp] theorem descAddr_zero (s : State) : descAddr s 0 = (s.readArg 0).toNat := rfl
@[simp] theorem descCount_zero (s : State) : descCount s 0 = (s.readArg 1).toNat := rfl
@[simp] theorem descAddr_one (s : State) : descAddr s 1 = (s.readArg 2).toNat := rfl
@[simp] theorem descCount_one (s : State) : descCount s 1 = (s.readArg 3).toNat := rfl
@[simp] theorem descAddr_two (s : State) : descAddr s 2 = (s.readArg 4).toNat := rfl
@[simp] theorem descCount_two (s : State) : descCount s 2 = (s.readArg 5).toNat := rfl

end Sys2Proof.Machine
end

