-- ==== Sys2Proof/Laws/Exec.lean ====
section
/-! SUPPORT. What the meaning of a command can do, said once for all commands: `exec_effect`. Frames, the matrix of codes and
the invariant follow from it by cases, with no meaning unfolded again. -/

namespace Sys2Proof.Machine

/-- The states a command can answer from s. -/
inductive Effect (i : Instr) (s : State) : State → Prop
  /-- it is rejected, nothing written (R283) -/
  | rejects (c : Code) (hc : c ≠ .success) (hm : c ∈ codesOf i ∨ (c = .illegalCmd ∧ i.wellFormed = false)) :
    Effect i s (complete c s)
  /-- NOP -/
  | completes (h : i = .nop) : Effect i s (complete .success s)
  /-- ZEROIZE -/
  | erases (h : i = .zeroize) : Effect i s (complete .success (eraseData s))
  /-- one F register and Z -/
  | setsF (d : Fin 16) (v : U256) (h : destF i = some d) : Effect i s (complete .success (writeF d v s))
  /-- one P register and INF; INF is written as (0, 0) -/
  | setsP (d : Fin 4) (Q : Point) (h : destP i = some d) (hQ : (∀ j, (s.readP j).canonical) → Q.canonical) :
    Effect i s (complete .success (writeP d Q s))
  /-- one R register -/
  | setsR (d : Fin 8) (f : Poly) (h : destR i = some d) : Effect i s (complete .success (writeR d f s))
  /-- PVALID -/
  | validates (v inf : Bool) (h : isPvalid i = true) : Effect i s (complete .success (writeValid v inf s))
  /-- KYB_INIT -/
  | selects (x : Strength) (h : isKybInit i = true) : Effect i s (complete .success (writeStrength x s))
  /-- a store command -/
  | stores (a n : Nat) (B : Bytes) (h : storeRanges i s = [(a, n)]) (hf : a + n ≤ Config.bufBytes) :
    Effect i s (complete .success (memWrite a n B s))
  /-- an engine command with one output -/
  | outputs (a n : Nat) (B : Bytes) (l : Nat) (h : storeRanges i s = [(a, n)]) (hf : a + n ≤ Config.bufBytes)
    (hl : writesRlen0 i = true) : Effect i s (complete .success (writeRlen0 l (memWrite a n B s)))
  /-- an engine command with two outputs, the second written last (R80) -/
  | outputsTwo (a n : Nat) (B : Bytes) (l : Nat) (a' n' : Nat) (B' : Bytes) (l' : Nat)
    (h : storeRanges i s = [(a, n), (a', n')]) (hf : a + n ≤ Config.bufBytes) (hf' : a' + n' ≤ Config.bufBytes)
    (hl : writesRlen0 i = true) (hl' : writesRlen1 i = true) :
    Effect i s (complete .success (writeRlen1 l' (writeRlen0 l (memWrite a' n' B' (memWrite a n B s)))))
  /-- it asks for entropy and waits (R74) -/
  | asks (q : EntropyRequest) (h : entropyRequest i s.strength = some q) :
    Effect i s { s with engine := { s.engine with entReq := some q, entRsp := none } }
  /-- its Parse has not ended (R327) -/
  | parses (h : usesParse i = true) : Effect i s (keepParsing s)

/-- The meaning answers a next state, and one of which E holds. -/
def Answers (E : State → Prop) (r : Result) : Prop := ∃ t, r = .next t ∧ E t

/-- A meaning that rejects with a code of the matrix. -/
theorem Answers.rejecting {i : Instr} {s : State} {c : Code} (hc : c ≠ .success) (hm : c ∈ codesOf i) :
    Answers (Effect i s) (raise c s) := ⟨_, rfl, .rejects c hc (.inl hm)⟩

/-- A malformed term is rejected as an illegal word is (log 15). -/
theorem Answers.illegal {i : Instr} {s : State} (h : i.wellFormed = false) :
    Answers (Effect i s) (raise .illegalCmd s) := ⟨_, rfl, .rejects .illegalCmd (by decide) (.inr ⟨rfl, h⟩)⟩

/-- A point written from a curve point is canonical (R22). -/
theorem Point.ofCurve_canonical (P : CurvePoint) : (Point.ofCurve P).canonical := by
  cases P <;> simp [Point.ofCurve, Point.canonical]

/-- A point that is not INF is canonical. -/
theorem Point.affine_canonical (x y : U256) : Point.canonical { inf := false, x := x, y := y } := by
  simp [Point.canonical]

/-- Every command answers a next state, and one of these. -/
theorem exec_effect (i : Instr) (s : State) : Answers (Effect i s) (exec i s) := by
  cases i with
  | fadd d a b => exact ⟨_, rfl, .setsF d _ rfl⟩
  | fsub d a b => exact ⟨_, rfl, .setsF d _ rfl⟩
  | fmont d a b => exact ⟨_, rfl, .setsF d _ rfl⟩
  | fred d a => exact ⟨_, rfl, .setsF d _ rfl⟩
  | fredw d a b => exact ⟨_, rfl, .setsF d _ rfl⟩
  | finv d a => exact ⟨_, rfl, .setsF d _ rfl⟩
  | ftom d a => exact ⟨_, rfl, .setsF d _ rfl⟩
  | ffrom d a => exact ⟨_, rfl, .setsF d _ rfl⟩
  | fmov d a => exact ⟨_, rfl, .setsF d _ rfl⟩
  | sred d a => exact ⟨_, rfl, .setsF d _ rfl⟩
  | pgetx d a => exact ⟨_, rfl, .setsF d _ rfl⟩
  | pgety d a => exact ⟨_, rfl, .setsF d _ rfl⟩
  | nop => exact ⟨_, rfl, .completes rfl⟩
  | zeroize => exact ⟨_, rfl, .erases rfl⟩
  | fld d addr =>
    simp only [exec, execFld]
    split
    · exact .rejecting (by decide) (by simp [codesOf])
    · exact ⟨_, rfl, .setsF d _ rfl⟩
  | fst a addr =>
    simp only [exec, execFst]
    split
    · exact .rejecting (by decide) (by simp [codesOf])
    · next h => exact ⟨_, rfl, .stores _ _ _ rfl (by simpa using h)⟩
  | pld d addr =>
    simp only [exec, execPld]
    split
    · exact .rejecting (by decide) (by simp [codesOf])
    · exact ⟨_, rfl, .setsP d _ rfl fun _ => Point.affine_canonical _ _⟩
  | pst a addr =>
    simp only [exec, execPst]
    split
    · exact .rejecting (by decide) (by simp [codesOf])
    split
    · exact .rejecting (by decide) (by simp [codesOf])
    · next h _ => exact ⟨_, rfl, .stores _ _ _ rfl (by simpa using h)⟩
  | pmov d a => exact ⟨_, rfl, .setsP d _ rfl fun h => h a⟩
  | pbase d => exact ⟨_, rfl, .setsP d _ rfl fun _ => Point.ofCurve_canonical _⟩
  | pinf d => exact ⟨_, rfl, .setsP d _ rfl fun _ => Point.ofCurve_canonical _⟩
  | pvalid a => exact ⟨_, rfl, .validates _ _ rfl⟩
  | padd d a b =>
    simp only [exec, execPadd]
    split
    · exact .rejecting (by decide) (by simp [codesOf])
    · exact ⟨_, rfl, .setsP d _ rfl fun _ => Point.ofCurve_canonical _⟩
  | pdbl d a =>
    simp only [exec, execPdbl]
    split
    · exact .rejecting (by decide) (by simp [codesOf])
    · exact ⟨_, rfl, .setsP d _ rfl fun _ => Point.ofCurve_canonical _⟩
  | smul d a b =>
    simp only [exec, execSmul]
    split
    · exact .rejecting (by decide) (by simp [codesOf])
    · exact ⟨_, rfl, .setsP d _ rfl fun _ => Point.ofCurve_canonical _⟩
  | pset d a b => exact ⟨_, rfl, .setsP d _ rfl fun _ => Point.affine_canonical _ _⟩
  | rmov d a => exact ⟨_, rfl, .setsR d _ rfl⟩
  | radd d a b => exact ⟨_, rfl, .setsR d _ rfl⟩
  | rsub d a b => exact ⟨_, rfl, .setsR d _ rfl⟩
  | ntt d a => exact ⟨_, rfl, .setsR d _ rfl⟩
  | intt d a => exact ⟨_, rfl, .setsR d _ rfl⟩
  | pwmul d a b => exact ⟨_, rfl, .setsR d _ rfl⟩
  | polymul d a b => exact ⟨_, rfl, .setsR d _ rfl⟩
  | rld d addr =>
    simp only [exec, execRld]
    split
    · exact .rejecting (by decide) (by simp [codesOf])
    · exact ⟨_, rfl, .setsR d _ rfl⟩
  | rst a addr =>
    simp only [exec, execRst]
    split
    · exact .rejecting (by decide) (by simp [codesOf])
    · next h => exact ⟨_, rfl, .stores _ _ _ rfl (by simpa using h)⟩
  | cbd d eta addr =>
    simp only [exec, execCbd]
    split
    · next h => exact .illegal (by simpa [Instr.wellFormed] using h)
    split
    · exact .rejecting (by decide) (by simp [codesOf])
    · exact ⟨_, rfl, .setsR d _ rfl⟩
  | rcomp a d addr =>
    simp only [exec, execRcomp]
    split
    · next h => exact .illegal (by simpa [Instr.wellFormed] using h)
    split
    · exact .rejecting (by decide) (by simp [codesOf])
    · next _ h => exact ⟨_, rfl, .stores _ _ _ rfl (by simpa using h)⟩
  | rdecomp d bits addr =>
    simp only [exec, execRdecomp]
    split
    · next h => exact .illegal (by simpa [Instr.wellFormed] using h)
    split
    · exact .rejecting (by decide) (by simp [codesOf])
    · exact ⟨_, rfl, .setsR d _ rfl⟩
  | sampleu d a b addr =>
    simp only [exec, execSampleu, sampleuWith, finishSample]
    split
    · exact .rejecting (by decide) (by simp [codesOf])
    split
    · exact ⟨_, rfl, .parses rfl⟩
    · exact ⟨_, rfl, .setsR d _ rfl⟩
  | kybInit x =>
    simp only [exec, execKybInit]
    split
    · exact .rejecting (by decide) (by simp [codesOf])
    · exact ⟨_, rfl, .selects _ rfl⟩
  | ecdhKeygen =>
    simp only [exec, execEcdhKeygen]
    split
    · exact .rejecting (by decide) (by simp [codesOf])
    next h0 =>
    split
    · exact .rejecting (by decide) (by simp [codesOf])
    next h1 =>
    split
    · exact ⟨_, rfl, .asks _ rfl⟩
    split
    · exact .rejecting (by decide) (by simp [codesOf])
    split
    · exact ⟨_, rfl, .asks _ rfl⟩
    · simp at h0 h1
      exact ⟨_, rfl, .outputsTwo _ _ _ _ _ _ _ _ rfl (by simp; omega) (by simp; omega) rfl rfl⟩
  | ecdhSecret =>
    simp only [exec, execEcdhSecret]
    split
    · exact .rejecting (by decide) (by simp [codesOf])
    next h0 =>
    split
    · exact .rejecting (by decide) (by simp [codesOf])
    next h1 =>
    split
    · exact .rejecting (by decide) (by simp [codesOf])
    split
    · exact .rejecting (by decide) (by simp [codesOf])
    split
    · exact .rejecting (by decide) (by simp [codesOf])
    split
    · exact .rejecting (by decide) (by simp [codesOf])
    split
    · exact .rejecting (by decide) (by simp [codesOf])
    · simp at h0 h1
      exact ⟨_, rfl, .outputs _ _ _ _ rfl (by simp; omega) rfl⟩
  | kybKeygen =>
    simp only [exec, execKybKeygen, kybKeygenWith]
    split
    · exact .rejecting (by decide) (by simp [codesOf])
    next hs =>
    split
    · exact .rejecting (by decide) (by simp [codesOf])
    next h0 =>
    split
    · exact .rejecting (by decide) (by simp [codesOf])
    next h1 =>
    split
    · exact ⟨_, rfl, .asks _ (by simp [entropyRequest, hs])⟩
    split
    · exact .rejecting (by decide) (by simp [codesOf])
    split
    · exact ⟨_, rfl, .parses rfl⟩
    · simp at h0 h1
      exact ⟨_, rfl, .outputsTwo _ _ _ _ _ _ _ _ rfl (by simp; omega) (by simp; omega) rfl rfl⟩
  | kybEncaps =>
    simp only [exec, execKybEncaps, kybEncapsWith]
    split
    · exact .rejecting (by decide) (by simp [codesOf])
    next hs =>
    split
    · exact .rejecting (by decide) (by simp [codesOf])
    next h0 =>
    split
    · exact .rejecting (by decide) (by simp [codesOf])
    next h1 =>
    split
    · exact .rejecting (by decide) (by simp [codesOf])
    split
    · exact ⟨_, rfl, .asks _ (by simp [entropyRequest, hs])⟩
    split
    · exact .rejecting (by decide) (by simp [codesOf])
    split
    · exact ⟨_, rfl, .parses rfl⟩
    · simp at h0 h1
      exact ⟨_, rfl, .outputsTwo _ _ _ _ _ _ _ _ rfl (by simp; omega) (by simp; omega) rfl rfl⟩
  | kybDecaps =>
    simp only [exec, execKybDecaps, kybDecapsWith]
    split
    · exact .rejecting (by decide) (by simp [codesOf])
    split
    · exact .rejecting (by decide) (by simp [codesOf])
    next h0 =>
    split
    · exact .rejecting (by decide) (by simp [codesOf])
    next h1 =>
    split
    · exact .rejecting (by decide) (by simp [codesOf])
    split
    · exact .rejecting (by decide) (by simp [codesOf])
    split
    · exact ⟨_, rfl, .parses rfl⟩
    · simp at h0 h1
      exact ⟨_, rfl, .outputs _ _ _ _ rfl (by simp; omega) rfl⟩

end Sys2Proof.Machine
end

