-- ==== Sys2Proof/Laws/HostPort.lean ====
section
/-! SUPPORT. The host port: which word index names what (R26), and what a host write leaves (R28 to R35, R71). -/

namespace Sys2Proof.Machine

/-! ### The register map -/

/-- The BUF window: word index 0x4000 + w names BUF[4*w] to BUF[4*w+3] (R65). -/
theorem hostReg_eq_bufWord_iff (a : BitVec 15) (x : Nat) :
    hostReg a = .bufWord x ↔ 0x4000 ≤ a.toNat ∧ x = 4 * (a.toNat - 0x4000) ∧ x + 4 ≤ Config.bufBytes := by
  have hB : Config.bufBytes = 16384 := rfl
  simp only [hostReg]
  generalize a.toNat = n
  simp only [ite_eq_iff, reduceCtorEq, and_false, false_or, or_false, HostReg.bufWord.injEq]
  omega

/-- The argument registers: word index 4 + k names ARG[k] (R31). -/
theorem hostReg_eq_arg_iff (a : BitVec 15) (k : Fin 8) : hostReg a = .arg k ↔ a.toNat = 4 + k.val := by
  have hB : Config.bufBytes = 16384 := rfl
  simp only [hostReg]
  generalize a.toNat = n
  have := k.isLt
  simp only [ite_eq_iff, reduceCtorEq, and_false, false_or, or_false, HostReg.arg.injEq, Fin.ext_iff, Fin.val_ofNat]
  omega

/-- Word index 1 is the command register (R28). -/
theorem hostReg_eq_cmd_iff (a : BitVec 15) : hostReg a = .cmd ↔ a = 1 := by
  rw [← BitVec.toNat_inj]
  have hB : Config.bufBytes = 16384 := rfl
  simp only [hostReg, show (1 : BitVec 15).toNat = 1 from rfl]
  generalize a.toNat = n
  simp only [ite_eq_iff, reduceCtorEq, and_false, and_true, false_or, or_false]
  omega

/-- Word index 2 is the status register (R29). -/
theorem hostReg_eq_status_iff (a : BitVec 15) : hostReg a = .status ↔ a = 2 := by
  rw [← BitVec.toNat_inj]
  have hB : Config.bufBytes = 16384 := rfl
  simp only [hostReg, show (2 : BitVec 15).toNat = 2 from rfl]
  generalize a.toNat = n
  simp only [ite_eq_iff, reduceCtorEq, and_false, and_true, false_or, or_false]
  omega

/-- Word index 3 is the control register (R30). -/
theorem hostReg_eq_ctrl_iff (a : BitVec 15) : hostReg a = .ctrl ↔ a = 3 := by
  rw [← BitVec.toNat_inj]
  have hB : Config.bufBytes = 16384 := rfl
  simp only [hostReg, show (3 : BitVec 15).toNat = 3 from rfl]
  generalize a.toNat = n
  simp only [ite_eq_iff, reduceCtorEq, and_false, and_true, false_or, or_false]
  omega

/-- The reserved offsets: 0x38, 0x3C, 0x5C up to the BUF window, and all beyond it (R26, R35). -/
theorem hostReg_eq_reserved_iff (a : BitVec 15) : hostReg a = .reserved ↔
    a.toNat = 14 ∨ a.toNat = 15 ∨ 23 ≤ a.toNat ∧ a.toNat < 0x4000 ∨ 0x4000 + Config.bufBytes / 4 ≤ a.toNat := by
  have hB : Config.bufBytes = 16384 := rfl
  simp only [hostReg]
  generalize a.toNat = n
  simp only [ite_eq_iff, reduceCtorEq, and_false, and_true, false_or]
  omega

@[simp] theorem hostReg_cmd : hostReg 1#15 = .cmd := by decide
@[simp] theorem hostReg_status : hostReg 2#15 = .status := by decide
@[simp] theorem hostReg_ctrl : hostReg 3#15 = .ctrl := by decide
@[simp] theorem hostReg_id : hostReg 0#15 = .id := by decide
@[simp] theorem hostReg_strength : hostReg 16#15 = .strength := by decide
@[simp] theorem hostReg_pubkeySize : hostReg 17#15 = .pubkeySize := by decide
@[simp] theorem hostReg_privkeySize : hostReg 18#15 = .privkeySize := by decide
@[simp] theorem hostReg_secretSize : hostReg 19#15 = .secretSize := by decide
@[simp] theorem hostReg_encryptedSize : hostReg 20#15 = .encryptedSize := by decide
@[simp] theorem hostReg_minEntropySize : hostReg 21#15 = .minEntropySize := by decide
@[simp] theorem hostReg_maxEntropySize : hostReg 22#15 = .maxEntropySize := by decide

/-- A write to a register that is not CMD, STATUS, CTRL, ARG or BUF changes nothing (R35, R71). -/
theorem hostWrite_ignored {a : BitVec 15} (h : a.toNat = 0 ∨ 12 ≤ a.toNat ∧ a.toNat < 0x4000 ∨
    0x4000 + Config.bufBytes / 4 ≤ a.toNat) (w : Word) (s : State) : hostWrite a w s = s := by
  have hB : Config.bufBytes = 16384 := rfl
  rw [hostWrite]
  rcases hr : hostReg a
  case cmd => rw [hostReg_eq_cmd_iff] at hr; subst hr; simp at h; omega
  case status => rw [hostReg_eq_status_iff] at hr; subst hr; simp at h; omega
  case ctrl => rw [hostReg_eq_ctrl_iff] at hr; subst hr; simp at h; omega
  case arg k => rw [hostReg_eq_arg_iff] at hr; omega
  case bufWord x => rw [hostReg_eq_bufWord_iff] at hr; omega
  all_goals rfl

/-! ### Words and bytes -/

/-- Taking a word apart and putting it together again (R65). -/
theorem leWord_extract (w : Word) :
    leWord (w.extractLsb' 0 8) (w.extractLsb' 8 8) (w.extractLsb' 16 8) (w.extractLsb' 24 8) = w := by
  apply BitVec.eq_of_getLsbD_eq
  intro i hi
  simp only [leWord, BitVec.getLsbD_append, BitVec.getLsbD_extractLsb']
  rcases (by omega : i < 8 ∨ (8 ≤ i ∧ i < 16) ∨ (16 ≤ i ∧ i < 24) ∨ 24 ≤ i) with h | h | h | h
  · simp [h, show i < 16 by omega, show i < 24 by omega]
  · simp [show ¬ i < 8 by omega, show i < 16 by omega, show i < 24 by omega, show i - 8 < 8 by omega,
      show 8 + (i - 8) = i by omega]
  · simp [show ¬ i < 16 by omega, show i < 24 by omega, show i - 16 < 8 by omega, show 16 + (i - 16) = i by omega]
  · simp [show ¬ i < 24 by omega, show i - 24 < 8 by omega, show 24 + (i - 24) = i by omega]

/-! ### The words STATUS and CTRL -/

/-- STATUS, its fields named, at their bits (R29). -/
theorem statusWord_getLsbD (s : State) (k : Nat) : s.statusWord.getLsbD k =
    if k = 0 then s.status.busy else if k = 1 then s.status.done else if k = 2 then s.status.err
    else if k = 3 then s.status.z else if k = 4 then s.status.inf else if k = 5 then s.status.v
    else if k = 6 then s.status.werr else if k = 7 then s.engine.entwait
    else s.status.code.byte.getLsbD (k - 8) := by
  have hw : s.statusWord.getLsbD k = BitVec.getLsbD (0#16 ++ (s.status.code.byte ++ (BitVec.ofBool s.engine.entwait ++
    (BitVec.ofBool s.status.werr ++ (BitVec.ofBool s.status.v ++ (BitVec.ofBool s.status.inf ++ (BitVec.ofBool s.status.z ++
      (BitVec.ofBool s.status.err ++ (BitVec.ofBool s.status.done ++ BitVec.ofBool s.status.busy)))))))) ) k := rfl
  rw [hw]; clear hw
  simp only [BitVec.getLsbD_append, BitVec.getLsbD_ofBool, BitVec.getLsbD_zero]
  rcases (by omega : k = 0 ∨ k = 1 ∨ k = 2 ∨ k = 3 ∨ k = 4 ∨ k = 5 ∨ k = 6 ∨ k = 7 ∨ 8 ≤ k) with
    h | h | h | h | h | h | h | h | h
  any_goals (subst h; rfl)
  obtain ⟨j, rfl⟩ := Nat.exists_eq_add_of_le h
  simp only [Nat.reduceAdd, show ¬ 8 + j < 1 by omega, show ¬ 8 + j < 2 by omega,
    show ¬ 8 + j < 3 by omega, show ¬ 8 + j < 4 by omega, show ¬ 8 + j < 5 by omega, show ¬ 8 + j < 6 by omega,
    show ¬ 8 + j < 7 by omega, show ¬ 8 + j < 8 by omega, show ¬ 8 + j = 0 by omega, show ¬ 8 + j = 1 by omega,
    show ¬ 8 + j = 2 by omega, show ¬ 8 + j = 3 by omega, show ¬ 8 + j = 4 by omega, show ¬ 8 + j = 5 by omega,
    show ¬ 8 + j = 6 by omega, show ¬ 8 + j = 7 by omega, if_false, show 8 + j - 8 = j by omega]
  split
  · rfl
  · exact (BitVec.getLsbD_of_ge _ _ (by omega)).symm

/-! ### What a host write leaves -/

/-- A write to CMD while a command runs is dropped, else accepted (R28). -/
theorem hostWrite_cmd (w : Word) (s : State) :
    hostWrite 1#15 w s = if s.status.busy then dropWrite s else accept w s := by
  rw [hostWrite, hostReg_cmd, writeReg]

/-- A write to STATUS (R29). -/
theorem hostWrite_status (w : Word) (s : State) : hostWrite 2#15 w s = writeStatus w s := by
  rw [hostWrite, hostReg_status, writeReg]

/-- A write to CTRL (R30). -/
theorem hostWrite_ctrl (w : Word) (s : State) : hostWrite 3#15 w s = writeCtrl w s := by
  rw [hostWrite, hostReg_ctrl, writeReg]

/-- A STATUS write changes DONE and WERR only. -/
theorem writeStatus_eq (w : Word) (s : State) :
    writeStatus w s = { s with status := { s.status with
      done := s.status.done && !w.getLsbD 1, werr := s.status.werr && !w.getLsbD 6 } } := by
  unfold writeStatus
  cases h1 : w.getLsbD 1 <;> cases h6 : w.getLsbD 6 <;> simp [acknowledge, clearWerr]

end Sys2Proof.Machine
end

