-- ==== Sys2Proof/Laws/PolyRing.lean ====
section
/-! SUPPORT. The transforms layer by layer: lengths, scaling, and that a GS layer undoes a CT layer up to a factor 2 (R196 to R198). -/

open scoped Fin.CommRing

namespace Sys2Proof.Machine

/-! ### Lengths -/

/-- A layer keeps the length of a list that its blocks fill. -/
theorem layer_length (bf : Coeff → Coeff → Coeff → Coeff × Coeff) (len : Nat) :
    ∀ (zs r : List Coeff), r.length = 2 * len * zs.length → (layer bf len zs r).length = r.length := by
  intro zs
  induction zs with
  | nil => intro r _; rfl
  | cons z zs ih =>
    intro r h
    rw [List.length_cons, Nat.mul_succ] at h
    have hd : (r.drop (2 * len)).length = 2 * len * zs.length := by rw [List.length_drop]; omega
    simp only [layer, List.length_append, List.length_zipWith, List.length_take, List.length_drop, ih _ hd]
    omega

theorem layerZetas_length_128 : (layerZetas 128).length = 1 := by decide +kernel
theorem layerZetas_length_64 : (layerZetas 64).length = 2 := by decide +kernel
theorem layerZetas_length_32 : (layerZetas 32).length = 4 := by decide +kernel
theorem layerZetas_length_16 : (layerZetas 16).length = 8 := by decide +kernel
theorem layerZetas_length_8 : (layerZetas 8).length = 16 := by decide +kernel
theorem layerZetas_length_4 : (layerZetas 4).length = 32 := by decide +kernel
theorem layerZetas_length_2 : (layerZetas 2).length = 64 := by decide +kernel

/-- Every layer has as many factors as blocks. -/
theorem layerZetas_length {len : Nat} (h : len ∈ [128, 64, 32, 16, 8, 4, 2]) : 2 * len * (layerZetas len).length = 256 := by
  simp only [List.mem_cons, List.not_mem_nil, or_false] at h
  rcases h with rfl | rfl | rfl | rfl | rfl | rfl | rfl
  · rw [layerZetas_length_128]
  · rw [layerZetas_length_64]
  · rw [layerZetas_length_32]
  · rw [layerZetas_length_16]
  · rw [layerZetas_length_8]
  · rw [layerZetas_length_4]
  · rw [layerZetas_length_2]

/-- A layer of NTT keeps 256 coefficients. -/
theorem nttLayer_length {len : Nat} (h : len ∈ [128, 64, 32, 16, 8, 4, 2]) {r : List Coeff} (hr : r.length = 256) :
    (nttLayer len r).length = 256 := by
  rw [nttLayer, layer_length _ _ _ _ (by rw [hr, layerZetas_length h]), hr]

/-- A layer of INTT keeps 256 coefficients. -/
theorem inttLayer_length {len : Nat} (h : len ∈ [128, 64, 32, 16, 8, 4, 2]) {r : List Coeff} (hr : r.length = 256) :
    (inttLayer len r).length = 256 := by
  rw [inttLayer, layer_length _ _ _ _ (by rw [List.length_reverse, hr, layerZetas_length h]), hr]

/-- Layers one after the other keep 256 coefficients, when each does. -/
theorem foldl_layers_length (f : Nat → List Coeff → List Coeff) (lens : List Nat)
    (hf : ∀ len ∈ lens, ∀ r : List Coeff, r.length = 256 → (f len r).length = 256) (r : List Coeff)
    (hr : r.length = 256) : (lens.foldl (fun r len => f len r) r).length = 256 := by
  induction lens generalizing r with
  | nil => exact hr
  | cons len lens ih =>
    exact ih (fun l hl => hf l (List.mem_cons_of_mem _ hl)) _ (hf len List.mem_cons_self r hr)

/-- NTT gives 256 coefficients. -/
theorem nttList_length {r : List Coeff} (hr : r.length = 256) : (nttList r).length = 256 :=
  foldl_layers_length nttLayer _ (fun _ hl _ h => nttLayer_length hl h) r hr

/-- INTT gives 256 coefficients. -/
theorem inttList_length {r : List Coeff} (hr : r.length = 256) : (inttList r).length = 256 := by
  rw [inttList, List.length_map]
  refine foldl_layers_length inttLayer _ (fun _ hl _ h => inttLayer_length ?_ h) r hr
  simp only [List.mem_cons, List.not_mem_nil, or_false] at hl ⊢
  omega

/-- The coefficients of NTT. -/
theorem nttPoly_toList (f : Poly) : (nttPoly f).toList = nttList f.toList :=
  Poly.toList_ofList (nttList_length (by simp))

/-- The coefficients of INTT. -/
theorem inttPoly_toList (f : Poly) : (inttPoly f).toList = inttList f.toList :=
  Poly.toList_ofList (inttList_length (by simp))

/-- The coefficients of a sum. -/
theorem polyAdd_toList (f g : Poly) : (polyAdd f g).toList = List.zipWith (fun x y => x + y) f.toList g.toList :=
  Poly.toList_ofList (by simp)

/-- The coefficients of a difference. -/
theorem polySub_toList (f g : Poly) : (polySub f g).toList = List.zipWith (fun x y => x - y) f.toList g.toList :=
  Poly.toList_ofList (by simp)

/-- The products of n pairs are 2n numbers. -/
theorem pairMul_length : ∀ (gs as bs : List Coeff), as.length = 2 * gs.length → bs.length = 2 * gs.length →
    (pairMul gs as bs).length = 2 * gs.length := by
  intro gs
  induction gs with
  | nil => intro as bs _ _; simp [pairMul]
  | cons g gs ih =>
    intro as bs ha hb
    match as, bs with
    | [], _ => simp at ha
    | [_], _ => simp at ha; omega
    | _ :: _ :: _, [] => simp at hb
    | _ :: _ :: _, [_] => simp at hb; omega
    | a0 :: a1 :: as, b0 :: b1 :: bs =>
      simp only [List.length_cons] at ha hb
      simp only [pairMul, List.length_cons, ih as bs (by omega) (by omega)]
      omega

/-- The pairs of a product, by their factors (R199). -/
theorem pairMul_getElem : ∀ (gs as bs : List Coeff) (i : Nat) (hg : i < gs.length), as.length = 2 * gs.length →
    bs.length = 2 * gs.length →
    (pairMul gs as bs).getD (2 * i) 0 =
      as.getD (2 * i) 0 * bs.getD (2 * i) 0 + as.getD (2 * i + 1) 0 * bs.getD (2 * i + 1) 0 * gs[i] ∧
    (pairMul gs as bs).getD (2 * i + 1) 0 =
      as.getD (2 * i) 0 * bs.getD (2 * i + 1) 0 + as.getD (2 * i + 1) 0 * bs.getD (2 * i) 0 := by
  intro gs
  induction gs with
  | nil => intro as bs i hg; simp at hg
  | cons g gs ih =>
    intro as bs i hg ha hb
    match as, bs with
    | [], _ => simp at ha
    | [_], _ => simp at ha; omega
    | _ :: _ :: _, [] => simp at hb
    | _ :: _ :: _, [_] => simp at hb; omega
    | a0 :: a1 :: as, b0 :: b1 :: bs =>
      simp only [List.length_cons] at ha hb hg
      cases i with
      | zero => simp [pairMul]
      | succ i =>
        have := ih as bs i (by omega) (by omega) (by omega)
        simpa only [pairMul, show 2 * (i + 1) = 2 * i + 1 + 1 by ring, List.getD_cons_succ, List.getElem_cons_succ]
          using this

/-! ### A GS layer undoes a CT layer, up to a factor 2 (R196) -/

/-- One butterfly: GS with z' undoes CT with z, where z * z' = -1. -/
theorem butterflyGS_butterflyCT {z z' : Coeff} (h : z * z' = -1) (x y : Coeff) :
    butterflyGS (butterflyCT x y z).1 (butterflyCT x y z).2 z' = (x + x, y + y) := by
  simp only [butterflyGS, butterflyCT, Prod.mk.injEq]
  constructor
  · ring
  · have : z' * (x - z * y - (x + z * y)) = -(z * z') * (y + y) := by ring
    rw [this, h]; ring

/-- The other way round. -/
theorem butterflyCT_butterflyGS {z z' : Coeff} (h : z * z' = -1) (x y : Coeff) :
    butterflyCT (butterflyGS x y z').1 (butterflyGS x y z').2 z = (x + x, y + y) := by
  simp only [butterflyGS, butterflyCT, Prod.mk.injEq]
  have : z * (z' * (y - x)) = (z * z') * (y - x) := by ring
  constructor
  · rw [this, h]; ring
  · rw [this, h]; ring

/-- Blocks with their halves: a list of 2*len entries is its two halves, and one layer works on the first block. -/
theorem layer_cons_append {bf : Coeff → Coeff → Coeff → Coeff × Coeff} {len : Nat} {z : Coeff} {zs lo hi r : List Coeff}
    (hl : lo.length = len) (hh : hi.length = len) :
    layer bf len (z :: zs) (lo ++ (hi ++ r)) = List.zipWith (fun x y => (bf x y z).1) lo hi ++
      (List.zipWith (fun x y => (bf x y z).2) lo hi ++ layer bf len zs r) := by
  have h1 : (lo ++ (hi ++ r)).take len = lo := List.take_left' hl
  have h2 : (lo ++ (hi ++ r)).drop len = hi ++ r := List.drop_left' hl
  have h3 : (lo ++ (hi ++ r)).drop (2 * len) = r := by
    rw [two_mul, ← List.drop_drop, h2, List.drop_left' hh]
  simp only [layer]
  rw [h1, h2, h3, List.take_left' hh]

/-- Undoing a layer: if each butterfly of bf' undoes that of bf up to a factor 2, so does the layer. -/
theorem layer_undo {bf bf' : Coeff → Coeff → Coeff → Coeff × Coeff} {len : Nat} {zs zs' : List Coeff}
    (h : List.Forall₂ (fun z z' => ∀ x y, bf' (bf x y z).1 (bf x y z).2 z' = (x + x, y + y)) zs zs') :
    ∀ r : List Coeff, r.length = 2 * len * zs.length → layer bf' len zs' (layer bf len zs r) = r.map fun x => x + x := by
  induction h with
  | nil => intro r hr; simp at hr; simp [hr, layer]
  | @cons z z' zs zs' hz _ ih =>
    intro r hr
    rw [List.length_cons, Nat.mul_succ] at hr
    obtain ⟨lo, hi, r', rfl, hl, hh⟩ : ∃ lo hi r', r = lo ++ (hi ++ r') ∧ lo.length = len ∧ hi.length = len :=
      ⟨r.take len, (r.drop len).take len, (r.drop len).drop len, by simp,
        by rw [List.length_take]; omega, by rw [List.length_take, List.length_drop]; omega⟩
    rw [layer_cons_append hl hh, layer_cons_append (by simp [hl, hh]) (by simp [hl, hh]),
      ih r' (by simp only [List.length_append, hl, hh] at hr; omega), List.map_append, List.map_append]
    have key : ∀ (a b : List Coeff), a.length = b.length →
        List.zipWith (fun x y => (bf' x y z').1) (List.zipWith (fun x y => (bf x y z).1) a b)
            (List.zipWith (fun x y => (bf x y z).2) a b) = a.map (fun x => x + x) ∧
        List.zipWith (fun x y => (bf' x y z').2) (List.zipWith (fun x y => (bf x y z).1) a b)
            (List.zipWith (fun x y => (bf x y z).2) a b) = b.map (fun x => x + x) := by
      intro a
      induction a with
      | nil => intro b hb; cases b <;> simp_all
      | cons x a iha =>
        intro b hb
        cases b with
        | nil => simp at hb
        | cons y b =>
          have := iha b (by simpa using hb)
          simp only [List.zipWith_cons_cons, hz x y, List.map_cons, this.1, this.2, and_self]
    rw [(key lo hi (by rw [hl, hh])).1, (key lo hi (by rw [hl, hh])).2]

/-- The factors of a layer, rising, times those of the inverse layer are -1. -/
theorem layerZetas_inverse {len : Nat} (h : len ∈ [128, 64, 32, 16, 8, 4, 2]) :
    List.Forall₂ (fun z z' => z * z' = -1) (layerZetas len) (layerZetas len).reverse := by
  simp only [List.mem_cons, List.not_mem_nil, or_false] at h
  rcases h with rfl | rfl | rfl | rfl | rfl | rfl | rfl <;> decide +kernel

/-- INTT's layer undoes NTT's, up to a factor 2 (R198). -/
theorem inttLayer_nttLayer {len : Nat} (h : len ∈ [128, 64, 32, 16, 8, 4, 2]) {r : List Coeff} (hr : r.length = 256) :
    inttLayer len (nttLayer len r) = r.map fun x => x + x :=
  layer_undo ((layerZetas_inverse h).imp fun _ _ hz => butterflyGS_butterflyCT hz) r (by rw [hr, layerZetas_length h])

/-- NTT's layer undoes INTT's, up to a factor 2 (R198). -/
theorem nttLayer_inttLayer {len : Nat} (h : len ∈ [128, 64, 32, 16, 8, 4, 2]) {r : List Coeff} (hr : r.length = 256) :
    nttLayer len (inttLayer len r) = r.map fun x => x + x := by
  refine layer_undo ?_ r (by rw [List.length_reverse, hr, layerZetas_length h])
  have := (layerZetas_inverse h).flip
  refine this.imp fun _ _ hz => butterflyCT_butterflyGS hz

/-! ### Scaling -/

/-- A layer of butterflies that scale commutes with scaling. -/
theorem layer_map_mul {bf : Coeff → Coeff → Coeff → Coeff × Coeff}
    (h : ∀ c x y z, bf (c * x) (c * y) z = (c * (bf x y z).1, c * (bf x y z).2)) (c : Coeff) (len : Nat) :
    ∀ zs r : List Coeff, layer bf len zs (r.map fun x => c * x) = (layer bf len zs r).map fun x => c * x := by
  intro zs
  induction zs with
  | nil => intro r; rfl
  | cons z zs ih =>
    intro r
    simp only [layer, ← List.map_take, ← List.map_drop, ih, List.map_append, List.zipWith_map, List.map_zipWith, h]

theorem butterflyCT_mul (c x y z : Coeff) :
    butterflyCT (c * x) (c * y) z = (c * (butterflyCT x y z).1, c * (butterflyCT x y z).2) := by
  simp only [butterflyCT, Prod.mk.injEq]; constructor <;> ring

theorem butterflyGS_mul (c x y z : Coeff) :
    butterflyGS (c * x) (c * y) z = (c * (butterflyGS x y z).1, c * (butterflyGS x y z).2) := by
  simp only [butterflyGS, Prod.mk.injEq]; constructor <;> ring

/-- 2^7 * inv(128, q) = 1 (R14). -/
theorem inv128_mul : (2 : Coeff) ^ 7 * inv128 = 1 := by decide +kernel

end Sys2Proof.Machine
end

