-- ==== Sys2Proof/Laws/Kpke.lean ====
section
/-! SUPPORT. Compression, Parse and the byte strings of Kyber: what undoes what, more passes never change a result, and the lengths
of keys and ciphertexts (R15, R16, R232, R233). -/

namespace Sys2Proof.Machine

/-! ### Compression (R16, R204) -/

/-- Decompress gives a value below q, for the legal widths. -/
theorem decompress_lt {d : Nat} (hd : d ∈ [1, 4, 5, 10, 11]) {y : Nat} (hy : y < 2 ^ d) : decompress y d < 3329 := by
  have key : ([1, 4, 5, 10, 11].all fun d => (List.range (2 ^ d)).all fun y => decide (decompress y d < 3329)) = true := by
    decide +kernel
  simpa using List.all_eq_true.1 (List.all_eq_true.1 key d hd) y (List.mem_range.2 hy)

/-- Compress undoes Decompress, for the legal widths (R204). -/
theorem compress_decompress {d : Nat} (hd : d ∈ [1, 4, 5, 10, 11]) {y : Nat} (hy : y < 2 ^ d) :
    compress (decompress y d) d = y := by
  have key : ([1, 4, 5, 10, 11].all fun d =>
      (List.range (2 ^ d)).all fun y => decide (compress (decompress y d) d = y)) = true := by
    decide +kernel
  simpa using List.all_eq_true.1 (List.all_eq_true.1 key d hd) y (List.mem_range.2 hy)

/-- Compress gives a d-bit number. -/
theorem compress_lt (x d : Nat) : compress x d < 2 ^ d := Nat.mod_lt _ (by positivity)

/-! ### Parse (R16, R327) -/

/-- More passes never change the result of a loop that has ended. -/
theorem parseLoop_mono {S : Nat → Byte} : ∀ {n m i : Nat} {f g : List Coeff}, n ≤ m →
    parseLoop S n i f = some g → parseLoop S m i f = some g := by
  intro n
  induction n with
  | zero =>
    intro m i f g _ h
    have hf : ¬ f.length < 256 := fun hl => by simp [parseLoop, hl] at h
    cases m <;> simpa [parseLoop, hf] using h
  | succ n ih =>
    intro m i f g hm h
    cases m with
    | zero => omega
    | succ m =>
      by_cases hl : f.length < 256
      · simp only [parseLoop, hl, if_true] at h ⊢
        exact ih (by omega) h
      · simpa [parseLoop, hl] using h

/-- More passes never change a polynomial that Parse has found. -/
theorem parse_mono {S : Nat → Byte} {n m : Nat} {f : Poly} (h : n ≤ m) (hp : parse n S = some f) : parse m S = some f := by
  simp only [parse, Option.map_eq_some_iff] at hp ⊢
  obtain ⟨g, hg, rfl⟩ := hp
  exact ⟨g, parseLoop_mono h hg, rfl⟩

/-- The candidates below q of the first n three-byte groups of a stream from position i on, in Parse's order (R16). -/
def parseCandidates (S : Nat → Byte) (i n : Nat) : List Nat :=
  ((List.range n).flatMap fun j => [parseLow S (i + 3 * j), parseHigh S (i + 3 * j)]).filter fun d => decide (d < primeQ)

theorem parseCandidates_succ (S : Nat → Byte) (i n : Nat) : parseCandidates S i (n + 1) =
    [parseLow S i, parseHigh S i].filter (fun d => decide (d < primeQ)) ++ parseCandidates S (i + 3) n := by
  have h : ∀ j, i + 3 * (j + 1) = i + 3 + 3 * j := by intro j; ring
  simp [parseCandidates, List.range_succ_eq_map, List.flatMap_map, h, List.filter_cons]
  split <;> split <;> simp

/-- One pass of Parse appends the group's candidates, as far as there is room (R16). -/
theorem parseStep_nats (S : Nat → Byte) (i : Nat) {f : List Coeff} (h : f.length < 256) :
    (parseStep S i f).map (fun c => c.val) =
      (f.map (fun c => c.val) ++ [parseLow S i, parseHigh S i].filter fun d => decide (d < primeQ)).take 256 := by
  have hv : ∀ d, d < primeQ → (coeffOfNat d).val = d := fun d hd => Nat.mod_eq_of_lt hd
  have ht : ∀ l : List Nat, l.length ≤ 256 → l = l.take 256 := fun l hl => (List.take_of_length_le hl).symm
  by_cases h1 : parseLow S i < primeQ <;> by_cases h2 : parseHigh S i < primeQ
  · by_cases h3 : f.length + 1 < 256
    · rw [← ht _ (by simp [h1, h2]; omega)]
      simp [parseStep, h1, h2, h3, hv]
    · have : f.length = 255 := by omega
      simp [parseStep, h1, h2, this, hv, List.take_append]
  all_goals
    rw [← ht _ (by simp [h1, h2]; omega)]
    simp [parseStep, h1, h2, h, hv]

/-- Parse's loop from stream position i: it ends within n passes exactly when n groups have candidates enough to fill up the list,
and then the list is the coefficients found before and the first of those candidates (R16). -/
theorem parseLoop_spec (S : Nat → Byte) : ∀ (n i : Nat) (f : List Coeff), f.length ≤ 256 →
    (f.length + (parseCandidates S i n).length < 256 → parseLoop S n i f = none) ∧
    (256 ≤ f.length + (parseCandidates S i n).length → ∃ g, parseLoop S n i f = some g ∧
      g.map (fun c => c.val) = (f.map (fun c => c.val) ++ parseCandidates S i n).take 256) := by
  intro n
  induction n with
  | zero =>
    intro i f hf
    simp only [parseCandidates, List.range_zero, List.flatMap_nil, List.filter_nil, List.length_nil, Nat.add_zero,
      List.append_nil]
    refine ⟨fun h => by rw [parseLoop, if_pos h], fun h => ⟨f, by rw [parseLoop, if_neg (by omega)], ?_⟩⟩
    rw [List.take_of_length_le (by simpa using hf)]
  | succ n ih =>
    intro i f hf
    by_cases hl : f.length < 256
    · have hs := parseStep_nats S i hl
      have hlen : (parseStep S i f).length =
          min 256 (f.length + ([parseLow S i, parseHigh S i].filter fun d => decide (d < primeQ)).length) := by
        simpa using congrArg List.length hs
      obtain ⟨h1, h2⟩ := ih (i + 3) (parseStep S i f) (by omega)
      rw [parseLoop, if_pos hl, parseCandidates_succ, List.length_append]
      refine ⟨fun h => h1 (by omega), fun h => ?_⟩
      obtain ⟨g, hg, hv⟩ := h2 (by omega)
      refine ⟨g, hg, ?_⟩
      rw [hv, hs, ← List.append_assoc]
      generalize f.map (fun c => c.val) ++ _ = A
      rw [List.take_append, List.take_append, List.take_take, Nat.min_self, List.length_take]
      rcases Nat.le_total A.length 256 with hA | hA
      · rw [Nat.min_eq_right hA]
      · rw [Nat.min_eq_left hA, Nat.sub_self, Nat.sub_eq_zero_of_le hA]
    · have : f.length = 256 := by omega
      refine ⟨fun h => by omega, fun _ => ⟨f, by rw [parseLoop, if_neg hl], ?_⟩⟩
      rw [List.take_append, List.take_of_length_le (by simp [this]), List.length_map, this]
      simp

/-- Parse gives nothing within n passes exactly when the first n groups have fewer than 256 candidates (R16, R327). -/
theorem parse_eq_none_iff (S : Nat → Byte) (n : Nat) : parse n S = none ↔ (parseCandidates S 0 n).length < 256 := by
  obtain ⟨h1, h2⟩ := parseLoop_spec S n 0 [] (by simp)
  simp only [List.length_nil, Nat.zero_add] at h1 h2
  rw [parse, Option.map_eq_none_iff]
  refine ⟨fun h => ?_, h1⟩
  by_contra hc
  obtain ⟨g, hg, _⟩ := h2 (by omega)
  simp [h] at hg

/-- The polynomial Parse gives: its coefficients are the first 256 candidates, in their order (R16). -/
theorem parse_eq_some {S : Nat → Byte} {n : Nat} {f : Poly} (h : parse n S = some f) :
    f.toList.map (fun c => c.val) = (parseCandidates S 0 n).take 256 := by
  obtain ⟨h1, h2⟩ := parseLoop_spec S n 0 [] (by simp)
  simp only [List.length_nil, Nat.zero_add, List.map_nil, List.nil_append] at h1 h2
  rw [parse, Option.map_eq_some_iff] at h
  obtain ⟨g, hg, rfl⟩ := h
  by_cases hc : 256 ≤ (parseCandidates S 0 n).length
  · obtain ⟨g', hg', hv⟩ := h2 hc
    obtain rfl : g' = g := Option.some_inj.1 (hg'.symm.trans hg)
    rw [Poly.toList_ofList (by simpa [hc] using congrArg List.length hv), hv]
  · rw [h1 (by omega)] at hg
    cases hg

/-! ### Lengths (R15) -/

/-- A piece inside a byte string has its length. -/
theorem slice_length {B : Bytes} {i j : Nat} (h : j ≤ B.length) : (slice B i j).length = j - i := by
  rw [slice, List.length_take, List.length_drop]; omega

@[simp] theorem noiseVector_length (sym : Sym) (eta : Nat) (seed : Bytes) (first count : Nat) :
    (noiseVector sym eta seed first count).length = count := by simp [noiseVector]

@[simp] theorem decodeVector_length (k : Nat) (B : Bytes) : (decodeVector k B).length = k := by simp [decodeVector]

/-- A list computed entry by entry has as many entries. -/
theorem mapM_length {α β : Type} {f : α → Option β} : ∀ {l : List α} {r : List β}, l.mapM f = some r → r.length = l.length := by
  intro l
  induction l with
  | nil => intro r h; simp at h; simp [h]
  | cons a l ih =>
    intro r h
    simp only [List.mapM_cons, Option.bind_eq_bind, Option.bind_eq_some_iff, Option.pure_def, Option.some.injEq] at h
    obtain ⟨b, _, r', hr', rfl⟩ := h
    simp [ih hr']

/-- The sampled matrix has k rows. -/
theorem sampleMatrix_length {sym : Sym} {fuel k : Nat} {rho : Bytes} {index : Nat → Nat → Nat × Nat}
    {m : List (List Poly)} (h : sampleMatrix sym fuel k rho index = some m) : m.length = k := by
  simpa using mapM_length h

/-- A mapped list with an answer: entry by entry. -/
theorem mapM_getElem {α β : Type} {f : α → Option β} : ∀ {l : List α} {r : List β}, l.mapM f = some r →
    ∀ (i : Nat) (h : i < l.length) (h' : i < r.length), f l[i] = some r[i] := by
  intro l
  induction l with
  | nil => intro r _ i h; simp at h
  | cons a l ih =>
    intro r h i hi hi'
    simp only [List.mapM_cons, Option.bind_eq_bind, Option.bind_eq_some_iff, Option.pure_def, Option.some.injEq] at h
    obtain ⟨b, hb, r', hr', rfl⟩ := h
    cases i with
    | zero => exact hb
    | succ i => exact ih hr' i (by simpa using hi) (by simpa using hi')

/-- A mapped list without an answer: some entry has none. -/
theorem mapM_eq_none_iff {α β : Type} {f : α → Option β} (l : List α) : l.mapM f = none ↔ ∃ a ∈ l, f a = none := by
  induction l with
  | nil => simp
  | cons a l ih =>
    simp only [List.mapM_cons, Option.bind_eq_bind, Option.pure_def, List.mem_cons, exists_eq_or_imp, ← ih]
    cases f a <;> cases l.mapM f <;> simp

/-- No matrix is sampled exactly when some Parse has not ended. -/
theorem sampleMatrix_eq_none_iff (sym : Sym) (fuel k : Nat) (rho : Bytes) (index : Nat → Nat → Nat × Nat) :
    sampleMatrix sym fuel k rho index = none ↔ ∃ i j, i < k ∧ j < k ∧
      parse fuel (sym.xof rho (BitVec.ofNat 8 (index i j).1) (BitVec.ofNat 8 (index i j).2)) = none := by
  simp only [sampleMatrix, mapM_eq_none_iff, List.mem_range]
  exact ⟨fun ⟨i, hi, j, hj, h⟩ => ⟨i, j, hi, hj, h⟩, fun ⟨i, j, hi, hj, h⟩ => ⟨i, hi, j, hj, h⟩⟩

/-- Every entry of the sampled matrix is its stream's Parse, and the matrix is those entries (R232, R233). -/
theorem sampleMatrix_eq_some {sym : Sym} {fuel k : Nat} {rho : Bytes} {index : Nat → Nat → Nat × Nat}
    {m : List (List Poly)} (h : sampleMatrix sym fuel k rho index = some m) :
    ∃ A : Nat → Nat → Poly, m = (List.range k).map (fun i => (List.range k).map (A i)) ∧
      ∀ i j, i < k → j < k →
        parse fuel (sym.xof rho (BitVec.ofNat 8 (index i j).1) (BitVec.ofNat 8 (index i j).2)) = some (A i j) := by
  have hlen := sampleMatrix_length h
  have hrow : ∀ i (hi : i < m.length), (List.range k).mapM (fun j =>
      parse fuel (sym.xof rho (BitVec.ofNat 8 (index i j).1) (BitVec.ofNat 8 (index i j).2))) = some m[i] := by
    intro i hi
    have := mapM_getElem h i (by simpa [hlen] using hi) hi
    rwa [List.getElem_range] at this
  have hcols : ∀ i (hi : i < m.length), (m[i]).length = k := fun i hi => by simpa using mapM_length (hrow i hi)
  refine ⟨fun i j => (m.getD i []).getD j Poly.zero, ?_, ?_⟩
  · apply List.ext_getElem (by simp [hlen])
    intro i h1 h2
    apply List.ext_getElem (by simp [hcols i h1])
    intro j h3 h4
    simp [h1, h3]
  · intro i j hi hj
    have hi' : i < m.length := hlen ▸ hi
    have hj' : j < (m[i]).length := hcols i hi' ▸ hj
    have := mapM_getElem (hrow i hi') j (by simpa using hj) hj'
    simpa [hi', hj'] using this

/-! ### Sums (R190, R232 to R234) -/

/-- A coefficient of a sum. -/
theorem polyAdd_val (f g : Poly) (l : Nat) : ((polyAdd f g).toList.getD l 0).val =
    ((f.toList.getD l 0).val + (g.toList.getD l 0).val) % 3329 := by
  rw [polyAdd_toList]
  by_cases h : l < 256
  · simp [List.getD_eq_getElem?_getD, h, Fin.val_add]
  · simp [List.getD_eq_getElem?_getD, show 256 ≤ l by omega]

/-- A coefficient of a sum of products, one polynomial after the other (R232 to R234). -/
theorem polyDot_val (a b : List Poly) (l : Nat) : ((polyDot a b).toList.getD l 0).val =
    ((List.zipWith pwPoly a b).map fun f => (f.toList.getD l 0).val).sum % 3329 := by
  have h : ∀ (fs : List Poly) (p : Poly), ((fs.foldl polyAdd p).toList.getD l 0).val =
      ((p.toList.getD l 0).val + (fs.map fun f => (f.toList.getD l 0).val).sum) % 3329 := by
    intro fs
    induction fs with
    | nil =>
      intro p
      rw [List.foldl_nil, List.map_nil, List.sum_nil, Nat.add_zero, Nat.mod_eq_of_lt (p.toList.getD l 0).isLt]
    | cons f fs ih =>
      intro p
      rw [List.foldl_cons, ih, polyAdd_val, List.map_cons, List.sum_cons, Nat.mod_add_mod, Nat.add_assoc]
  rw [polyDot, h]
  have hz : (Poly.zero.toList.getD l 0).val = 0 := by
    rw [Poly.zero, Vector.toList_replicate, List.getD_eq_getElem?_getD, List.getElem?_replicate]; split <;> rfl
  rw [hz, Nat.zero_add]

/-- Pieces of n bytes each, one after the other. -/
theorem flatMap_bytes_length {α : Type} {n : Nat} (g : α → Bytes) (hg : ∀ a, (g a).length = n) (l : List α) :
    (l.flatMap g).length = n * l.length := by
  induction l with
  | nil => simp
  | cons a l ih => rw [List.flatMap_cons, List.length_append, hg, ih, List.length_cons]; ring

/-- The keys of K-PKE: 384k + 32 and 384k bytes (R232). -/
theorem kpkeKeyGen_length {sym : Sym} {fuel : Nat} {x : Strength} {d pk sk0 : Bytes}
    (h : kpkeKeyGen sym fuel x d = some (pk, sk0)) : pk.length = 384 * x.rank + 32 ∧ sk0.length = 384 * x.rank := by
  unfold kpkeKeyGen at h
  simp only at h
  split at h
  · cases h
  · next ahat ha =>
    cases h
    have := sampleMatrix_length ha
    constructor
    · rw [List.length_append, flatMap_bytes_length _ encodePoly_length, List.length_zipWith, List.length_map,
        noiseVector_length, this, Nat.min_self, slice_length (by simp)]
    · rw [flatMap_bytes_length _ encodePoly_length, List.length_map, noiseVector_length]

/-- The ciphertext of K-PKE: 32*du*k + 32*dv bytes (R233). -/
theorem kpkeEnc_length {sym : Sym} {fuel : Nat} {x : Strength} {pk m r c : Bytes}
    (h : kpkeEnc sym fuel x pk m r = some c) : c.length = 32 * x.du * x.rank + 32 * x.dv := by
  unfold kpkeEnc at h
  simp only at h
  split at h
  · cases h
  · next athat ha =>
    cases h
    have := sampleMatrix_length ha
    rw [List.length_append, flatMap_bytes_length _ (compressPoly_length x.du), List.length_zipWith, noiseVector_length,
      this, Nat.min_self, compressPoly_length]

/-- The message of K-PKE: 32 bytes (R234). -/
@[simp] theorem kpkeDec_length (x : Strength) (sk0 c : Bytes) : (kpkeDec x sk0 c).length = 32 := by simp [kpkeDec]

end Sys2Proof.Machine
end

