-- ==== Sys2Proof/Laws/PerInstr.lean ====
section
/-! SUPPORT. Statements made for each command by itself: the opcode byte of its word (R97). -/

namespace Sys2Proof.Laws.OpcodeByte

/-- The opcode of the opcode map (R97). -/
def opcode : Instr → BitVec 8
  | .nop => 0x00
  | .zeroize => 0x01
  | .fadd _ _ _ => 0x10
  | .fsub _ _ _ => 0x11
  | .fmont _ _ _ => 0x12
  | .fred _ _ => 0x13
  | .fredw _ _ _ => 0x14
  | .finv _ _ => 0x15
  | .ftom _ _ => 0x16
  | .ffrom _ _ => 0x17
  | .fmov _ _ => 0x18
  | .fld _ _ => 0x19
  | .fst _ _ => 0x1A
  | .sred _ _ => 0x1B
  | .pld _ _ => 0x20
  | .pst _ _ => 0x21
  | .pmov _ _ => 0x22
  | .pbase _ => 0x23
  | .pinf _ => 0x24
  | .pvalid _ => 0x25
  | .padd _ _ _ => 0x26
  | .pdbl _ _ => 0x27
  | .pgetx _ _ => 0x28
  | .pgety _ _ => 0x29
  | .pset _ _ _ => 0x2A
  | .smul _ _ _ => 0x2B
  | .ecdhKeygen => 0x30
  | .ecdhSecret => 0x31
  | .rld _ _ => 0x40
  | .rst _ _ => 0x41
  | .rmov _ _ => 0x42
  | .radd _ _ _ => 0x43
  | .rsub _ _ _ => 0x44
  | .ntt _ _ => 0x45
  | .intt _ _ => 0x46
  | .pwmul _ _ _ => 0x47
  | .polymul _ _ _ => 0x48
  | .cbd _ _ _ => 0x49
  | .sampleu _ _ _ _ => 0x4A
  | .rcomp _ _ _ => 0x4B
  | .rdecomp _ _ _ => 0x4C
  | .kybInit _ => 0x50
  | .kybKeygen => 0x51
  | .kybEncaps => 0x52
  | .kybDecaps => 0x53

/-- Bits 31:24 of the command's word are its opcode (R91, R97). -/
def Statement (i : Instr) : Prop := opField (encode i) = opcode i

theorem nop : Statement (.nop) := opField_wordN _
theorem zeroize : Statement (.zeroize) := opField_wordN _
theorem fadd (d a b : Fin 16) : Statement (.fadd d a b) := opField_wordR _ _ _ _
theorem fsub (d a b : Fin 16) : Statement (.fsub d a b) := opField_wordR _ _ _ _
theorem fmont (d a b : Fin 16) : Statement (.fmont d a b) := opField_wordR _ _ _ _
theorem fred (d a : Fin 16) : Statement (.fred d a) := opField_wordR _ _ _ _
theorem fredw (d a b : Fin 16) : Statement (.fredw d a b) := opField_wordR _ _ _ _
theorem finv (d a : Fin 16) : Statement (.finv d a) := opField_wordR _ _ _ _
theorem ftom (d a : Fin 16) : Statement (.ftom d a) := opField_wordR _ _ _ _
theorem ffrom (d a : Fin 16) : Statement (.ffrom d a) := opField_wordR _ _ _ _
theorem fmov (d a : Fin 16) : Statement (.fmov d a) := opField_wordR _ _ _ _
theorem fld (d : Fin 16) (addr : Imm16) : Statement (.fld d addr) := opField_wordM _ _ _ _
theorem fst (a : Fin 16) (addr : Imm16) : Statement (.fst a addr) := opField_wordM _ _ _ _
theorem sred (d a : Fin 16) : Statement (.sred d a) := opField_wordR _ _ _ _
theorem pld (d : Fin 4) (addr : Imm16) : Statement (.pld d addr) := opField_wordM _ _ _ _
theorem pst (a : Fin 4) (addr : Imm16) : Statement (.pst a addr) := opField_wordM _ _ _ _
theorem pmov (d a : Fin 4) : Statement (.pmov d a) := opField_wordR _ _ _ _
theorem pbase (d : Fin 4) : Statement (.pbase d) := opField_wordR _ _ _ _
theorem pinf (d : Fin 4) : Statement (.pinf d) := opField_wordR _ _ _ _
theorem pvalid (a : Fin 4) : Statement (.pvalid a) := opField_wordR _ _ _ _
theorem padd (d a b : Fin 4) : Statement (.padd d a b) := opField_wordR _ _ _ _
theorem pdbl (d a : Fin 4) : Statement (.pdbl d a) := opField_wordR _ _ _ _
theorem pgetx (d : Fin 16) (a : Fin 4) : Statement (.pgetx d a) := opField_wordR _ _ _ _
theorem pgety (d : Fin 16) (a : Fin 4) : Statement (.pgety d a) := opField_wordR _ _ _ _
theorem pset (d : Fin 4) (a b : Fin 16) : Statement (.pset d a b) := opField_wordR _ _ _ _
theorem smul (d : Fin 4) (a : Fin 16) (b : Fin 4) : Statement (.smul d a b) := opField_wordR _ _ _ _
theorem ecdhKeygen : Statement (.ecdhKeygen) := opField_wordN _
theorem ecdhSecret : Statement (.ecdhSecret) := opField_wordN _
theorem rld (d : Fin 8) (addr : Imm16) : Statement (.rld d addr) := opField_wordM _ _ _ _
theorem rst (a : Fin 8) (addr : Imm16) : Statement (.rst a addr) := opField_wordM _ _ _ _
theorem rmov (d a : Fin 8) : Statement (.rmov d a) := opField_wordR _ _ _ _
theorem radd (d a b : Fin 8) : Statement (.radd d a b) := opField_wordR _ _ _ _
theorem rsub (d a b : Fin 8) : Statement (.rsub d a b) := opField_wordR _ _ _ _
theorem ntt (d a : Fin 8) : Statement (.ntt d a) := opField_wordR _ _ _ _
theorem intt (d a : Fin 8) : Statement (.intt d a) := opField_wordR _ _ _ _
theorem pwmul (d a b : Fin 8) : Statement (.pwmul d a b) := opField_wordR _ _ _ _
theorem polymul (d a b : Fin 8) : Statement (.polymul d a b) := opField_wordR _ _ _ _
theorem cbd (d : Fin 8) (eta : Fin 16) (addr : Imm16) : Statement (.cbd d eta addr) := opField_wordM _ _ _ _
theorem sampleu (d : Fin 8) (a b : Fin 4) (addr : Imm16) : Statement (.sampleu d a b addr) := opField_wordM _ _ _ _
theorem rcomp (a : Fin 8) (bits : Fin 16) (addr : Imm16) : Statement (.rcomp a bits addr) := opField_wordM _ _ _ _
theorem rdecomp (d : Fin 8) (bits : Fin 16) (addr : Imm16) : Statement (.rdecomp d bits addr) := opField_wordM _ _ _ _
theorem kybInit (strength : Imm16) : Statement (.kybInit strength) := opField_wordM _ _ _ _
theorem kybKeygen : Statement (.kybKeygen) := opField_wordN _
theorem kybEncaps : Statement (.kybEncaps) := opField_wordN _
theorem kybDecaps : Statement (.kybDecaps) := opField_wordN _

end Sys2Proof.Laws.OpcodeByte
end

