-- ==== Sys2Proof/Laws/Run.lean ====
section
/-! SUPPORT. What a step can do, said once, and the induction over runs. -/

namespace Sys2Proof.Machine

/-- The core's moves (R24, R98, R295). -/
inductive CoreEffect (s : State) : State → Prop
  /-- nothing runs, or the running command waits for the entropy provider -/
  | holds (h : running s = false) : CoreEffect s s
  /-- the command CMD holds -/
  | runs (i : Instr) (t : State) (h : running s = true) (hd : decode s.cmd = .ok i) (he : Effect i s t) : CoreEffect s t
  /-- an illegal word -/
  | refuses (e : Illegal) (h : running s = true) (hd : decode s.cmd = .error e) : CoreEffect s (complete .illegalCmd s)

/-- The core's move answers a next state, and one of these. -/
theorem coreMove_effect (s : State) : Answers (CoreEffect s) (coreMove s) := by
  unfold coreMove
  split
  · next hr =>
    unfold runCommand
    split
    · next i hd =>
      obtain ⟨t, h1, h2⟩ := exec_effect i s
      exact ⟨t, h1, .runs i t hr hd h2⟩
    · next e hd => exact ⟨_, rfl, .refuses e hr hd⟩
  · next hr => exact ⟨_, rfl, .holds (by simpa using hr)⟩

/-- The state without the first of the inputs still to come. -/
def State.dropInput (s : State) : State := { s with agenda := s.agenda.tail }

/-- What a step can do: the core's move, or the next input. -/
inductive StepEffect (s : State) : State → Prop
  | core (t : State) (h : s.agenda.head? = none ∨ s.agenda.head? = some .core) (he : CoreEffect s.dropInput t) :
    StepEffect s t
  | hostWrite (a : BitVec 15) (w : Word) (h : s.agenda.head? = some (.hostWrite a w)) :
    StepEffect s (Machine.hostWrite a w s.dropInput)
  | hostRead (a : BitVec 15) (h : s.agenda.head? = some (.hostRead a)) : StepEffect s (hostReadMove a s.dropInput)
  | entropy (ans : EntropyAnswer) (h : s.agenda.head? = some (.entropy ans)) :
    StepEffect s (deliverEntropy ans s.dropInput)
  | lateEntropy (ans : EntropyAnswer) (h : s.agenda.head? = some (.lateEntropy ans)) : StepEffect s s.dropInput
  | reset (h : s.agenda.head? = some .reset) : StepEffect s (resetBlock s.dropInput)

/-- A step always answers a next state, and one of these: the machine never stops. -/
theorem step_effect (s : State) : Answers (StepEffect s) (step s) := by
  unfold step
  split
  · next h =>
    have hs : s.dropInput = s := by cases s; simp_all [State.dropInput]
    obtain ⟨t, h1, h2⟩ := coreMove_effect s
    exact ⟨t, h1, .core t (by simp [h]) (hs.symm ▸ h2)⟩
  · next rest h =>
    have hs : s.dropInput = { s with agenda := rest } := by simp [State.dropInput, h]
    obtain ⟨t, h1, h2⟩ := coreMove_effect { s with agenda := rest }
    exact ⟨t, h1, .core t (by simp [h]) (hs ▸ h2)⟩
  · next a w rest h =>
    have hs : s.dropInput = { s with agenda := rest } := by simp [State.dropInput, h]
    exact ⟨_, rfl, hs ▸ .hostWrite a w (by simp [h])⟩
  · next a rest h =>
    have hs : s.dropInput = { s with agenda := rest } := by simp [State.dropInput, h]
    exact ⟨_, rfl, hs ▸ .hostRead a (by simp [h])⟩
  · next ans rest h =>
    have hs : s.dropInput = { s with agenda := rest } := by simp [State.dropInput, h]
    exact ⟨_, rfl, hs ▸ .entropy ans (by simp [h])⟩
  · next ans rest h =>
    have hs : s.dropInput = { s with agenda := rest } := by simp [State.dropInput, h]
    exact ⟨_, rfl, hs ▸ .lateEntropy ans (by simp [h])⟩
  · next rest h =>
    have hs : s.dropInput = { s with agenda := rest } := by simp [State.dropInput, h]
    exact ⟨_, rfl, hs ▸ .reset (by simp [h])⟩

/-- What every step keeps holds after every run. -/
theorem run_keeps {P : State → Prop} (hstep : ∀ s t, P s → step s = .next t → P t) :
    ∀ (k : Nat) (s t : State), P s → Host.Core.run core k s = .next t → P t := by
  intro k
  induction k with
  | zero => intro s t hs h; cases h; exact hs
  | succ k ih =>
    intro s t hs h
    obtain ⟨u, hu, _⟩ := step_effect s
    have h' : Host.Core.run core k u = .next t := by
      simpa [Host.Core.run, show core.step s = Host.Outcome.next u from hu] using h
    exact ih u t (hstep s u hs hu) h'

/-- Every run answers a state. -/
theorem run_next (k : Nat) : ∀ s : State, ∃ t, Host.Core.run core k s = .next t := by
  induction k with
  | zero => intro s; exact ⟨s, rfl⟩
  | succ k ih =>
    intro s
    obtain ⟨u, hu, _⟩ := step_effect s
    obtain ⟨t, ht⟩ := ih u
    refine ⟨t, ?_⟩
    simpa [Host.Core.run, show core.step s = Host.Outcome.next u from hu] using ht

end Sys2Proof.Machine
end

