-- ==== Sys2Proof/Laws/Zero.lean ====
section
/-! SUPPORT. The Kyber functions on zeros, said once, so that the witnesses of the Kyber statements need no long evaluation. -/

namespace Sys2Proof.Machine

/-- n bytes of the value b. -/
def bytesOf (n : Nat) (b : Byte) : Bytes := List.replicate n b

/-- A symmetric unit that answers zeros, with a given XOF stream. -/
def flatSym (stream : Nat → Byte) : Sym :=
  { hash := fun _ => Vector.replicate 32 0
    hash2 := fun _ => Vector.replicate 64 0
    kdf := fun _ => Vector.replicate 32 0
    prf := fun _ _ L => Vector.replicate L 0
    xof := fun _ _ _ => stream }

@[simp] theorem bytesOf_length (n : Nat) (b : Byte) : (bytesOf n b).length = n := List.length_replicate

theorem slice_bytesOf (n i j : Nat) (b : Byte) : slice (bytesOf n b) i j = bytesOf (min (j - i) (n - i)) b := by
  simp [slice, bytesOf]

theorem slice_cons (b : Byte) (B : Bytes) (i j : Nat) : slice (b :: B) (i + 1) (j + 1) = slice B i j := by
  simp [slice]

theorem bytesOf_append (n m : Nat) (b : Byte) : bytesOf n b ++ bytesOf m b = bytesOf (n + m) b :=
  List.replicate_append_replicate

/-! ### Polynomials -/

@[simp] theorem zero_toList : Poly.zero.toList = List.replicate 256 0 := Vector.toList_replicate

theorem eq_zero_of_toList {f : Poly} (h : f.toList = List.replicate 256 0) : f = Poly.zero :=
  Vector.toList_inj.1 (h.trans zero_toList.symm)

theorem ofList_zero : Poly.ofList (List.replicate 256 0) = Poly.zero :=
  eq_zero_of_toList (Poly.toList_ofList List.length_replicate)

theorem map_zero_mul {l : List Coeff} (h : l.length = 256) : (l.map fun x => 0 * x) = List.replicate 256 0 := by
  rw [← h]
  simp

theorem foldl_layers_zero (f : Nat → List Coeff → List Coeff)
    (hf : ∀ len (r : List Coeff), f len (r.map fun x => 0 * x) = (f len r).map fun x => 0 * x) (lens : List Nat) :
    ∀ r : List Coeff, lens.foldl (fun r len => f len r) (r.map fun x => 0 * x) =
      (lens.foldl (fun r len => f len r) r).map fun x => 0 * x := by
  induction lens with
  | nil => intro r; rfl
  | cons len lens ih => intro r; rw [List.foldl_cons, hf, ih]; rfl

theorem nttPoly_zero : nttPoly Poly.zero = Poly.zero := by
  apply eq_zero_of_toList
  have h := foldl_layers_zero nttLayer (fun len r => layer_map_mul butterflyCT_mul 0 len _ r)
    [128, 64, 32, 16, 8, 4, 2] (List.replicate 256 0)
  rw [map_zero_mul List.length_replicate] at h
  rw [nttPoly_toList, zero_toList, nttList, h]
  exact map_zero_mul (nttList_length List.length_replicate)

theorem inttPoly_zero : inttPoly Poly.zero = Poly.zero := by
  apply eq_zero_of_toList
  have h := foldl_layers_zero inttLayer (fun len r => layer_map_mul butterflyGS_mul 0 len _ r)
    [2, 4, 8, 16, 32, 64, 128] (List.replicate 256 0)
  rw [map_zero_mul List.length_replicate] at h
  have hl := inttList_length (r := List.replicate 256 0) List.length_replicate
  rw [inttList, List.length_map] at hl
  rw [inttPoly_toList, zero_toList, inttList, h, map_zero_mul hl, List.map_replicate,
    zero_mul]

theorem polyAdd_zero : polyAdd Poly.zero Poly.zero = Poly.zero := by
  apply eq_zero_of_toList
  rw [polyAdd_toList, zero_toList, List.zipWith_replicate']
  rfl

theorem polySub_zero (f : Poly) : polySub f Poly.zero = f := by
  apply Vector.toList_inj.1
  rw [polySub_toList, zero_toList]
  apply List.ext_getElem (by rw [List.length_zipWith, List.length_replicate, Vector.length_toList]; rfl)
  intro i h1 h2
  rw [List.getElem_zipWith, List.getElem_replicate, sub_zero]

theorem pairMul_zero : ∀ (gs as bs : List Coeff), (∀ x ∈ as, x = 0) → ∀ x ∈ pairMul gs as bs, x = 0 := by
  intro gs
  induction gs with
  | nil => intro as bs _ x hx; simp [pairMul] at hx
  | cons g gs ih =>
    intro as bs h x hx
    match as, bs with
    | [], _ | [_], _ | _ :: _ :: _, [] | _ :: _ :: _, [_] => simp [pairMul] at hx
    | a0 :: a1 :: as, b0 :: b1 :: bs =>
      have h0 : a0 = 0 := h a0 (by simp)
      have h1 : a1 = 0 := h a1 (by simp)
      simp only [pairMul, List.mem_cons, h0, h1, zero_mul, add_zero, or_self_left] at hx
      rcases hx with hx | hx
      · exact hx
      · exact ih as bs (fun y hy => h y (by simp [hy])) x hx

theorem pwPoly_zero (f : Poly) : pwPoly Poly.zero f = Poly.zero := by
  have hg : gammas.length = 128 := by decide +kernel
  have hl : (pairMul gammas Poly.zero.toList f.toList).length = 256 := by
    rw [pairMul_length _ _ _ (by rw [Vector.length_toList, hg]) (by rw [Vector.length_toList, hg]), hg]
  apply eq_zero_of_toList
  rw [pwPoly, Poly.toList_ofList hl]
  exact List.eq_replicate_iff.2 ⟨hl, pairMul_zero _ _ _ fun x hx => List.eq_of_mem_replicate (zero_toList ▸ hx)⟩

/-! ### Codings -/

theorem nats_zero : Poly.nats Poly.zero = List.replicate 256 0 := by
  rw [Poly.nats, zero_toList, List.map_replicate, show (0 : Coeff).val = 0 from rfl]

theorem ofNats_zero : Poly.ofNats (List.replicate 256 0) = Poly.zero := by
  rw [Poly.ofNats, List.map_replicate]
  exact ofList_zero

theorem decodeBits_zero (l : Nat) : decodeBits l (bytesOf (32 * l) 0#8) = List.replicate 256 0 := by
  refine List.eq_replicate_iff.2 ⟨by simp, fun v hv => ?_⟩
  obtain ⟨i, hi, rfl⟩ := List.getElem_of_mem hv
  apply Nat.eq_of_testBit_eq
  intro j
  rw [Nat.zero_testBit]
  by_cases hj : j < l
  · rw [decodeBits_getElem_testBit (by simp) i j hi hj]
    have : (bytesOf (32 * l) 0#8).getD ((i * l + j) / 8) (0 : Byte) = 0#8 := by rw [bytesOf, List.getD_eq_getElem?_getD, List.getElem?_replicate]; split <;> rfl
    rw [this]
    simp
  · exact Nat.testBit_lt_two_pow (lt_of_lt_of_le (decodeBits_lt (List.getElem_mem hi))
      (Nat.pow_le_pow_right (by omega) (by omega)))

theorem encodeBits_zero (l : Nat) : encodeBits l (List.replicate 256 0) = bytesOf (32 * l) 0#8 := by
  rw [← decodeBits_zero l]
  exact encodeBits_decodeBits (by simp)

theorem encodePoly_zero : encodePoly Poly.zero = bytesOf 384 0#8 := by rw [encodePoly, nats_zero, encodeBits_zero]

theorem decodePoly_zero : decodePoly (bytesOf 384 0#8) = Poly.zero := by
  rw [decodePoly, decodeBits_zero 12, ofNats_zero]

theorem compressPoly_zero (d : Nat) (h : compress 0 d = 0) : compressPoly d Poly.zero = bytesOf (32 * d) 0#8 := by
  rw [compressPoly, nats_zero, List.map_replicate, h, encodeBits_zero]

theorem decompressPoly_zero (d : Nat) (h : decompress 0 d = 0) : decompressPoly d (bytesOf (32 * d) 0#8) = Poly.zero := by
  rw [decompressPoly, decodeBits_zero, List.map_replicate, h, ofNats_zero]

theorem cbdPoly_zero (eta : Nat) : cbdPoly eta (bytesOf (64 * eta) 0#8) = Poly.zero := by
  have hb : byteBits (bytesOf (64 * eta) 0#8) = List.replicate (2 * eta * 256) false := by
    refine List.eq_replicate_iff.2 ⟨by rw [byteBits_length, bytesOf_length]; ring, fun b hb => ?_⟩
    obtain ⟨i, hi, rfl⟩ := List.getElem_of_mem hb
    rw [byteBits_getElem]
    have : (bytesOf (64 * eta) 0#8).getD (i / 8) (0 : Byte) = 0#8 := by rw [bytesOf, List.getD_eq_getElem?_getD, List.getElem?_replicate]; split <;> rfl
    rw [this]
    simp
  have hz : (groups (2 * eta) 256 (byteBits (bytesOf (64 * eta) 0#8))).map (cbdCoeff eta) = List.replicate 256 0 := by
    refine List.eq_replicate_iff.2 ⟨by simp, fun c hc => ?_⟩
    obtain ⟨g, hg, rfl⟩ := List.mem_map.1 hc
    obtain ⟨i, hi, rfl⟩ := List.getElem_of_mem hg
    rw [groups_getElem, hb]
    simp [cbdCoeff, List.count_replicate]
  rw [cbdPoly, hz, ofList_zero]

/-! ### Parse -/

theorem parseLoop_of_zeros (k : Nat) : ∀ n fuel i, n + 2 * k = 256 → k ≤ fuel →
    parseLoop (fun _ => 0#8) fuel i (List.replicate n 0) = some (List.replicate 256 0) := by
  induction k with
  | zero =>
    intro n fuel i h _
    obtain rfl : n = 256 := by omega
    cases fuel <;> rw [parseLoop, if_neg (by rw [List.length_replicate]; decide)]
  | succ k ih =>
    intro n fuel i h hf
    obtain ⟨m, rfl⟩ : ∃ m, fuel = m + 1 := ⟨fuel - 1, by omega⟩
    have hs : parseStep (fun _ => 0#8) i (List.replicate n 0) = List.replicate (n + 2) 0 := by
      have h2 : n + 1 < 256 := by omega
      simp [parseStep, parseLow, parseHigh, primeQ, coeffOfNat, h2, List.replicate_succ']
    rw [parseLoop, if_pos (by rw [List.length_replicate]; omega), hs]
    exact ih (n + 2) m (i + 3) (by omega) (by omega)

/-- Parse of a stream of zeros ends after 128 passes with the zero polynomial. -/
theorem parse_of_zeros {fuel : Nat} (h : 128 ≤ fuel) : parse fuel (fun _ => 0#8) = some Poly.zero := by
  have := parseLoop_of_zeros 128 0 fuel 0 (by omega) h
  rw [List.replicate_zero] at this
  rw [parse, this, Option.map_some, ofList_zero]

/-- A stream of ones holds no candidate, so Parse does not end on it (R327). -/
theorem parse_of_ones (fuel : Nat) : parse fuel (fun _ => 255#8) = none := by
  have h : ∀ i, parseLoop (fun _ => 255#8) fuel i [] = none := by
    induction fuel with
    | zero => intro i; rfl
    | succ n ih => intro i; simpa [parseLoop, parseStep, parseLow, parseHigh, primeQ] using ih (i + 3)
  rw [parse, h]; rfl

/-! ### The schemes at strength 512, over the symmetric unit of zeros -/

/-- A symmetric unit of zeros, whose Parse ends, and one whose Parse never ends. -/
def symZero : Sym := flatSym fun _ => 0#8
def symOnes : Sym := flatSym fun _ => 255#8

theorem sampleMatrix_zero {fuel : Nat} (h : 128 ≤ fuel) (rho : Bytes) (index : Nat → Nat → Nat × Nat) :
    sampleMatrix symZero fuel 2 rho index = some [[Poly.zero, Poly.zero], [Poly.zero, Poly.zero]] := by
  simp [sampleMatrix, symZero, flatSym, parse_of_zeros h, List.range_succ]

theorem prf_zero (eta : Nat) (seed : Bytes) (b : Byte) :
    cbdPoly eta (symZero.prf seed b (64 * eta)).toList = Poly.zero := by
  rw [show (symZero.prf seed b (64 * eta)).toList = bytesOf (64 * eta) 0#8 from Vector.toList_replicate, cbdPoly_zero]

theorem noiseVector_zero (eta : Nat) (seed : Bytes) (first : Nat) :
    noiseVector symZero eta seed first 2 = [Poly.zero, Poly.zero] := by
  simp [noiseVector, prf_zero, List.range_succ]

theorem polyDot_zero (f g : Poly) : polyDot [Poly.zero, Poly.zero] [f, g] = Poly.zero := by
  simp [polyDot, pwPoly_zero, polyAdd_zero]

theorem decodeVector_zero (n : Nat) (h : 768 ≤ n) : decodeVector 2 (bytesOf n 0#8) = [Poly.zero, Poly.zero] := by
  have h1 : min 384 n = 384 := by omega
  have h2 : min 384 (n - 384) = 384 := by omega
  simp [decodeVector, List.range_succ, slice_bytesOf, h1, h2, decodePoly_zero]

theorem hash_zero (B : Bytes) : (symZero.hash B).toList = bytesOf 32 0#8 := Vector.toList_replicate
theorem hash2_zero (B : Bytes) : (symZero.hash2 B).toList = bytesOf 64 0#8 := Vector.toList_replicate
theorem kdf_zero (B : Bytes) : (symZero.kdf B).toList = bytesOf 32 0#8 := Vector.toList_replicate

theorem kemKeyGen_zero {fuel : Nat} (h : 128 ≤ fuel) :
    kemKeyGen symZero fuel .s512 (bytesOf 64 0#8) = some (bytesOf 1632 0#8, bytesOf 800 0#8) := by
  simp [kemKeyGen, kpkeKeyGen, Strength.rank, sampleMatrix_zero h, Strength.eta1, noiseVector_zero, nttPoly_zero,
    polyDot_zero, polyAdd_zero, encodePoly_zero, hash_zero, hash2_zero, slice_bytesOf, bytesOf_append]

theorem kpkeEnc_zero {fuel : Nat} (h : 128 ≤ fuel) (r : Bytes) :
    kpkeEnc symZero fuel .s512 (bytesOf 800 0#8) (bytesOf 32 0#8) r = some (bytesOf 768 0#8) := by
  have c10 := compressPoly_zero 10 (by decide)
  have c4 := compressPoly_zero 4 (by decide)
  have d1 := decompressPoly_zero 1 (by decide)
  have p2 := prf_zero 2 r 4#8
  simp only [Nat.reduceMul] at c10 c4 d1 p2
  simp [kpkeEnc, Strength.rank, sampleMatrix_zero h, Strength.eta1, Strength.eta2, Strength.du, Strength.dv,
    noiseVector_zero, nttPoly_zero, inttPoly_zero, polyDot_zero, polyAdd_zero, decodeVector_zero, p2,
    c10, c4, d1, bytesOf_append]

theorem kpkeNoisyMessage_zero (c : Bytes) : kpkeNoisyMessage .s512 (bytesOf 768 0#8) c =
    decompressPoly 4 (slice c 640 768) := by
  simp [kpkeNoisyMessage, Strength.rank, Strength.du, Strength.dv, decodeVector_zero, List.range_succ, polyDot_zero,
    inttPoly_zero, polySub_zero]

theorem kpkeDec_zero (c : Bytes) (h : slice c 640 768 = bytesOf 128 0#8) :
    kpkeDec .s512 (bytesOf 768 0#8) c = bytesOf 32 0#8 := by
  have d4 := decompressPoly_zero 4 (by decide)
  have c1 := compressPoly_zero 1 (by decide)
  simp only [Nat.reduceMul] at d4 c1
  rw [kpkeDec, kpkeNoisyMessage_zero, h, d4, c1]

theorem kemEncaps_zero {fuel : Nat} (h : 128 ≤ fuel) (E : Bytes) :
    kemEncaps symZero fuel .s512 (bytesOf 800 0#8) E = some (bytesOf 32 0#8, bytesOf 768 0#8) := by
  simp [kemEncaps, hash_zero, kpkeEnc_zero h, kdf_zero]

theorem kemDecaps_zero {fuel : Nat} (h : 128 ≤ fuel) :
    kemDecaps symZero fuel .s512 (bytesOf 1632 0#8) (bytesOf 768 0#8) = some (bytesOf 32 0#8) := by
  simp [kemDecaps, Strength.rank, slice_bytesOf, kpkeDec_zero, kpkeEnc_zero h, kdf_zero]

/-- Over the unit of ones no matrix is ever sampled. -/
theorem sampleMatrix_ones (fuel : Nat) (rho : Bytes) (index : Nat → Nat → Nat × Nat) :
    sampleMatrix symOnes fuel 2 rho index = none := by
  simp [sampleMatrix, symOnes, flatSym, parse_of_ones, List.range_succ]

end Sys2Proof.Machine
end

