-- ==== Sys2Proof/Tests/Slice0.lean ====
section
/-! SUPPORT. The model's own tests: decoding, single steps against spec/95_test_vectors.md (whose values were not made with this
model), and, for every obligation with hypotheses, states and operands that meet them. -/

-- The kernel evaluates many theorems here; one after the other they need one thread, not one each.
set_option Elab.async false

open Sys2Proof Sys2Proof.Machine Sys2Proof.Claims

namespace Sys2Proof.Tests

/-! ### Small states -/

/-- The state a result leads to. -/
def after (x : Result) : State :=
  match x with
  | .next t => t
  | .fault f => nomatch f
  | .refused _ => State.reset

/-- The state one command leads to. -/
def run (i : Instr) (s : State) : State := after (exec i s)

/-- F0 and F1 set. -/
def regsF (a b : U256) : State := { State.reset with f := (State.reset.f.set 0 a).set 1 b }

/-- P0 and P1 set, and F0. -/
def regsP (k : U256) (A B : Point) : State :=
  { State.reset with f := State.reset.f.set 0 k, p := (State.reset.p.set 0 A).set 1 B }

/-- R0 and R1 set. -/
def regsR (f g : List Nat) : State :=
  { State.reset with r := (State.reset.r.set 0 (Poly.ofNats f)).set 1 (Poly.ofNats g) }

/-- Bytes placed in BUF. -/
def bufAt (addr : Nat) (B : Bytes) (s : State) : State := { s with buf := s.buf.writeBytes addr B }

/-- The ARG registers. -/
def args (a0 a1 a2 a3 a4 a5 : Word) (s : State) : State := { s with arg := #v[a0, a1, a2, a3, a4, a5, 0, 0] }

/-- The provider's answer with the given bytes, of which there are fewer than 65536. -/
def answer (status : Word) (B : Bytes) : EntropyAnswer :=
  { status := status, count := BitVec.ofNat 16 B.length, data := Vector.ofFn fun i => B.getD i 0 }

/-- An answer of the provider at hand. -/
def answered (status : Word) (B : Bytes) (s : State) : State :=
  { s with status := { s.status with busy := true },
           engine := { Engine.idle with entRsp := some (answer status B) } }

/-- The first n coefficients of R[i]. -/
def coeffs (i : Fin 8) (n : Nat) (s : State) : List Nat := (s.readR i).toList.take n |>.map fun c => c.val

/-- The base point, and -G, 2G and 3G (95_test_vectors.md 3.2), as registers. -/
def ptG : Point := { inf := false, x := BitVec.ofNat 256 baseX, y := BitVec.ofNat 256 baseY }
def ptNegG : Point :=
  { inf := false, x := BitVec.ofNat 256 baseX,
    y := 0xb01cbd1c01e58065711814b583f061e9d431cca994cea1313449bf97c840ae0a }
def pt2G : Point :=
  { inf := false,
    x := 0x7cf27b188d034f7e8a52380304b51ac3c08969e277f21b35a60b48fc47669978,
    y := 0x07775510db8ed040293d9ac69f7430dbba7dade63ce982299e04b79d227873d1 }
def pt3G : Point :=
  { inf := false,
    x := 0x5ecbe4d1a6330a44c8f7ef951d4bf165e6c6b721efada985fb41661bc6e7fd6c,
    y := 0x8734640c4998ff7e374b06ce1a64a2ecd82ab036384fb83d9a79b127a27d5032 }
def ptInf : Point := { inf := true, x := 0, y := 0 }

/-- 2^256 - 1. -/
def allOnes : U256 := 0xffffffffffffffffffffffffffffffffffffffffffffffffffffffffffffffff

/-! ### WellFormed refuses the modifiers no legal word has (R96) -/

theorem test_wellFormed_eta_is_two_or_three :
    (Instr.cbd 0 1 0).wellFormed = false ∧ (Instr.cbd 0 4 0).wellFormed = false ∧
    (Instr.cbd 7 2 0xFFFF).wellFormed = true ∧ (Instr.cbd 0 3 0).wellFormed = true := by decide

theorem test_wellFormed_compressor_widths :
    (Instr.rcomp 0 0 0).wellFormed = false ∧ (Instr.rcomp 0 12 0).wellFormed = false ∧
    (Instr.rcomp 0 9 0).wellFormed = false ∧ (Instr.rcomp 7 11 0xFFFF).wellFormed = true := by decide

theorem test_wellFormed_decompressor_widths :
    (Instr.rdecomp 0 2 0).wellFormed = false ∧ (Instr.rdecomp 0 15 0).wellFormed = false ∧
    (Instr.rdecomp 0 1 0).wellFormed = true ∧ (Instr.rdecomp 0 4 0).wellFormed = true ∧
    (Instr.rdecomp 0 5 0).wellFormed = true ∧ (Instr.rdecomp 0 10 0).wellFormed = true := by decide

/-! ### Decoding: the words of 95_test_vectors.md 7.1, one for each command -/

theorem test_decode_system_and_field :
    decode 0x00000000 = .ok .nop ∧ decode 0x01000000 = .ok .zeroize ∧
    decode 0x10201000 = .ok (.fadd 2 0 1) ∧ decode 0x11201000 = .ok (.fsub 2 0 1) ∧
    decode 0x12312000 = .ok (.fmont 3 1 2) ∧ decode 0x13100000 = .ok (.fred 1 0) ∧
    decode 0x14201000 = .ok (.fredw 2 0 1) ∧ decode 0x15100000 = .ok (.finv 1 0) ∧
    decode 0x16110000 = .ok (.ftom 1 1) ∧ decode 0x17330000 = .ok (.ffrom 3 3) ∧
    decode 0x18100000 = .ok (.fmov 1 0) ∧ decode 0x19200020 = .ok (.fld 2 0x0020) ∧
    decode 0x1A300040 = .ok (.fst 3 0x0040) ∧ decode 0x1B100000 = .ok (.sred 1 0) := by decide

theorem test_decode_point_and_ecdh :
    decode 0x20100120 = .ok (.pld 1 0x0120) ∧ decode 0x21200080 = .ok (.pst 2 0x0080) ∧
    decode 0x22100000 = .ok (.pmov 1 0) ∧ decode 0x23000000 = .ok (.pbase 0) ∧
    decode 0x24300000 = .ok (.pinf 3) ∧ decode 0x25010000 = .ok (.pvalid 1) ∧
    decode 0x26201000 = .ok (.padd 2 0 1) ∧ decode 0x27100000 = .ok (.pdbl 1 0) ∧
    decode 0x28100000 = .ok (.pgetx 1 0) ∧ decode 0x29210000 = .ok (.pgety 2 1) ∧
    decode 0x2A145000 = .ok (.pset 1 4 5) ∧ decode 0x2B001000 = .ok (.smul 0 0 1) ∧
    decode 0x30000000 = .ok .ecdhKeygen ∧ decode 0x31000000 = .ok .ecdhSecret := by decide

theorem test_decode_ring_and_kyber :
    decode 0x40100180 = .ok (.rld 1 0x0180) ∧ decode 0x41400300 = .ok (.rst 4 0x0300) ∧
    decode 0x42100000 = .ok (.rmov 1 0) ∧ decode 0x43201000 = .ok (.radd 2 0 1) ∧
    decode 0x44201000 = .ok (.rsub 2 0 1) ∧ decode 0x45200000 = .ok (.ntt 2 0) ∧
    decode 0x46440000 = .ok (.intt 4 4) ∧ decode 0x47423000 = .ok (.pwmul 4 2 3) ∧
    decode 0x48501000 = .ok (.polymul 5 0 1) ∧ decode 0x49030100 = .ok (.cbd 0 3 0x0100) ∧
    decode 0x4A240040 = .ok (.sampleu 2 1 0 0x0040) ∧ decode 0x4B1A0200 = .ok (.rcomp 1 10 0x0200) ∧
    decode 0x4C110020 = .ok (.rdecomp 1 1 0x0020) ∧ decode 0x50000200 = .ok (.kybInit 512) ∧
    decode 0x51000000 = .ok .kybKeygen ∧ decode 0x52000000 = .ok .kybEncaps ∧
    decode 0x53000000 = .ok .kybDecaps := by decide

theorem test_decode_bit_by_bit :
    decode 0b00101011000011110001000000000000 = .ok (.smul 0 15 1) ∧
    decode 0b01001010011111110000000000000000 = .ok (.sampleu 7 3 3 0) ∧
    decode 0b01000111010000100011000000000000 = .ok (.pwmul 4 2 3) ∧
    decode 0b00110001000000000000000000000000 = .ok .ecdhSecret ∧
    decode 0b01010000000000000000010000000000 = .ok (.kybInit 1024) := by decide

theorem test_decode_refuses_illegal_words :
    decode 0x02000000 = .error .opcode ∧ decode 0xFF000000 = .error .opcode ∧ decode 0x1C000000 = .error .opcode ∧
    decode 0x2C000000 = .error .opcode ∧ decode 0x32000000 = .error .opcode ∧ decode 0x4D000000 = .error .opcode ∧
    decode 0x54000000 = .error .opcode ∧ decode 0x00000001 = .error .reserved ∧ decode 0x31000100 = .error .reserved ∧
    decode 0x10001001 = .error .reserved ∧ decode 0x13101000 = .error .reserved ∧ decode 0x25100000 = .error .reserved ∧
    decode 0x23010000 = .error .reserved ∧ decode 0x20400000 = .error .register ∧ decode 0x26400000 = .error .register ∧
    decode 0x2B004000 = .error .register ∧ decode 0x20110000 = .error .reserved ∧ decode 0x40800000 = .error .register ∧
    decode 0x45280000 = .error .register ∧ decode 0x49040000 = .error .modifier ∧ decode 0x49010000 = .error .modifier ∧
    decode 0x4B120000 = .error .modifier ∧ decode 0x4C1C0000 = .error .modifier ∧ decode 0x50100200 = .error .reserved ∧
    decode 0x50010200 = .error .reserved ∧ decode 0x2B000004 = .error .reserved ∧ decode 0x4AF00000 = .error .register := by
  decide

theorem test_decodeTableWord_takes_the_low_bits :
    decodeTableWord 32 0x12345678_1A300040 = some (.fst 3 0x0040) ∧ decodeTableWord 32 0x02000000 = none := by decide

theorem test_encode_words_of_the_list :
    encode (.smul 0 0 1) = 0x2B001000 ∧ encode (.sampleu 2 1 0 0x0040) = 0x4A240040 ∧
    encode (.rcomp 1 10 0x0200) = 0x4B1A0200 ∧ encode (.kybInit 512) = 0x50000200 := by decide

/-! ### The tables of R14, from their definition as powers of 17 -/

theorem test_zetas_are_powers_of_17 :
    zetas.map (fun c => c.val) = (List.range 128).map fun i => 17 ^ brv7 i % 3329 := by decide +kernel

theorem test_gammas_are_odd_powers_of_17 :
    gammas.map (fun c => c.val) = (List.range 128).map fun i => gamma i := by decide +kernel

/-! ### SYSTEM -/

theorem test_nop_completes :
    (run .nop State.reset).statusWord = 2 ∧ run .nop State.reset = complete .success State.reset := ⟨by decide, rfl⟩

theorem test_zeroize_keeps_strength_and_werr :
    let s : State := { bufAt 5 [7] (regsF 9 9) with
      strength := .s768, ie := true, status := { Status.reset with werr := true, z := true } }
    (run .zeroize s).strength = .s768 ∧ (run .zeroize s).statusWord = 0x42 ∧ (run .zeroize s).readF 1 = 0 ∧
    (run .zeroize s).buf = [] ∧ (run .zeroize s).ie = true := by decide +kernel

/-! ### FIELD: the vectors of 95_test_vectors.md 2 -/

theorem test_fadd_F1 :
    let t := run (.fadd 2 0 1) (regsF 0xffffffff00000001000000000000000000000000fffffffffffffffffffffffe 2)
    t.readF 2 = 1 ∧ t.statusWord = 0x2 := by decide +kernel

theorem test_fadd_F3 :
    let t := run (.fadd 0 0 1) (regsF allOnes allOnes)
    t.readF 0 = 0x00000001fffffffdfffffffffffffffffffffffe000000000000000000000000 ∧ t.statusWord = 0x2 := by decide +kernel

theorem test_fsub_F4 :
    let t := run (.fsub 2 0 1) (regsF 1 2)
    t.readF 2 = 0xffffffff00000001000000000000000000000000fffffffffffffffffffffffe ∧ t.statusWord = 0x2 := by decide +kernel

theorem test_fsub_F5 :
    let t := run (.fsub 1 1 1) (regsF 0 allOnes)
    t.readF 1 = 0 ∧ t.statusWord = 0xA := by decide +kernel

theorem test_fmont_F7 :
    let t := run (.fmont 2 0 1) (regsF allOnes allOnes)
    t.readF 2 = 0x0000000000000001fffffffd00000001fffffffffffffffe0000000300000000 ∧ t.statusWord = 0x2 := by decide +kernel

theorem test_fmont_F9 :
    let t := run (.fmont 2 0 1) (regsF 0xffffffff00000001000000000000000000000000ffffffffffffffffffffffff 5)
    t.readF 2 = 0 ∧ t.statusWord = 0xA := by decide +kernel

theorem test_fred_F10 :
    let t := run (.fred 2 0) (regsF 0xffffffff00000001000000000000000000000000ffffffffffffffffffffffff 0)
    t.readF 2 = 0 ∧ t.statusWord = 0xA := by decide +kernel

theorem test_fred_F12 :
    let t := run (.fred 2 0) (regsF allOnes 0)
    t.readF 2 = 0x00000000fffffffeffffffffffffffffffffffff000000000000000000000000 ∧ t.statusWord = 0x2 := by decide +kernel

theorem test_fredw_F13 :
    let t := run (.fredw 2 0 1) (regsF 1 0)
    t.readF 2 = 0x00000000fffffffeffffffffffffffffffffffff000000000000000000000001 ∧ t.statusWord = 0x2 := by decide +kernel

theorem test_fredw_F14 :
    let t := run (.fredw 2 0 1) (regsF allOnes allOnes)
    t.readF 2 = 0x00000004fffffffdfffffffffffffffefffffffbffffffff0000000000000002 ∧ t.statusWord = 0x2 := by decide +kernel

theorem test_finv_F17 :
    let t := run (.finv 2 0) (regsF 0xffffffff00000001000000000000000000000001000000000000000000000001 0)
    t.readF 2 = 0x7fffffff80000000800000000000000000000000800000000000000000000000 ∧ t.statusWord = 0x2 := by decide +kernel

theorem test_finv_F20 :
    let t := run (.finv 2 0) (regsF 0xffffffff00000001000000000000000000000000ffffffffffffffffffffffff 0)
    t.readF 2 = 0 ∧ t.statusWord = 0xA := by decide +kernel

theorem test_ftom_F22 :
    let t := run (.ftom 2 0) (regsF 5 0)
    t.readF 2 = 0x00000004fffffffafffffffffffffffffffffffb000000000000000000000005 ∧ t.statusWord = 0x2 := by decide +kernel

theorem test_ffrom_F23 :
    let t := run (.ffrom 2 0) (regsF 0x00000004fffffffafffffffffffffffffffffffb000000000000000000000005 0)
    t.readF 2 = 5 ∧ t.statusWord = 0x2 := by decide +kernel

theorem test_ffrom_F24 :
    let t := run (.ffrom 2 0) (regsF 1 0)
    t.readF 2 = 0xfffffffe00000003fffffffd0000000200000001fffffffe0000000300000000 ∧ t.statusWord = 0x2 := by decide +kernel

theorem test_fmov_F25 :
    let t := run (.fmov 2 0) (regsF allOnes 0)
    t.readF 2 = allOnes ∧ t.statusWord = 0x2 := by decide +kernel

theorem test_sred_F29 :
    let t := run (.sred 2 0) (regsF allOnes 0)
    t.readF 2 = 0x00000000ffffffff00000000000000004319055258e8617b0c46353d039cdaae ∧ t.statusWord = 0x2 := by decide +kernel

theorem test_sred_F30 :
    let t := run (.sred 2 0) (regsF 0xffffffff00000001000000000000000000000000ffffffffffffffffffffffff 0)
    t.readF 2 = 0x000000000000000000000000000000004319055358e8617b0c46353d039cdaae ∧ t.statusWord = 0x2 := by decide +kernel

theorem test_fld_FL1_and_H3 :
    (run (.fld 1 0x100) (bufAt 0x11F [1] State.reset)).readF 1 = 1 ∧
    (run (.fld 0 0) (hostWrite 0x4000 0x04030201 State.reset)).readF 0 = 0x0102030400000000 * 2 ^ 192 := by decide +kernel

theorem test_fld_FL3_last_address :
    (run (.fld 0 0x3FE0) (bufAt 16383 [9] State.reset)).readF 0 = 9 ∧
    (run (.fld 0 0x3FE1) (bufAt 16383 [9] (regsF 7 0))).statusWord = 0x806 ∧
    (run (.fld 0 0x3FE1) (bufAt 16383 [9] (regsF 7 0))).readF 0 = 7 := by decide +kernel

theorem test_fst_FL2 :
    let t := run (.fst 0 0x40) (bufAt 0x40 [0xAA] (regsF 0x0102 0))
    t.buf = [(0x5E, 1), (0x5F, 2)] ∧ t.statusWord = 2 := by decide +kernel

/-! ### POINT: the vectors of 95_test_vectors.md 3 -/

theorem test_pvalid_V1_V2_V3_V4 :
    (run (.pvalid 1) (regsP 0 ptInf ptG)).statusWord = 0x22 ∧
    (run (.pvalid 1) (regsP 0 ptG { ptG with y := ptG.y + 1 })).statusWord = 0x02 ∧
    (run (.pvalid 1) (regsP 0 ptG ptInf)).statusWord = 0x12 ∧
    (run (.pvalid 1) (regsP 0 ptG Point.zero)).statusWord = 0x02 := by decide +kernel

/-- Y0 of 95_test_vectors.md 3.1, a square root of b. -/
def rootB : U256 := 0x66485c780e2f83d72433bd5d84a06bb6541c2af31dae871728bf856a174f93f4

theorem test_pvalid_V5_V6_V7 :
    (run (.pvalid 1) (regsP 0 ptInf { inf := false, x := 0, y := rootB })).statusWord = 0x22 ∧
    (run (.pvalid 1) (regsP 0 ptG { inf := false, x := BitVec.ofNat 256 primeP, y := rootB })).statusWord = 0x02 ∧
    (run (.pvalid 1) (regsP 0 ptInf ptNegG)).statusWord = 0x22 := by decide +kernel

theorem test_padd_P2_P3_P5 :
    (run (.padd 2 0 0) (regsP 0 ptG ptG)).readP 2 = pt2G ∧
    (run (.padd 0 0 1) (regsP 0 ptG pt2G)).readP 0 = pt3G ∧
    (run (.padd 2 0 1) (regsP 0 ptG ptNegG)).readP 2 = ptInf ∧
    (run (.padd 2 0 1) (regsP 0 ptG ptNegG)).statusWord = 0x12 := by decide +kernel

theorem test_padd_P6_P7_P9 :
    (run (.padd 2 0 1) (regsP 0 ptInf ptG)).readP 2 = ptG ∧
    (run (.padd 2 0 1) (regsP 0 ptG ptInf)).readP 2 = ptG ∧ (run (.padd 2 0 0) (regsP 0 ptInf ptG)).readP 2 = ptInf ∧
    (run (.padd 0 0 1) (regsP 0 ptG Point.zero)).statusWord = 0x206 ∧
    (run (.padd 0 0 1) (regsP 0 ptG Point.zero)).readP 0 = ptG := by decide +kernel

theorem test_pdbl_P1_P8 :
    (run (.pdbl 1 0) (regsP 0 ptG ptInf)).readP 1 = pt2G ∧ (run (.pdbl 1 0) (regsP 0 ptG ptInf)).statusWord = 0x2 ∧
    (run (.pdbl 1 0) (regsP 0 ptInf ptG)).readP 1 = ptInf ∧ (run (.pdbl 1 2) (regsP 0 ptInf ptG)).statusWord = 0x206 := by
  decide +kernel

theorem test_smul_P10_P11_P12 :
    (run (.smul 2 0 1) (regsP 0 ptInf ptG)).readP 2 = ptInf ∧
    (run (.smul 2 0 1) (regsP 1 ptInf ptG)).readP 2 = ptG ∧ (run (.smul 1 0 1) (regsP 3 ptInf ptG)).readP 1 = pt3G := by
  decide +kernel

theorem test_smul_P17_P18 :
    (run (.smul 2 0 1) (regsP allOnes ptG ptInf)).statusWord = 0x12 ∧
    (run (.smul 2 0 1) (regsP 0 ptG Point.zero)).statusWord = 0x206 := by decide +kernel

theorem test_pbase_pinf_pset_PM1_PM2_PM4 :
    (run (.pbase 0) State.reset).readP 0 = ptG ∧ (run (.pinf 3) State.reset).readP 3 = ptInf ∧
    (run (.pinf 3) State.reset).statusWord = 0x12 ∧ (run (.pset 1 0 1) (regsF ptG.x ptG.y)).readP 1 = ptG := by decide +kernel

theorem test_pmov_pgetx_pgety :
    (run (.pmov 3 1) (regsP 0 ptG ptNegG)).readP 3 = ptNegG ∧
    (run (.pgetx 9 1) (regsP 0 ptG pt2G)).readF 9 = pt2G.x ∧ (run (.pgety 9 1) (regsP 0 ptG pt2G)).readF 9 = pt2G.y ∧
    (run (.pgetx 1 1) (regsP 0 ptG ptInf)).statusWord = 0xA := by decide +kernel

theorem test_pld_PM5_last_address :
    (run (.pld 0 0x3FC0) (bufAt 16383 [5] State.reset)).readP 0 = { inf := false, x := 0, y := 5 } ∧
    (run (.pld 0 0x3FC1) State.reset).statusWord = 0x806 := by decide +kernel

theorem test_pst_writes_x_then_y :
    (run (.pst 0 0x80) (regsP 0 { inf := false, x := 0x102, y := 3 } ptG)).buf =
      [(0x9E, 1), (0x9F, 2), (0xBF, 3)] := by decide +kernel

theorem test_pst_PM2_refuses_infinity :
    (run (.pst 1 0x80) (regsP 0 ptG ptInf)).statusWord = 0x206 ∧
    (run (.pst 1 0x3FC1) (regsP 0 ptG ptInf)).statusWord = 0x806 := by decide +kernel

/-! ### ECDH: the vectors of 95_test_vectors.md 4 -/

theorem test_ecdhKeygen_E2 :
    let s := args 0 32 0x20 64 0 0 State.reset
    (run .ecdhKeygen s).engine.entReq = some { min := 32, max := 32 } ∧
    (run .ecdhKeygen (answered 0 (bytesOf 32 0) s)).engine.entReq = some { min := 32, max := 32 } ∧
    (run .ecdhKeygen (answered 0 (beBytes orderN 32) s)).statusWord = 0x81 ∧
    (run .ecdhKeygen (answered 0 (beBytes 1 32) s)).buf.read 31 = 1 ∧
    memRead (run .ecdhKeygen (answered 0 (beBytes 1 32) s)) 32 64 = pointBytes ptG ∧
    (run .ecdhKeygen (answered 0 (beBytes 1 32) s)).rlen1 = 64 := by decide +kernel

theorem test_ecdhKeygen_E5_E6 :
    (run .ecdhKeygen (args 0 31 0x20 64 0 0 State.reset)).statusWord = 0x406 ∧
    (run .ecdhKeygen (args 0x3FF0 32 0x20 64 0 0 State.reset)).statusWord = 0x806 ∧
    (run .ecdhKeygen (answered 1 (bytesOf 32 1) (args 0 32 0x20 64 0 0 State.reset))).statusWord = 0x106 ∧
    (run .ecdhKeygen (answered 0 (bytesOf 31 1) (args 0 32 0x20 64 0 0 State.reset))).statusWord = 0x106 := by decide +kernel

/-- BUF with a private key at 0x100 and a public key at 0x120, and room at 0x180. -/
def secretState (k : Nat) (Q : Point) : State :=
  args 0x100 32 0x120 64 0x180 32 (bufAt 0x120 (pointBytes Q) (bufAt 0x100 (beBytes k 32) State.reset))

theorem test_ecdhSecret_writes_the_coordinate :
    memRead (run .ecdhSecret (secretState 3 ptG)) 0x180 32 = beBytes pt3G.x.toNat 32 ∧
    (run .ecdhSecret (secretState 3 ptG)).rlen0 = 32 ∧ (run .ecdhSecret (secretState 3 ptG)).rlen1 = 0 := by decide +kernel

theorem test_ecdhSecret_E4_E5 :
    (run .ecdhSecret (secretState 0 ptG)).statusWord = 0x306 ∧
    (run .ecdhSecret (secretState orderN Point.zero)).statusWord = 0x306 ∧
    (run .ecdhSecret (secretState 1 Point.zero)).statusWord = 0x206 ∧
    (run .ecdhSecret { secretState 1 ptG with arg := (secretState 1 ptG).arg.set 3 65 }).statusWord = 0x206 ∧
    (run .ecdhSecret { secretState 0 ptG with arg := (secretState 0 ptG).arg.set 5 31 }).statusWord = 0x406 := by
  decide +kernel

/-! ### RING: the vectors of 95_test_vectors.md 5 -/

theorem test_ntt_N3 :
    coeffs 2 8 (run (.ntt 2 0) (regsR [0, 0, 1] [])) = [17, 0, 3312, 0, 2761, 0, 568, 0] := by decide +kernel

theorem test_ntt_N5 :
    coeffs 2 8 (run (.ntt 2 0) (regsR (List.range 256) [])) = [2429, 2845, 425, 795, 1865, 1356, 624, 31] := by decide +kernel

theorem test_intt_N9 :
    coeffs 2 8 (run (.intt 2 0) (regsR (List.range 256) [])) = [127, 128, 2133, 2133, 1694, 1694, 410, 410] := by decide +kernel

theorem test_pwmul_N10 :
    coeffs 1 6 (run (.pwmul 1 0 1) (regsR ((List.range 256).map (· % 2)) ((List.range 256).map (· % 2)))) =
      [17, 0, 3312, 0, 2761, 0] := by decide +kernel

theorem test_polymul_N12 :
    coeffs 2 3 (run (.polymul 2 0 1) (regsR (List.replicate 255 0 ++ [1]) [0, 1])) = [3328, 0, 0] := by decide +kernel

theorem test_polymul_N13 :
    let c := coeffs 2 256 (run (.polymul 2 0 1) (regsR [1, 2] ([3] ++ List.replicate 254 0 ++ [1])))
    c.take 3 = [1, 6, 0] ∧ c.getD 255 0 = 1 := by decide +kernel

theorem test_radd_rsub_N14_N15 :
    coeffs 2 3 (run (.radd 2 0 1) (regsR [3328, 3328, 5] [1, 3328])) = [0, 3327, 5] ∧
    coeffs 2 3 (run (.rsub 2 0 1) (regsR [0, 7, 9] [1, 7, 4])) = [3328, 0, 5] := by decide +kernel

theorem test_rld_RE1_RE2 :
    coeffs 0 3 (run (.rld 0 0) (bufAt 0 [0xbc, 0x3a, 0x12] State.reset)) = [2748, 291, 0] ∧
    coeffs 0 256 (run (.rld 0 0) (bufAt 0 (bytesOf 12 255) State.reset)) = List.replicate 8 766 ++ List.replicate 248 0 := by
  decide +kernel

theorem test_rst_RE3_RE4 :
    memRead (run (.rst 0 0x300) (regsR [2748, 291] [])) 0x300 4 = [0xbc, 0x3a, 0x12, 0] ∧
    (run (.rst 1 0x180) (regsR [] ([3] ++ List.replicate 254 0 ++ [1]))).buf = [(0x180, 3), (0x2FE, 0x10)] := by
  decide +kernel

theorem test_rmov_copies :
    coeffs 7 3 (run (.rmov 7 1) (regsR [] [1, 2, 3328])) = [1, 2, 3328] ∧ (run (.rmov 7 1) State.reset).statusWord = 2 := by
  decide +kernel

theorem test_cbd_S2_S3_S4 :
    coeffs 0 2 (run (.cbd 0 2 0x100) (bufAt 0x100 [0x03] State.reset)) = [2, 0] ∧
    coeffs 0 2 (run (.cbd 0 2 0x100) (bufAt 0x100 [0x0c] State.reset)) = [3327, 0] ∧
    coeffs 0 2 (run (.cbd 0 2 0x100) (bufAt 0x100 [0x35] State.reset)) = [0, 2] := by decide +kernel

theorem test_cbd_S5_S6_S7 :
    coeffs 0 2 (run (.cbd 0 3 0x100) (bufAt 0x100 [0x07] State.reset)) = [3, 0] ∧
    coeffs 0 2 (run (.cbd 0 3 0x100) (bufAt 0x100 [0x38] State.reset)) = [3326, 0] ∧
    coeffs 0 2 (run (.cbd 0 3 0x100) (bufAt 0x100 [0xc0, 0x01] State.reset)) = [0, 3] := by decide +kernel

/-- The repeating stream of S8. -/
def streamS8 (i : Nat) : Byte := [0x00, 0x0d, 0xd0, 0xff, 0xff, 0xff, 0x01, 0x0d, 0x00].getD (i % 9) 0

theorem test_sampleu_S8 :
    let t := after (sampleuWith (flatSym streamS8) 2 1 0 0x40 State.reset)
    coeffs 2 6 t = [3328, 3328, 0, 3328, 3328, 0] ∧ t.statusWord = 2 := by decide +kernel

/-- SAMPLEU when its Parse has not ended. -/
theorem sampleuWith_of_none {sym : Sym} {d : Fin 8} {a b : Fin 4} {addr : Imm16} {s : State}
    (h : fitsBuf (immAddr addr) 32 = true)
    (hp : parse (parseFuel s) (sym.xof (memRead s (immAddr addr) 32) (BitVec.ofNat 8 a.val) (BitVec.ofNat 8 b.val)) = none) :
    sampleuWith sym d a b addr s = .next (keepParsing s) := by
  rw [sampleuWith, h, finishSample, hp]; rfl

theorem test_sampleu_stays_busy_on_a_poor_stream :
    (∃ t, sampleuWith symOnes 2 1 0 0x40 (accept 0x4A240040 State.reset) = .next t ∧
      t.statusWord = 1 ∧ t.r = State.reset.r ∧ t.engine.parseRound = 1) := ⟨_, sampleuWith_of_none (by decide) (parse_of_ones _), by decide, rfl, rfl⟩

theorem test_rcomp_C1 :
    memRead (run (.rcomp 1 10 0x200) (regsR [] [1664, 1665])) 0x200 5 = [0x00, 0x02, 0x08, 0x00, 0x00] := by decide +kernel

theorem test_rdecomp_C2 :
    coeffs 1 4 (run (.rdecomp 1 1 0x20) (bufAt 0x20 [5] State.reset)) = [1665, 0, 1665, 0] := by decide +kernel

theorem test_compress_rows_4_and_11 :
    [0, 1, 416, 832, 833, 1664, 1665, 2496, 2497, 3328].map (fun x => compress x 4) = [0, 0, 2, 4, 4, 8, 8, 12, 12, 0] ∧
    [0, 1, 416, 832, 833, 1664, 1665, 2496, 2497, 3328].map (fun x => compress x 11) =
      [0, 1, 256, 512, 512, 1024, 1024, 1536, 1536, 2047] := by decide +kernel

theorem test_decompress_rows_5_and_10 :
    [0, 1, 2, 31].map (fun y => decompress y 5) = [0, 104, 208, 3225] ∧
    [0, 1, 2, 1023].map (fun y => decompress y 10) = [0, 3, 7, 3326] := by decide +kernel

/-! ### KYBER: the vectors K1 and K4 of 95_test_vectors.md 6 -/

theorem test_kybInit_K1 :
    (run (.kybInit 768) State.reset).strength = .s768 ∧ (run (.kybInit 768) State.reset).statusWord = 2 ∧
    (run (.kybInit 999) { State.reset with strength := .s512 }).statusWord = 0x506 ∧
    (run (.kybInit 999) { State.reset with strength := .s512 }).strength = .s512 := by decide +kernel

/-- Strength 512 and descriptors. -/
def kyber512 (a0 a1 a2 a3 a4 a5 : Word) : State := args a0 a1 a2 a3 a4 a5 { State.reset with strength := .s512 }

theorem test_kybKeygen_K4 :
    (run .kybKeygen State.reset).statusWord = 0x506 ∧
    (run .kybKeygen (kyber512 0 1631 0x680 800 0 0)).statusWord = 0x406 ∧
    (run .kybKeygen (kyber512 0 1632 0x680 799 0 0)).statusWord = 0x406 ∧
    (run .kybKeygen (kyber512 0 1632 0x680 800 0 0)).engine.entReq = some { min := 64, max := 64 } ∧
    (run .kybKeygen (answered 0 (bytesOf 63 0) (kyber512 0 1632 0x680 800 0 0))).statusWord = 0x106 := by decide +kernel

theorem test_kybEncaps_program_5 :
    (run .kybEncaps (kyber512 0x1080 799 0x1700 32 0x1400 767)).statusWord = 0x406 ∧
    (run .kybEncaps (kyber512 0x1080 799 0x1700 32 0x1400 768)).statusWord = 0x206 ∧
    (run .kybEncaps (kyber512 0x3D00 800 0x1700 32 0x1400 768)).statusWord = 0x806 ∧
    (run .kybEncaps (answered 1 [] (kyber512 0x1080 800 0x1700 32 0x1400 768))).statusWord = 0x106 := by decide +kernel

theorem test_kybDecaps_K4 :
    (run .kybDecaps (kyber512 0 1632 0x1000 768 0x1400 31)).statusWord = 0x406 ∧
    (run .kybDecaps (kyber512 0 1631 0x1000 767 0x1400 32)).statusWord = 0x306 ∧
    (run .kybDecaps (kyber512 0 1632 0x1000 767 0x1400 32)).statusWord = 0x606 := by decide +kernel

/-! ### The host port and the step: H1 to H4 and parts of program 6 of 95_test_vectors.md -/

theorem test_host_H1_H3_H4 :
    hostRead State.reset 0 = 0x4B414301 ∧
    (hostWrite 0x4000 0x04030201 State.reset).buf = [(0, 1), (1, 2), (2, 3), (3, 4)] ∧
    hostWrite 14 5 State.reset = State.reset ∧ hostWrite 23 5 State.reset = State.reset ∧
    hostWrite 12 5 State.reset = State.reset := ⟨by decide, by decide, rfl, rfl, rfl⟩

theorem test_host_program_6 :
    let s := run .ecdhKeygen (accept 0x30000000 { args 0 32 0x20 64 0 0 State.reset with ie := true })
    s.statusWord = 0x81 ∧ (hostWrite 4 0x200 s).statusWord = 0xC1 ∧ (hostWrite 4 0x200 s).readArg 0 = 0 ∧
    hostRead (hostWrite 1 0 s) 1 = 0x30000000 ∧ (hostWrite 2 0x40 (hostWrite 4 0x200 s)).statusWord = 0x81 ∧
    hostWrite 3 2 s = State.reset := by
  refine ⟨by decide +kernel, by decide +kernel, by decide +kernel, by decide +kernel, by decide +kernel, rfl⟩

theorem test_step_runs_the_placed_word :
    (after (step (State.reset.withFetchWord 32 0x23000000))).readP 0 = ptG ∧
    (after (step (State.reset.withFetchWord 32 0x23000000))).cmd = 0x23000000 ∧
    (after (step (State.reset.withFetchWord 32 0x02000000))).statusWord = 0x706 := by decide +kernel

/-! ### States and operands that meet the hypotheses of the obligations, clause by clause -/

theorem test_hyp_WordIsLegalExactlyWhenATableRowSelectsIt :
    (∃ row ∈ rows, row.selects 0x4C7BFFFF) ∧ decode 0x4C7BFFFF = .ok (.rdecomp 7 11 0xFFFF) ∧
    (∃ row ∈ rows, row.selects 0x00000000) := by
  refine ⟨⟨⟨"RDECOMP", 0x4C000000, 0xFF800000, [1, 4, 5, 10, 11]⟩, by simp [rows], ?_⟩, by decide,
    ⟨⟨"NOP", 0x00000000, 0xFFFFFFFF, []⟩, by simp [rows], ?_⟩⟩ <;> (unfold Row.selects; decide)

/-- A command accepted, the core's move next. -/
def accepted (w : Word) : State := { accept w State.reset with agenda := [.core] }

theorem test_hyp_CoreMoveRunsTheDecodedCommand :
    let s := accept 0x53000000 State.reset
    (s.agenda = [] ∧ s.status.busy = true ∧ s.engine.entReq = none ∧ decode s.cmd = .ok .kybDecaps) ∧
    ((accepted 0).agenda = [.core] ∧ (accepted 0).status.busy = true ∧ (accepted 0).engine.entReq = none ∧
      decode (accepted 0).cmd = .ok .nop) := by decide

theorem test_hyp_IllegalWordCompletesWithIllegalCmdOnly :
    ∀ s : State, s = accept 0xFFFFFFFF State.reset ∨ s = accepted 0xFFFFFFFF →
      (s.agenda = [] ∧ ([] : List Event) = [] ∨ s.agenda = .core :: []) ∧ s.status.busy = true ∧
      s.engine.entReq = none ∧ decode s.cmd = .error .opcode := by rintro s (rfl | rfl) <;> decide

theorem test_hyp_CmdWriteIsAcceptedOrDropped :
    State.reset.status.busy = false ∧ (accepted 0).status.busy = true := by decide

theorem test_hyp_SoftResetIsResetInEveryState :
    ({ accepted 0 with agenda := [.reset, .core] } : State).agenda = .reset :: [.core] ∧
    (2#32).getLsbD 1 = true ∧ (0xFFFFFFFF#32).getLsbD 1 = true ∧
    (∀ e : Event, e = .entropy (answer 0 []) ∨ e = .lateEntropy (answer 0 []) →
      ∃ ans rest, (e = .entropy ans ∨ e = .lateEntropy ans) ∧
        ({ accepted 0 with agenda := [.hostWrite 3#15 2, e] } : State).agenda = .hostWrite 3#15 2 :: e :: rest) := ⟨by decide, by decide, by decide, fun _ h => ⟨_, _, h, rfl⟩⟩

theorem test_hyp_BusyBlocksCmdArgAndBufAccess :
    ({ accepted 0 with agenda := [.hostRead 0x4000] } : State).agenda = .hostRead 0x4000 :: [] ∧
    (accepted 0).status.busy = true ∧ State.reset.status.busy = false ∧
    hostReg 0x4000 = .bufWord 0 ∧ hostReg 0x4FFF = .bufWord 16380 ∧ hostReg 0x3FFF = .reserved ∧
    hostReg 0x5000 = .reserved ∧ hostReg 1 = .cmd ∧ hostReg 4 = .arg 0 ∧ hostReg 11 = .arg 7 ∧ hostReg 12 = .rlen0 ∧
    (hostWrite 2 1 { accepted 0 with status := { (accepted 0).status with werr := true } }).status.werr = true ∧
    (7 : Fin 8) ≠ 0 := by decide

theorem test_hyp_ReadOnlyAndReservedOffsets :
    ({ accepted 0 with agenda := [.hostWrite 0x0C 1] } : State).agenda = .hostWrite 0x0C 1 :: [] ∧
    4 * (0 : BitVec 15).toNat = 0 ∧
    (∀ a : BitVec 15, a = 0x0C ∨ a = 0x3FFF → 0x30 ≤ 4 * a.toNat ∧ 4 * a.toNat < 0x10000) ∧
    (∀ a : BitVec 15, a = 0x5000 ∨ a = 0x7FFF → 0x10000 + Config.bufBytes ≤ 4 * a.toNat) ∧
    ¬ 0x10000 + Config.bufBytes ≤ 4 * (0x4FFF : BitVec 15).toNat ∧
    4 * (0x0E : BitVec 15).toNat = 0x38 ∧ 4 * (0x0F : BitVec 15).toNat = 0x3C ∧
    (∀ a : BitVec 15, a = 0x17 ∨ a = 0x3FFF → 0x5C ≤ 4 * a.toNat ∧ 4 * a.toNat < 0x10000) ∧
    ¬ 0x5C ≤ 4 * (0x16 : BitVec 15).toNat := by
  refine ⟨by decide, by decide, ?_, ?_, by decide, by decide, by decide, ?_, by decide⟩ <;>
    rintro a (rfl | rfl) <;> decide

theorem test_hyp_BufWindowPacksBytesLittleEndian :
    State.reset.buf.wf = true ∧ State.reset.status.busy = false ∧
    (0x4000 : BitVec 15).toNat = 0x4000 + 0 ∧ 4 * 0 < Config.bufBytes ∧
    (0x4FFF : BitVec 15).toNat = 0x4000 + 4095 ∧ 4 * 4095 < Config.bufBytes ∧ ¬ 4 * 4096 < Config.bufBytes := by decide

theorem test_hyp_SizeRegistersFollowStrength :
    State.reset.strength = .unset ∧ (kyber512 0 0 0 0 0 0).strength = .s512 ∧
    (run (.kybInit 768) State.reset).strength = .s768 ∧ (run (.kybInit 1024) State.reset).strength = .s1024 ∧
    (0x40 ≤ 4 * (0x10 : BitVec 15).toNat ∧ 4 * (0x10 : BitVec 15).toNat ≤ 0x58) ∧
    (0x40 ≤ 4 * (0x16 : BitVec 15).toNat ∧ 4 * (0x16 : BitVec 15).toNat ≤ 0x58) := by decide

/-- ECDH_KEYGEN waiting for its answer. -/
def waiting (agenda : List Event) : State :=
  { accept 0x30000000 State.reset with engine := { Engine.idle with entReq := some { min := 32, max := 32 } }, agenda := agenda }

theorem test_hyp_EntropyAnswerEndsTheWaitOrIsDiscarded :
    let ans : EntropyAnswer := answer 0 []
    ((waiting [.entropy ans]).engine.entReq = some { min := 32, max := 32 } ∧ (waiting [.entropy ans]).agenda = .entropy ans :: []) ∧
    (({ State.reset with agenda := [.entropy ans] } : State).engine.entReq = none ∧
      ({ State.reset with agenda := [.entropy ans] } : State).agenda = .entropy ans :: []) ∧
    ((waiting [.lateEntropy ans]).engine.entReq = some { min := 32, max := 32 } ∧
      (waiting [.lateEntropy ans]).agenda = .lateEntropy ans :: []) ∧
    (waiting [.core]).agenda = .core :: [] := by decide

/-- A late answer under a new command's request: ENTWAIT stays 1, no answer is at hand (R311, R287). -/
theorem test_late_answer : step (waiting [.lateEntropy (answer 0 (bytesOf 32 1))]) = .next (waiting []) ∧
    (waiting []).statusWord.getLsbD 7 = true ∧ (waiting []).engine.entRsp = none :=
  ⟨rfl, by decide, rfl⟩

/-- The longest answer the port carries, 65535 bytes (R74, R79), is no good answer to any request of KAC (R75, R76). -/
def longestAnswer : EntropyAnswer := { status := 0, count := 0xFFFF, data := Vector.replicate _ 0 }
theorem test_longest_answer : longestAnswer.bytes.length = 65535 ∧ goodAnswer 32 32 longestAnswer = false ∧
    goodAnswer 64 64 longestAnswer = false :=
  ⟨longestAnswer.bytes_length.trans (by decide), by decide, by decide⟩

theorem test_hyp_EveryStepKeepsTheMachineInvariant :
    KacInv (waiting []) ∧ step (waiting []) = .next (waiting []) := by
  refine ⟨⟨by decide, by decide, ?_, by decide, by decide, ?_, ?_, ?_⟩, rfl⟩
  · intro i h; revert h; revert i; decide
  · rintro q ⟨⟩; exact ⟨.ecdhKeygen, by decide, by decide⟩
  · intro h; exact absurd h (by decide)
  · intro h; exact absurd rfl h

/-- A command that fails. -/
theorem failing_command : exec (.kybInit 999) State.reset = .next (complete .invalidStrength State.reset) := rfl

theorem test_hyp_FailingCommandWritesNothing :
    exec (.kybInit 999) State.reset = .next (complete .invalidStrength State.reset) ∧
    Completed .invalidStrength (complete .invalidStrength State.reset) ∧ Code.invalidStrength ≠ .success ∧
    Code.invalidStrength ≠ .entropyFail ∧ (Instr.kybInit 999).wellFormed = true ∧ isZeroize (.kybInit 999) = false := ⟨failing_command, by unfold Completed; decide, by decide, by decide, by decide, by decide⟩

theorem test_hyp_FramesOfRegistersFlagsAndControl :
    isZeroize (.fadd 1 0 0) = false ∧ exec (.fadd 1 0 0) State.reset = .next (run (.fadd 1 0 0) State.reset) ∧
    destF (.fadd 1 0 0) ≠ some 15 ∧ destP (.fadd 1 0 0) ≠ some 3 ∧ destR (.fadd 1 0 0) ≠ some 7 ∧
    destP (.fadd 1 0 0) = none ∧ isPvalid (.fadd 1 0 0) = false ∧ destF .nop = none ∧ isKybInit .nop = false ∧
    writesRlen0 .nop = false ∧ writesRlen1 .kybDecaps = false := ⟨by decide, rfl, by decide, by decide, by decide, by decide, by decide, by decide, by decide, by decide, by decide⟩

theorem test_hyp_BufChangesOnlyInTheStoredRanges :
    isZeroize (.fst 3 0x40) = false ∧ State.reset.buf.wf = true ∧
    exec (.fst 3 0x40) State.reset = .next (run (.fst 3 0x40) State.reset) ∧
    ¬ inRanges 0x3F (storeRanges (.fst 3 0x40) State.reset) ∧ inRanges 0x40 (storeRanges (.fst 3 0x40) State.reset) ∧
    inRanges 0x5F (storeRanges (.fst 3 0x40) State.reset) ∧ ¬ inRanges 0x60 (storeRanges (.fst 3 0x40) State.reset) := ⟨by decide, by decide, rfl, by unfold inRanges; decide, by unfold inRanges; decide, by unfold inRanges; decide,
    by unfold inRanges; decide⟩

theorem test_hyp_NopOnlyCompletes :
    ((0x00FFFFFF#32).extractLsb' 24 8 = 0 ∧ (0x00FFFFFF#32) ≠ 0) ∧
    (({ State.reset with agenda := [.hostWrite 1#15 0] } : State).agenda = [.hostWrite 1#15 0] ∧
      ({ State.reset with agenda := [.hostWrite 1#15 0] } : State).status.busy = false) := by decide

theorem test_hyp_ZeroizeErasesAllButStrengthEnableAndWerr :
    (0x01000001#32).extractLsb' 24 8 = 1 ∧ (0x01000001#32) ≠ 0x01000000 := by decide

theorem test_hyp_InterruptLineFollowsDoneAndEnable :
    State.reset.status.busy = false := rfl

theorem test_hyp_FieldInverseInvertsModuloP :
    ((regsF (BitVec.ofNat 256 primeP) 0).readF 0).toNat % primeP = 0 ∧ ((regsF 0 0).readF 0).toNat % primeP = 0 ∧
    ((regsF 1 0).readF 0).toNat % primeP ≠ 0 ∧ ((regsF allOnes 0).readF 0).toNat % primeP ≠ 0 := by decide +kernel

theorem test_hyp_FieldMoveLoadAndStore :
    InBuf (0x3FE0 : Imm16).toNat 32 ∧ ¬ InBuf (0x3FE1 : Imm16).toNat 32 ∧ ¬ InBuf (0xFFFF : Imm16).toNat 32 ∧
    InBuf (0 : Imm16).toNat 32 ∧ State.reset.buf.wf = true := by unfold InBuf; decide

theorem test_hyp_PointMovesAndLoadsWriteTheirPoint :
    InBuf (0x3FC0 : Imm16).toNat 64 ∧ ¬ InBuf (0x3FC1 : Imm16).toNat 64 ∧
    ((regsP 0 ptInf ptG).readP 0).inf = true ∧ ((regsP 0 ptInf ptG).readP 1).inf = false ∧ (regsP 0 ptInf ptG).buf.wf = true := by unfold InBuf; decide

/-- Points on and off the curve (V1, V3, V4, V7 of 95_test_vectors.md). -/
theorem valid_G : Valid ptG := by unfold Valid OnEquation; decide +kernel
theorem onCurve_G : OnTheCurve ptG := .inr valid_G
theorem valid_negG : Valid ptNegG := by unfold Valid OnEquation; decide +kernel
theorem valid_2G : Valid pt2G := by unfold Valid OnEquation; decide +kernel
theorem onCurve_negG : OnTheCurve ptNegG := .inr valid_negG
theorem onCurve_inf : OnTheCurve ptInf := .inl rfl
theorem not_onCurve_zero : ¬ OnTheCurve Point.zero := by unfold OnTheCurve Valid OnEquation; decide +kernel

theorem test_hyp_PointAdditionDoublingAndMultiplicationOnCurve :
    (OnTheCurve ((regsP 0 ptG ptInf).readP 0) ∧ OnTheCurve ((regsP 0 ptG ptInf).readP 1)) ∧
    ¬ OnTheCurve ((regsP 0 ptG Point.zero).readP 1) ∧ ¬ OnTheCurve ((regsP 0 Point.zero ptG).readP 0) ∧
    (regsP 0 ptG ptInf).readF 0 = 0 ∧ ((regsP allOnes ptG ptInf).readP 1).inf = true := ⟨⟨onCurve_G, onCurve_inf⟩, not_onCurve_zero, not_onCurve_zero, by decide, by decide⟩

theorem test_hyp_GroupLawStaysOnTheCurve :
    OnTheCurve ptG ∧ OnTheCurve ptNegG ∧ OnTheCurve ptInf ∧ (0 ≤ primeP ∧ primeP ≤ primeP) := ⟨onCurve_G, onCurve_negG, onCurve_inf, by decide, le_refl _⟩

theorem test_hyp_SumOfAffinePointsByItsThreeCases :
    (Valid ptG ∧ Valid ptNegG ∧ Valid pt2G) ∧
    (ptG.x = ptNegG.x ∧ (ptG.y.toNat + ptNegG.y.toNat) % primeP = 0) ∧
    ¬ (ptG.x = ptG.x ∧ (ptG.y.toNat + ptG.y.toNat) % primeP = 0) ∧
    ¬ (ptG.x = pt2G.x ∧ (ptG.y.toNat + pt2G.y.toNat) % primeP = 0) ∧
    curveAdd ptG.toCurve ptG.toCurve = .affine pt2G.x.toNat pt2G.y.toNat := ⟨⟨valid_G, valid_negG, valid_2G⟩, by decide +kernel, by decide +kernel, by decide +kernel, by decide +kernel⟩

theorem test_hyp_ScalarMultiplierIsTheIteratedSum :
    OnTheCurve ptG ∧ (0 < 2 ^ 256 ∧ 2 ^ 256 - 1 < 2 ^ 256) ∧ OnTheCurve ptInf := ⟨onCurve_G, by decide +kernel, onCurve_inf⟩

/-- ECDH_KEYGEN's descriptors at the ends of BUF and of the capacities. -/
def keygenState : State := args 16352 32 0 64 0 0 State.reset

theorem test_hyp_EcdhKeygenChecksThenAsksThenWrites :
    (InBuf (argNat keygenState 0) (argNat keygenState 1) ∧ InBuf (argNat keygenState 2) (argNat keygenState 3)) ∧
    (32 ≤ argNat keygenState 1 ∧ 64 ≤ argNat keygenState 3) ∧ keygenState.engine.entRsp = none ∧ keygenState.buf.wf = true ∧
    ¬ InBuf (argNat (args 16353 32 0 64 0 0 State.reset) 0) (argNat (args 16353 32 0 64 0 0 State.reset) 1) ∧
    ¬ InBuf (argNat (args 0xFFFFFFFF 1 0 64 0 0 State.reset) 0) (argNat (args 0xFFFFFFFF 1 0 64 0 0 State.reset) 1) ∧
    ¬ 32 ≤ argNat (args 0 31 0 64 0 0 State.reset) 1 ∧ ¬ 64 ≤ argNat (args 0 32 0 63 0 0 State.reset) 3 := by unfold InBuf; decide

theorem test_hyp_EcdhKeygenAnswers :
    let s := fun (st : Word) (B : Bytes) => answered st B keygenState
    let count := fun (B : Bytes) => (answer 0 B).count.toNat
    let value := fun (B : Bytes) => beNat (answer 0 B).bytes
    (s 1 (bytesOf 32 1)).engine.entRsp = some (answer 1 (bytesOf 32 1)) ∧
    ¬ ((answer 1 (bytesOf 32 1)).status = 0 ∧ (answer 1 (bytesOf 32 1)).count.toNat = 32) ∧
    ¬ count (bytesOf 33 1) = 32 ∧ ¬ count (bytesOf 31 1) = 32 ∧
    count (bytesOf 32 0) = 32 ∧ value (bytesOf 32 0) = 0 ∧
    count (beBytes orderN 32) = 32 ∧ value (beBytes orderN 32) = orderN ∧
    count (beBytes (orderN - 1) 32) = 32 ∧ value (beBytes (orderN - 1) 32) ≠ 0 ∧
    value (beBytes (orderN - 1) 32) ≠ orderN ∧
    value (beBytes (orderN + 1) 32) ≠ orderN ∧ value (bytesOf 32 0xFF) ≠ orderN ∧
    (argNat (args 0 32 32 64 0 0 State.reset) 0 + 32 ≤ argNat (args 0 32 32 64 0 0 State.reset) 2) ∧
    (argNat (args 64 32 0 64 0 0 State.reset) 2 + 64 ≤ argNat (args 64 32 0 64 0 0 State.reset) 0) := by decide +kernel

/-- The checks of ECDH_SECRET in a state, as the statement names them. -/
def secretInside (s : State) : Prop :=
  InBuf (argNat s 0) (argNat s 1) ∧ InBuf (argNat s 2) (argNat s 3) ∧ InBuf (argNat s 4) (argNat s 5)
def secretPrivOk (s : State) : Prop := argNat s 1 = 32 ∧ 1 ≤ beAt s (argNat s 0) ∧ beAt s (argNat s 0) < orderN
def secretPeer (s : State) : Point :=
  { inf := false, x := BitVec.ofNat 256 (beAt s (argNat s 2)), y := BitVec.ofNat 256 (beAt s (argNat s 2 + 32)) }

theorem test_hyp_EcdhSecretAllChecksPassed :
    secretInside (secretState 1 ptG) ∧ 32 ≤ argNat (secretState 1 ptG) 5 ∧ secretPrivOk (secretState 1 ptG) ∧
    argNat (secretState 1 ptG) 3 = 64 ∧ Valid (secretPeer (secretState 1 ptG)) ∧
    smul (beAt (secretState 1 ptG) 0x100) (secretPeer (secretState 1 ptG)).toCurve = .affine baseX baseY ∧
    (secretState 1 ptG).buf.wf = true ∧ secretPrivOk (secretState (orderN - 1) ptG) := by unfold secretInside secretPrivOk InBuf Valid OnEquation; decide +kernel

theorem test_hyp_EcdhSecretEachRejection :
    let s := secretState 1 ptG
    ¬ InBuf (argNat { s with arg := s.arg.set 4 16353 } 4) (argNat { s with arg := s.arg.set 4 16353 } 5) ∧
    argNat { s with arg := s.arg.set 5 31 } 5 < 32 ∧ secretInside { s with arg := s.arg.set 5 31 } ∧
    ¬ secretPrivOk (secretState 0 ptG) ∧ ¬ secretPrivOk (secretState orderN ptG) ∧
    ¬ secretPrivOk { s with arg := s.arg.set 1 33 } ∧
    ¬ Valid (secretPeer (secretState 1 Point.zero)) ∧ ¬ argNat { s with arg := s.arg.set 3 65 } 3 = 64 := by unfold secretInside secretPrivOk InBuf Valid OnEquation; decide +kernel

theorem test_hyp_EcdhSecretsOfTwoPartiesAgree :
    let sA := secretState 1 pt2G
    let sB := secretState 2 ptG
    (1 ≤ 1 ∧ 1 < orderN ∧ 1 ≤ 2 ∧ 2 < orderN) ∧
    (∀ s : State, s = sA ∨ s = sB → s.buf.wf = true ∧
      InBuf (argNat s 0) (argNat s 1) ∧ InBuf (argNat s 2) (argNat s 3) ∧ InBuf (argNat s 4) (argNat s 5) ∧
      argNat s 1 = 32 ∧ argNat s 3 = 64 ∧ 32 ≤ argNat s 5) ∧
    beAt sA (argNat sA 0) = 1 ∧ beAt sB (argNat sB 0) = 2 ∧
    smulSpec 2 basePoint = .affine (beAt sA (argNat sA 2)) (beAt sA (argNat sA 2 + 32)) ∧
    smulSpec 1 basePoint = .affine (beAt sB (argNat sB 2)) (beAt sB (argNat sB 2 + 32)) := by
  refine ⟨by decide +kernel, ?_, by decide +kernel, by decide +kernel, by decide +kernel, by decide +kernel⟩
  unfold InBuf
  rintro s (rfl | rfl) <;> decide +kernel

theorem test_hyp_RingLoadStoreAndMove :
    InBuf (16000 : Imm16).toNat 384 ∧ ¬ InBuf (16001 : Imm16).toNat 384 ∧ State.reset.buf.wf = true ∧
    (∃ t, exec (.rst 0 16000) State.reset = .next t) := ⟨by unfold InBuf; decide, by unfold InBuf; decide, by decide, (exec_effect _ _).imp fun _ h => h.1⟩

theorem test_hyp_NoiseSamplerCountsBits :
    InBuf (16256 : Imm16).toNat (64 * (2 : Fin 16).val) ∧ ¬ InBuf (16257 : Imm16).toNat (64 * (2 : Fin 16).val) ∧
    InBuf (16192 : Imm16).toNat (64 * (3 : Fin 16).val) ∧ ¬ InBuf (16193 : Imm16).toNat (64 * (3 : Fin 16).val) := by unfold InBuf; decide

theorem test_hyp_CompressorAndDecompressorByTheirFormulas :
    (∀ d : Fin 16, d = 1 ∨ d = 4 ∨ d = 5 ∨ d = 10 ∨ d = 11 →
      InBuf (BitVec.ofNat 16 (16384 - 32 * d.val)).toNat (32 * d.val) ∧
      ¬ InBuf (BitVec.ofNat 16 (16385 - 32 * d.val)).toNat (32 * d.val)) ∧
    State.reset.buf.wf = true ∧ (∃ t, exec (.rdecomp 0 11 16032) State.reset = .next t) := ⟨by unfold InBuf; decide, by decide, (exec_effect _ _).imp fun _ h => h.1⟩

/-- The statements' candidates are Parse's, so its answer none is the statements' Unparsed. -/
theorem candidates_eq (n : Nat) (S : Nat → Byte) : candidates n S = parseCandidates S 0 n := by
  simp only [candidates, parseCandidates, parseLow, parseHigh, Nat.zero_add]; rfl
theorem unparsed_of_none {n : Nat} {S : Nat → Byte} (h : parse n S = none) : Unparsed n S := by
  rw [Unparsed, candidates_eq]; exact (parse_eq_none_iff S n).1 h
theorem none_of_unparsed {n : Nat} {S : Nat → Byte} (h : Unparsed n S) : parse n S = none := by
  rw [Unparsed, candidates_eq] at h; exact (parse_eq_none_iff S n).2 h

theorem test_hyp_UniformSamplerWritesTheParsedPolynomial :
    InBuf (0x3FE0 : Imm16).toNat 32 ∧ ¬ InBuf (0x3FE1 : Imm16).toNat 32 ∧
    ¬ Unparsed (parseFuel State.reset) (symZero.xof (memRead State.reset 0 32) 0 0) ∧
    Unparsed (parseFuel State.reset) (symOnes.xof (memRead State.reset 0 32) 0 0) := by
  refine ⟨by unfold InBuf; decide, by unfold InBuf; decide, fun h => ?_, unparsed_of_none (parse_of_ones _)⟩
  have h1 : parse (parseFuel State.reset) (fun _ => 0#8) = none := none_of_unparsed h
  rw [parse_of_zeros (by decide)] at h1
  cases h1

theorem test_hyp_UniformSamplerRunsUntilParseEnds :
    let s := accept 0x4A240040 State.reset
    s.agenda = [] ∧ s.status.busy = true ∧ s.engine.entReq = none ∧ decode s.cmd = .ok (.sampleu 2 1 0 0x40) ∧
    InBuf (0x40 : Imm16).toNat 32 := by unfold InBuf; decide

theorem test_hyp_KyberInitSelectsTheStrength :
    ((512 : Imm16).toNat = 512 ∧ (768 : Imm16).toNat = 768 ∧ (1024 : Imm16).toNat = 1024) ∧
    (∀ v ∈ [0, 511, 513, 767, 769, 1023, 1025, 65535],
      ¬ ((BitVec.ofNat 16 v).toNat = 512 ∨ (BitVec.ofNat 16 v).toNat = 768 ∨ (BitVec.ofNat 16 v).toNat = 1024)) := by decide +kernel

/-- Every descriptor of the three engine commands at its exact length, the last one at the end of BUF. -/
def keygenOk (x : Strength) : State :=
  args 0 (BitVec.ofNat 32 x.privBytes) (BitVec.ofNat 32 (16384 - x.pubBytes)) (BitVec.ofNat 32 x.pubBytes) 0 0
    { State.reset with strength := x }
def encapsOk (x : Strength) : State :=
  args 0 (BitVec.ofNat 32 x.pubBytes) 2000 32 (BitVec.ofNat 32 (16384 - x.ctBytes)) (BitVec.ofNat 32 x.ctBytes)
    { State.reset with strength := x }
def decapsOk (x : Strength) : State :=
  args 0 (BitVec.ofNat 32 x.privBytes) 4000 (BitVec.ofNat 32 x.ctBytes) 16352 32 { State.reset with strength := x }

theorem test_hyp_KyberKeygenChecksInTheFixedOrder :
    (∀ x ∈ [Strength.s512, .s768, .s1024], let s := keygenOk x;
      s.strength ≠ .unset ∧ InBuf (argNat s 0) (argNat s 1) ∧ InBuf (argNat s 2) (argNat s 3) ∧
      s.strength.privBytes ≤ argNat s 1 ∧ s.strength.pubBytes ≤ argNat s 3 ∧ s.engine.entRsp = none ∧ s.buf.wf = true) ∧
    State.reset.strength = .unset ∧
    (let s := kyber512 0 1632 15585 800 0 0; s.strength ≠ .unset ∧ ¬ InBuf (argNat s 2) (argNat s 3)) ∧
    (let s := kyber512 0 1631 15584 800 0 0; InBuf (argNat s 0) (argNat s 1) ∧ InBuf (argNat s 2) (argNat s 3) ∧ ¬ s.strength.privBytes ≤ argNat s 1) := by unfold InBuf; decide

theorem test_hyp_KyberKeygenAnswers :
    (answered 0 (bytesOf 64 0#8) (keygenOk .s512)).engine.entRsp = some (answer 0 (bytesOf 64 0#8)) ∧
    (answer 0 (bytesOf 64 0#8)).bytes = bytesOf 64 0#8 ∧
    (Strength.s512.minEntropy.toNat ≤ (answer 0 (bytesOf 64 0#8)).count.toNat ∧
      (answer 0 (bytesOf 64 0#8)).count.toNat ≤ Strength.s512.maxEntropy.toNat) ∧
    ¬ Strength.s512.minEntropy.toNat ≤ (answer 0 (bytesOf 63 0#8)).count.toNat ∧
    ¬ (answer 0 (bytesOf 65 0#8)).count.toNat ≤ Strength.s512.maxEntropy.toNat ∧
    ¬ (0xFFFFFFFF : Word) = 0 := by decide

theorem test_hyp_KyberKeygenWritesBothKeys :
    kemKeyGen symZero (parseFuel (keygenOk .s512)) .s512 (bytesOf 64 0#8) = some (bytesOf 1632 0#8, bytesOf 800 0#8) ∧
    kemKeyGen symOnes (parseFuel (keygenOk .s512)) .s512 (bytesOf 64 0#8) = none ∧ 64 ≤ (bytesOf 64 0#8).length ∧
    (argNat (keygenOk .s512) 0 + Strength.s512.privBytes ≤ argNat (keygenOk .s512) 2) := ⟨kemKeyGen_zero (by decide), by simp [kemKeyGen, kpkeKeyGen, Strength.rank, sampleMatrix_ones], by decide, by decide⟩

theorem test_hyp_KyberEncapsChecksInTheFixedOrder :
    (∀ x ∈ [Strength.s512, .s768, .s1024], let s := encapsOk x;
      s.strength ≠ .unset ∧ InBuf (argNat s 0) (argNat s 1) ∧ InBuf (argNat s 2) (argNat s 3) ∧
      InBuf (argNat s 4) (argNat s 5) ∧ s.strength.secretBytes ≤ argNat s 3 ∧ s.strength.ctBytes ≤ argNat s 5 ∧
      argNat s 1 = s.strength.pubBytes ∧ s.engine.entRsp = none ∧ s.buf.wf = true) ∧
    (let s := kyber512 0 799 0x1700 32 15617 768; ¬ InBuf (argNat s 4) (argNat s 5)) ∧
    (let s := kyber512 0 799 0x1700 31 0x1400 768; InBuf (argNat s 2) (argNat s 3) ∧ ¬ s.strength.secretBytes ≤ argNat s 3) ∧
    (let s := kyber512 0 801 0x1700 32 0x1400 768; InBuf (argNat s 0) (argNat s 1) ∧ argNat s 1 ≠ s.strength.pubBytes) := by unfold InBuf; decide

theorem test_hyp_KyberEncapsWritesSecretAndCiphertext :
    kemEncaps symZero (parseFuel (encapsOk .s512)) .s512 (bytesOf 800 0#8) (bytesOf 64 0#8) = some (bytesOf 32 0#8, bytesOf 768 0#8) ∧
    kemEncaps symOnes (parseFuel (encapsOk .s512)) .s512 (bytesOf 800 0#8) (bytesOf 64 0#8) = none ∧
    (answered 0 (bytesOf 64 0#8) (encapsOk .s512)).engine.entRsp = some (answer 0 (bytesOf 64 0#8)) ∧
    argNat (encapsOk .s512) 2 + 32 ≤ argNat (encapsOk .s512) 4 := ⟨kemEncaps_zero (by decide) _, by simp [kemEncaps, kpkeEnc, Strength.rank, sampleMatrix_ones], by decide, by decide⟩

theorem test_hyp_KyberDecapsRejectsByLengthsOnly :
    (∀ x ∈ [Strength.s512, .s768, .s1024], let s := decapsOk x;
      s.strength ≠ .unset ∧ InBuf (argNat s 0) (argNat s 1) ∧ InBuf (argNat s 2) (argNat s 3) ∧
      InBuf (argNat s 4) (argNat s 5) ∧ s.strength.secretBytes ≤ argNat s 5 ∧ argNat s 1 = s.strength.privBytes ∧
      argNat s 3 = s.strength.ctBytes ∧ s.buf.wf = true) ∧
    (let s := kyber512 0 1632 0x1000 768 16353 32; ¬ InBuf (argNat s 4) (argNat s 5)) ∧
    (let s := kyber512 0 1632 0x1000 768 16353 31; InBuf (argNat s 4) (argNat s 5) ∧ argNat s 5 < s.strength.secretBytes) ∧
    (let s := kyber512 0 1633 0x1000 768 16352 32; InBuf (argNat s 0) (argNat s 1) ∧ argNat s 1 ≠ s.strength.privBytes) ∧
    (let s := kyber512 0 1632 0x1000 767 16352 32; InBuf (argNat s 2) (argNat s 3) ∧ argNat s 1 = s.strength.privBytes ∧ argNat s 3 ≠ s.strength.ctBytes) := by unfold InBuf; decide

theorem test_hyp_KyberDecapsResults :
    kemDecaps symZero (parseFuel (decapsOk .s512)) .s512 (bytesOf 1632 0#8) (bytesOf 768 0#8) = some (bytesOf 32 0#8) ∧
    kemDecaps symOnes (parseFuel (decapsOk .s512)) .s512 (bytesOf 1632 0#8) (bytesOf 768 0#8) = none := ⟨kemDecaps_zero (by decide), by simp [kemDecaps, kpkeEnc, Strength.rank, sampleMatrix_ones]⟩

theorem test_hyp_KyberKeyPairHasTheSpecsLayout :
    Strength.s512 ≠ .unset ∧ 64 ≤ (bytesOf 64 0#8).length ∧
    kemKeyGen symZero 128 .s512 (bytesOf 64 0#8) = some (bytesOf 1632 0#8, bytesOf 800 0#8) ∧
    (1 < Strength.s512.rank ∧ 0 < Strength.s512.rank ∧ Unparsed 128 (matrixStream symOnes (bytesOf 32 0#8) 1 0)) := ⟨by decide, by decide, kemKeyGen_zero (by decide), by decide, by decide, unparsed_of_none (parse_of_ones _)⟩

theorem test_hyp_KyberRoundTrip :
    Strength.s512 ≠ .unset ∧ 64 ≤ (bytesOf 64 0#8).length ∧
    kemKeyGen symZero 128 .s512 (bytesOf 64 0#8) = some (bytesOf 1632 0#8, bytesOf 800 0#8) ∧
    kemEncaps symZero 128 .s512 (bytesOf 800 0#8) (bytesOf 64 0#8) = some (bytesOf 32 0#8, bytesOf 768 0#8) ∧
    kpkeDec .s512 (slice (bytesOf 1632 0#8) 0 (384 * Strength.s512.rank)) (bytesOf 768 0#8) =
      (symZero.hash (slice (bytesOf 64 0#8) 0 32)).toList := by
  refine ⟨by decide, by decide, kemKeyGen_zero (by decide), kemEncaps_zero (by decide) _, ?_⟩
  rw [slice_bytesOf, hash_zero]
  exact kpkeDec_zero _ (slice_bytesOf _ _ _ _)

theorem test_hyp_KyberNoiseWithinTheBound :
    (bytesOf 32 0#8).length = 32 ∧ ∀ j, j < 256 → ∃ e : Int, -831 ≤ e ∧ e ≤ 831 ∧
      (coeff (kpkeNoisyMessage .s512 (bytesOf 768 0#8) (bytesOf 768 0#8)) j : Int) = (1665 * byteBit (bytesOf 32 0#8) j + e) % 3329 := by
  refine ⟨by decide, fun j _ => ⟨0, by decide, by decide, ?_⟩⟩
  have h1 : kpkeNoisyMessage .s512 (bytesOf 768 0#8) (bytesOf 768 0#8) = Poly.zero := by
    rw [kpkeNoisyMessage_zero, slice_bytesOf]
    exact decompressPoly_zero 4 (by decide)
  have h2 : byteBit (bytesOf 32 0#8) j = 0 := by
    have : (bytesOf 32 0#8).getD (j / 8) 0 = (0 : Byte) := by
      rw [bytesOf, List.getD_eq_getElem?_getD, List.getElem?_replicate]; split <;> rfl
    rw [byteBit, this]; simp
  have h3 : coeff Poly.zero j = 0 := by
    rw [coeff, zero_toList, List.getD_eq_getElem?_getD, List.getElem?_replicate]; split <;> rfl
  rw [h1, h2, h3]; rfl

theorem test_hyp_KyberImplicitRejection :
    let c : Bytes := 1 :: bytesOf 767 0#8
    Strength.s512 ≠ .unset ∧ (bytesOf 1632 0#8).length = Strength.s512.privBytes ∧
    kpkeEnc symZero 128 .s512 (slice (bytesOf 1632 0#8) (384 * Strength.s512.rank) (768 * Strength.s512.rank + 32))
      (kpkeDec .s512 (slice (bytesOf 1632 0#8) 0 (384 * Strength.s512.rank)) c)
      (slice (symZero.hash2 (kpkeDec .s512 (slice (bytesOf 1632 0#8) 0 (384 * Strength.s512.rank)) c ++
        slice (bytesOf 1632 0#8) (768 * Strength.s512.rank + 32) (768 * Strength.s512.rank + 64))).toList 32 64) =
      some (bytesOf 768 0#8) ∧
    bytesOf 768 0#8 ≠ c := by
  refine ⟨by decide, by simp [Strength.privBytes], ?_, by decide⟩
  have h : kpkeDec .s512 (slice (bytesOf 1632 0#8) 0 (384 * Strength.s512.rank)) (1 :: bytesOf 767 0#8) = bytesOf 32 0#8 := by
    rw [slice_bytesOf]
    exact kpkeDec_zero _ ((slice_cons 1 (bytesOf 767 0#8) 639 767).trans (slice_bytesOf 767 639 767 0#8))
  rw [h, slice_bytesOf]
  exact kpkeEnc_zero (by decide) _

theorem test_hyp_KyberEncryptionAndEncapsulation :
    Strength.s512 ≠ .unset ∧ Strength.s1024 ≠ .unset ∧
    kpkeEnc symZero 128 .s512 (bytesOf 800 0#8) (bytesOf 32 0#8) (bytesOf 32 0#8) = some (bytesOf 768 0#8) ∧
    kemEncaps symZero 128 .s512 (bytesOf 800 0#8) (bytesOf 64 0#8) = some (bytesOf 32 0#8, bytesOf 768 0#8) ∧
    kemDecaps symZero 128 .s512 (bytesOf 1632 0#8) (bytesOf 768 0#8) = some (bytesOf 32 0#8) ∧
    (1 < Strength.s512.rank ∧ Unparsed 128 (matrixStream symOnes (bytesOf 32 0#8) 1 1)) := ⟨by decide, by decide, kpkeEnc_zero (by decide) _, kemEncaps_zero (by decide) _, kemDecaps_zero (by decide),
    by decide, unparsed_of_none (parse_of_ones _)⟩

end Sys2Proof.Tests
end

section
/-! PROOFS. The statements of 00_scope.md: the Montgomery commands (R12), the group law and the scalar multiplier (R13). -/

open Sys2Proof Sys2Proof.Machine Sys2Proof.Claims

namespace Sys2Proof.Scope

/-! ### The Montgomery commands (R12, R113, R117, R118) -/

theorem primeP_pos : 0 < primeP := by decide +kernel

theorem primeP_lt : primeP < 2 ^ 256 := by decide +kernel

/-- A residue modulo p fits a register. -/
theorem toNat_ofNat_of_lt_primeP {v : Nat} (hv : v < primeP) : (BitVec.ofNat 256 v).toNat = v := by
  rw [BitVec.toNat_ofNat, Nat.mod_eq_of_lt (hv.trans primeP_lt)]

/-- A FIELD result below p stands in the destination register as it is (R110). -/
theorem finishF_reduced (d : Fin 16) (s : State) {v : Nat} (hv : v < primeP) :
    ∃ t, finishF d v s = .next t ∧ Completed .success t ∧ (t.readF d).toNat = v ∧
      (t.status.z = true ↔ t.readF d = 0) := by
  obtain ⟨t, ht, hc, hd, hz⟩ := finishF_next d v s
  exact ⟨t, ht, hc, by rw [hd, toNat_ofNat_of_lt_primeP hv], hz⟩

/-- Leaving the Montgomery domain, multiplied by the radix, is the operand (R118). -/
theorem mul_radixInv_mul_radix (x : Nat) : x * radixInv % primeP * radixRM % primeP = x % primeP := by
  have h := mont_mul_radix x 1
  rwa [mont, mul_one] at h

theorem execFmont_effect (d a b : Fin 16) (s : State) :
    ∃ t, exec (.fmont d a b) s = .next t ∧ Completed .success t ∧ (t.readF d).toNat < primeP ∧
      (t.readF d).toNat * 2 ^ 256 % primeP = (s.readF a).toNat * (s.readF b).toNat % primeP ∧
      (t.status.z = true ↔ t.readF d = 0) := by
  have hlt : mont (s.natF a) (s.natF b) < primeP := Nat.mod_lt _ primeP_pos
  obtain ⟨t, ht, hc, hd, hz⟩ := finishF_reduced d s hlt
  refine ⟨t, ht, hc, hd ▸ hlt, ?_, hz⟩
  rw [hd]
  exact mont_mul_radix _ _

theorem execFtom_effect (d a : Fin 16) (s : State) :
    ∃ t, exec (.ftom d a) s = .next t ∧ Completed .success t ∧
      (t.readF d).toNat = (s.readF a).toNat * 2 ^ 256 % primeP ∧ (t.status.z = true ↔ t.readF d = 0) :=
  finishF_reduced d s (Nat.mod_lt _ primeP_pos)

theorem execFfrom_effect (d a : Fin 16) (s : State) :
    ∃ t, exec (.ffrom d a) s = .next t ∧ Completed .success t ∧ (t.readF d).toNat < primeP ∧
      (t.readF d).toNat * 2 ^ 256 % primeP = (s.readF a).toNat % primeP ∧
      (t.status.z = true ↔ t.readF d = 0) := by
  have hlt : s.natF a * radixInv % primeP < primeP := Nat.mod_lt _ primeP_pos
  obtain ⟨t, ht, hc, hd, hz⟩ := finishF_reduced d s hlt
  refine ⟨t, ht, hc, hd ▸ hlt, ?_, hz⟩
  rw [hd]
  exact mul_radixInv_mul_radix _

/-- Settles O30: each command leaves its residue (`finishF_reduced`), and `radixInv` cancels the radix. -/
theorem fieldMontgomeryProductAndDomainMoves : Obligations.FieldMontgomeryProductAndDomainMoves :=
  fun d a b s => ⟨execFmont_effect d a b s, execFtom_effect d a s, execFfrom_effect d a s⟩

/-! ### The statements' points and the model's (R140) -/

/-- Divisibility by p, read in Z/p. -/
theorem primeP_dvd_iff_cast (e : Int) : (primeP : Int) ∣ e ↔ (e : ZMod primeP) = 0 :=
  (ZMod.intCast_zmod_eq_zero_iff_dvd e primeP).symm

theorem onEquation_iff (x y : Nat) : OnEquation x y ↔ curveEquation x y = true := by
  rw [OnEquation, Int.dvd_iff_emod_eq_zero, ← modInt_cast _ primeP_pos, curveEquation, beq_iff_eq, Int.natCast_eq_zero]

theorem valid_iff (Q : Point) : Valid Q ↔ Q.inf = false ∧ affineValid Q.x.toNat Q.y.toNat = true := by
  rw [Valid, onEquation_iff, affineValid]
  simp [and_assoc]

theorem onTheCurve_iff (Q : Point) : OnTheCurve Q ↔ onCurve Q = true := by
  rw [OnTheCurve, valid_iff, onCurve]
  cases Q.inf <;> simp

/-- Reduced coordinates come back from the register that holds them (R22). -/
theorem toCurve_ofCurve_affine {x y : Nat} (hx : x < primeP) (hy : y < primeP) :
    (Point.ofCurve (.affine x y)).toCurve = .affine x y := by
  rw [Point.ofCurve, Point.toCurve, if_neg Bool.false_ne_true, toNat_ofNat_of_lt_primeP hx, toNat_ofNat_of_lt_primeP hy]

theorem toCurve_of_valid {Q : Point} (h : Valid Q) : Q.toCurve = .affine Q.x.toNat Q.y.toNat := by
  rw [Point.toCurve, h.1]
  rfl

/-! ### The group law by its formulas (R13) -/

/-- A pair and the pair reflected at the x-axis sum to INF. -/
theorem curveAdd_neg (x : Nat) {y : Nat} (hy : y ≤ primeP) :
    curveAdd (.affine x y) (.affine x (primeP - y)) = .inf := by
  have h : (y + (primeP - y)) % primeP = 0 := by rw [Nat.add_sub_cancel' hy, Nat.mod_self]
  simp [curveAdd, h]

theorem curveAdd_inf_left (P : CurvePoint) : curveAdd .inf P = P := rfl

theorem curveAdd_inf_right (P : CurvePoint) : curveAdd P .inf = P := by
  cases P <;> rfl

/-- Two points with one x that are not each other's negative have the same y, and it is not 0: the tangent has a slope.
p divides (y1 + y2)(y1 - y2), and not the first factor. -/
theorem tangent_denominator_ne_zero {x y1 y2 : Nat} (h1 : OnEquation x y1) (h2 : OnEquation x y2)
    (hsum : (y1 + y2) % primeP ≠ 0) : ((2 * y1 : Nat) : ZMod primeP) ≠ 0 := by
  have : Fact primeP.Prime := ⟨primeP_prime⟩
  have hne : (y1 : ZMod primeP) + y2 ≠ 0 := by
    rw [← Nat.cast_add]
    exact fun h => hsum ((mod_eq_zero_iff_cast _).2 h)
  rw [OnEquation, primeP_dvd_iff_cast] at h1 h2
  push_cast at h1 h2 ⊢
  have hmul : ((y1 : ZMod primeP) + y2) * (y1 - y2) = 0 := by linear_combination h1 - h2
  have hy : (y1 : ZMod primeP) - y2 = 0 := (mul_eq_zero.1 hmul).resolve_left hne
  exact fun h => hne (by linear_combination h - hy)

/-- The doubling's slope, multiplied by its denominator. -/
theorem slopeDouble_mul {x1 y1 : Nat} (h : ((2 * y1 : Nat) : ZMod primeP) ≠ 0) :
    2 * (y1 : ZMod primeP) * slopeDouble x1 y1 = 3 * (x1 : ZMod primeP) ^ 2 + curveA := by
  have : Fact primeP.Prime := ⟨primeP_prime⟩
  have hinv : ((invModP (2 * y1 % primeP) : Nat) : ZMod primeP) = ((2 * y1 : Nat) : ZMod primeP)⁻¹ := by
    rw [cast_invModP (by rwa [ZMod.natCast_mod]), ZMod.natCast_mod]
  rw [slopeDouble, ZMod.natCast_mod, Nat.cast_mul, hinv]
  push_cast at h ⊢
  rw [mul_left_comm, mul_inv_cancel₀ h]
  ring

/-- The chord's slope, multiplied by its denominator. -/
theorem slopeChord_mul {x1 y1 x2 y2 : Nat} (h : (x2 : ZMod primeP) - x1 ≠ 0) :
    (slopeChord x1 y1 x2 y2 : ZMod primeP) * (x2 - x1) = y2 - y1 := by
  have : Fact primeP.Prime := ⟨primeP_prime⟩
  have hden : ((modInt ((x2 : Int) - x1) primeP : Nat) : ZMod primeP) = x2 - x1 := by rw [cast_modInt]; push_cast; rfl
  rw [slopeChord, ZMod.natCast_mod, Nat.cast_mul, cast_invModP (hden ▸ h), hden, cast_modInt]
  push_cast
  rw [mul_assoc, inv_mul_cancel₀ h, mul_one]

/-- With a slope that satisfies R13's equation, the third point is the sum by R13's formulas. -/
theorem isAffineSum_thirdPoint {lam x1 y1 x2 y2 : Nat}
    (hdouble : x1 = x2 → 2 * (y1 : ZMod primeP) * lam = 3 * (x1 : ZMod primeP) ^ 2 + curveA)
    (hchord : x1 ≠ x2 → (lam : ZMod primeP) * (x2 - x1) = y2 - y1) :
    ∃ x3 y3, thirdPoint lam x1 y1 x2 = .affine x3 y3 ∧ IsAffineSum x1 y1 x2 y2 x3 y3 := by
  refine ⟨_, _, rfl, modInt_lt _ primeP_pos, modInt_lt _ primeP_pos, lam, ?_, ?_, ?_, ?_⟩ <;>
    simp only [primeP_dvd_iff_cast] <;> push_cast [cast_modInt]
  · exact fun h => sub_eq_zero.2 (hdouble h)
  · exact fun h => sub_eq_zero.2 (hchord h)
  · ring
  · ring

/-- Two affine points of the curve that are not opposite have the sum of R13's formulas. -/
theorem curveAdd_isAffineSum {x1 y1 x2 y2 : Nat} (hx1 : x1 < primeP) (hx2 : x2 < primeP)
    (h1 : OnEquation x1 y1) (h2 : OnEquation x2 y2) (hopp : ¬ (x1 = x2 ∧ (y1 + y2) % primeP = 0)) :
    ∃ x3 y3, curveAdd (.affine x1 y1) (.affine x2 y2) = .affine x3 y3 ∧ IsAffineSum x1 y1 x2 y2 x3 y3 := by
  rw [curveAdd, if_neg hopp]
  by_cases hx : x1 = x2
  · subst hx
    rw [if_pos rfl]
    have hden := tangent_denominator_ne_zero h1 h2 fun h => hopp ⟨rfl, h⟩
    exact isAffineSum_thirdPoint (fun _ => slopeDouble_mul hden) fun h => absurd rfl h
  · rw [if_neg hx]
    have hden : (x2 : ZMod primeP) - x1 ≠ 0 := fun h => hx (eq_of_cast_eq hx1 hx2 (sub_eq_zero.1 h).symm)
    exact isAffineSum_thirdPoint (fun h => absurd h hx) fun _ => slopeChord_mul hden

/-! ### The group law stays on the curve (R13, R140) -/

section Group
variable [Fact (Nat.Prime primeP)]

/-- A register holds what stands for a point of the curve without loss, and it is on the curve. -/
theorem ofCurve_of_represents {P : CurvePoint} {A : weierstrass.toAffine.Point} (h : Represents P A) :
    OnTheCurve (Point.ofCurve P) ∧ (Point.ofCurve P).toCurve = P := by
  have hv := h
  cases h with
  | inf => exact ⟨.inl rfl, rfl⟩
  | affine x y hx hy _ =>
    have hval := affineValid_of_represents hv
    rw [← toNat_ofNat_of_lt_primeP hx, ← toNat_ofNat_of_lt_primeP hy] at hval
    exact ⟨.inr ((valid_iff _).2 ⟨rfl, hval⟩), toCurve_ofCurve_affine hx hy⟩

/-- A register on the curve stands for a point of the group. -/
theorem represents_of_onTheCurve {Q : Point} (h : OnTheCurve Q) : ∃ A, Represents Q.toCurve A :=
  represents_of_onCurve ((onTheCurve_iff Q).1 h)

theorem ofCurve_curveAdd {Q R : Point} (hQ : OnTheCurve Q) (hR : OnTheCurve R) :
    OnTheCurve (Point.ofCurve (curveAdd Q.toCurve R.toCurve)) ∧
    (Point.ofCurve (curveAdd Q.toCurve R.toCurve)).toCurve = curveAdd Q.toCurve R.toCurve := by
  obtain ⟨A, hA⟩ := represents_of_onTheCurve hQ
  obtain ⟨B, hB⟩ := represents_of_onTheCurve hR
  exact ofCurve_of_represents (represents_add hA hB)

/-- Doubling and adding is the iterated sum: both stand for k times the point of the group. -/
theorem smul_eq_smulSpec {P : CurvePoint} {A : weierstrass.toAffine.Point} (h : Represents P A) {k : Nat}
    (hk : k < 2 ^ 256) : smul k P = smulSpec k P :=
  represents_unique (represents_smulBits h 256 k hk) (represents_smulSpec h k)

end Group

/-- The sum of two valid points by R13's cases: INF for opposite points, else the pair of the formulas. -/
theorem curveAdd_of_valid {Q R : Point} (hQ : Valid Q) (hR : Valid R) :
    let same := Q.x = R.x ∧ (Q.y.toNat + R.y.toNat) % primeP = 0
    (same → curveAdd Q.toCurve R.toCurve = .inf) ∧
    (¬ same → ∃ x3 y3, curveAdd Q.toCurve R.toCurve = .affine x3 y3 ∧
      IsAffineSum Q.x.toNat Q.y.toNat R.x.toNat R.y.toNat x3 y3) := by
  rw [toCurve_of_valid hQ, toCurve_of_valid hR]
  obtain ⟨_, hQx, _, hQe⟩ := hQ
  obtain ⟨_, hRx, _, hRe⟩ := hR
  refine ⟨fun ⟨hx, hy⟩ => ?_, fun hopp => curveAdd_isAffineSum hQx hRx hQe hRe ?_⟩
  · rw [curveAdd, if_pos ⟨congrArg BitVec.toNat hx, hy⟩]
  · exact fun ⟨hx, hy⟩ => hopp ⟨BitVec.eq_of_toNat_eq hx, hy⟩

/-- Settles O37: closure through the group of the Weierstrass curve, the formulas through the slopes' equations. -/
theorem groupLawStaysOnTheCurve : Obligations.GroupLawStaysOnTheCurve := by
  have : Fact primeP.Prime := ⟨primeP_prime⟩
  exact ⟨fun _ _ => ofCurve_curveAdd, fun _ _ => curveAdd_of_valid,
    fun P => ⟨curveAdd_inf_left P, curveAdd_inf_right P⟩, fun x _ => curveAdd_neg x⟩

/-- Settles O38: both sides stand for k times the point in the group of the Weierstrass curve. -/
theorem scalarMultiplierIsTheIteratedSum : Obligations.ScalarMultiplierIsTheIteratedSum := by
  intro Q k hQ hk
  have : Fact primeP.Prime := ⟨primeP_prime⟩
  obtain ⟨A, hA⟩ := represents_of_onTheCurve hQ
  exact smul_eq_smulSpec hA hk

end Sys2Proof.Scope
end

section
/-! PROOFS. The statements of 10_state.md: the machine invariant, the frames of flags and control registers, STATUS, CMD, reset. -/

open Sys2Proof.Claims

namespace Sys2Proof.Machine

/-! ### Vectors after reset -/

theorem readP_of_erased {s : State} (h : s.p = Vector.replicate 4 Point.zero) (i : Fin 4) :
    s.readP i = Point.zero := by
  rw [State.readP]
  simp [h]

/-! ### The invariant of the stored data (R22, R40, R63) -/

/-- The clauses of the machine invariant that speak of stored data alone: BUF and the point registers. -/
structure StorageInv (s : State) : Prop where
  bufWf : s.buf.wf = true
  bufIn : s.buf.inBuf = true
  points : ∀ i, (s.readP i).canonical

theorem KacInv.storage {s : State} (h : KacInv s) : StorageInv s := ⟨h.bufWf, h.bufIn, h.points⟩

theorem StorageInv.congr {s t : State} (h : StorageInv s) (hbuf : t.buf = s.buf) (hp : t.p = s.p) : StorageInv t :=
  ⟨hbuf ▸ h.bufWf, hbuf ▸ h.bufIn, fun i => readP_congr hp i ▸ h.points i⟩

theorem StorageInv.of_erased {s : State} (hbuf : s.buf = []) (hp : s.p = Vector.replicate 4 Point.zero) :
    StorageInv s where
  bufWf := by rw [hbuf]; rfl
  bufIn := by rw [hbuf]; rfl
  points i := readP_of_erased hp i ▸ Point.affine_canonical 0 0

theorem StorageInv.memWrite {s : State} (h : StorageInv s) {a n : Nat} (ha : a + n ≤ Config.bufBytes) (B : Bytes) :
    StorageInv (memWrite a n B s) :=
  ⟨memWrite_wf h.bufWf a n B, memWrite_inBuf h.bufIn ha B, h.points⟩

theorem StorageInv.writeP {s : State} (h : StorageInv s) (d : Fin 4) {Q : Point} (hQ : Q.canonical) :
    StorageInv (writeP d Q s) where
  bufWf := h.bufWf
  bufIn := h.bufIn
  points i := by
    by_cases hi : i = d
    · rw [hi, readP_writeP_same]
      exact hQ
    · rw [readP_writeP_ne Q s hi]
      exact h.points i

/-! ### The machine invariant, by what happens to the engine -/

/-- With nothing of a command left, the clauses about requests, answers and Parse are empty (R323). -/
theorem KacInv.of_idle {s : State} (h : StorageInv s) (hbd : ¬(s.status.busy = true ∧ s.status.done = true))
    (he : s.engine = Engine.idle) : KacInv s where
  bufWf := h.bufWf
  bufIn := h.bufIn
  points := h.points
  busyDone := hbd
  idle _ := he
  request _ hq := by rw [he] at hq; cases hq
  answer ha := by rw [he] at ha; cases ha
  parsing hn := by rw [he] at hn; exact absurd rfl hn

/-- Where the engine, CMD, STRENGTH and BUSY stay and DONE is not newly set, the stored data is all there is to look at. -/
theorem KacInv.of_sameEngine {s t : State} (h : KacInv s) (ht : StorageInv t) (he : t.engine = s.engine)
    (hcmd : t.cmd = s.cmd) (hstr : t.strength = s.strength) (hbusy : t.status.busy = s.status.busy)
    (hdone : t.status.done = true → s.status.done = true) : KacInv t where
  bufWf := ht.bufWf
  bufIn := ht.bufIn
  points := ht.points
  busyDone hbd := h.busyDone ⟨hbusy ▸ hbd.1, hdone hbd.2⟩
  idle hb := he ▸ h.idle (hbusy ▸ hb)
  request := by rw [he, hcmd, hstr]; exact h.request
  answer := by rw [he, hcmd, hstr]; exact h.answer
  parsing := by rw [he, hcmd]; exact h.parsing

/-- A command that completes leaves the engine idle, so only what it stored matters (R284, R323). -/
theorem StorageInv.complete {s : State} {c : Code} (h : StorageInv s) : KacInv (complete c s) :=
  .of_idle (h.congr rfl rfl) (fun hbd => Bool.false_ne_true hbd.1) rfl

/-- After reset, by the pin or by SRST, nothing is stored and nothing runs (R45, R310). -/
theorem kacInv_resetBlock (s : State) : KacInv (resetBlock s) :=
  .of_idle (.of_erased rfl rfl) (fun hbd => Bool.false_ne_true hbd.1) rfl

theorem KacInv.dropInput {s : State} (h : KacInv s) : KacInv s.dropInput :=
  h.of_sameEngine (h.storage.congr rfl rfl) rfl rfl rfl rfl id

/-! ### The core's move keeps the invariant -/

/-- A running command's request is its own; it waits with no answer at hand (R74 to R76). -/
theorem KacInv.asks {s : State} (h : KacInv s) {i : Instr} {q : EntropyRequest} (hb : s.status.busy = true)
    (hd : decode s.cmd = .ok i) (hq : entropyRequest i s.strength = some q) :
    KacInv { s with engine := { s.engine with entReq := some q, entRsp := none } } where
  bufWf := h.bufWf
  bufIn := h.bufIn
  points := h.points
  busyDone := h.busyDone
  idle hb' := by rw [hb] at hb'; cases hb'
  request q' hq' := by cases hq'; exact ⟨i, hd, hq⟩
  answer ha := by cases ha
  parsing := h.parsing

/-- A running command whose Parse has not ended is a sampling command (R327). -/
theorem KacInv.keepParsing {s : State} (h : KacInv s) {i : Instr} (hb : s.status.busy = true)
    (hd : decode s.cmd = .ok i) (hp : usesParse i = true) : KacInv (keepParsing s) where
  bufWf := h.bufWf
  bufIn := h.bufIn
  points := h.points
  busyDone := h.busyDone
  idle hb' := by rw [keepParsing_status, hb] at hb'; cases hb'
  request := h.request
  answer := h.answer
  parsing _ := ⟨i, hd, hp⟩

theorem Effect.keeps_kacInv {i : Instr} {s t : State} (he : Effect i s t) (h : KacInv s) (hb : s.status.busy = true)
    (hd : decode s.cmd = .ok i) : KacInv t := by
  have hs := h.storage
  cases he with
  | rejects => exact hs.complete
  | completes => exact hs.complete
  | erases => exact StorageInv.complete (.of_erased rfl rfl)
  | setsF => exact StorageInv.complete (hs.congr rfl rfl)
  | setsP d Q _ hQ => exact (hs.writeP d (hQ hs.points)).complete
  | setsR => exact StorageInv.complete (hs.congr rfl rfl)
  | validates => exact StorageInv.complete (hs.congr rfl rfl)
  | selects => exact StorageInv.complete (hs.congr rfl rfl)
  | stores a n B _ hf => exact (hs.memWrite hf B).complete
  | outputs a n B l _ hf => exact StorageInv.complete ((hs.memWrite hf B).congr rfl rfl)
  | outputsTwo a n B l a' n' B' l' _ hf hf' =>
    exact StorageInv.complete (((hs.memWrite hf B).memWrite hf' B').congr rfl rfl)
  | asks q hq => exact h.asks hb hd hq
  | parses hp => exact h.keepParsing hb hd hp

theorem busy_of_running {s : State} (h : running s = true) : s.status.busy = true := by
  simp only [running, Bool.and_eq_true] at h
  exact h.1

theorem CoreEffect.keeps_kacInv {s t : State} (he : CoreEffect s t) (h : KacInv s) : KacInv t := by
  cases he with
  | holds => exact h
  | runs i t hr hd he => exact he.keeps_kacInv h (busy_of_running hr) hd
  | refuses => exact h.storage.complete

/-! ### A host access, an entropy answer and a reset keep the invariant -/

theorem KacInv.dropWrite {s : State} (h : KacInv s) : KacInv (dropWrite s) :=
  h.of_sameEngine (h.storage.congr rfl rfl) rfl rfl rfl rfl id

theorem KacInv.accept {s : State} (h : KacInv s) (w : Word) : KacInv (accept w s) :=
  .of_idle (h.storage.congr rfl rfl) (fun hbd => Bool.false_ne_true hbd.2) rfl

theorem KacInv.writeStatus {s : State} (h : KacInv s) (w : Word) : KacInv (writeStatus w s) := by
  rw [writeStatus_eq]
  exact h.of_sameEngine (h.storage.congr rfl rfl) rfl rfl rfl rfl fun hd => (Bool.and_eq_true _ _ ▸ hd).1

theorem KacInv.writeCtrl {s : State} (h : KacInv s) (w : Word) : KacInv (writeCtrl w s) := by
  rw [Machine.writeCtrl]
  split
  · exact kacInv_resetBlock s
  · exact h.of_sameEngine (h.storage.congr rfl rfl) rfl rfl rfl rfl id

theorem KacInv.writeArg {s : State} (h : KacInv s) (k : Fin 8) (w : Word) :
    KacInv { s with arg := s.arg.set k.val w } :=
  h.of_sameEngine (h.storage.congr rfl rfl) rfl rfl rfl rfl id

/-- A store inside BUF by the host keeps the invariant (R63, R65). -/
theorem KacInv.memWrite {s : State} (h : KacInv s) {a n : Nat} (ha : a + n ≤ Config.bufBytes) (B : Bytes) :
    KacInv (memWrite a n B s) :=
  h.of_sameEngine (h.storage.memWrite ha B) rfl rfl rfl rfl id

/-- A host write, register by register (R26 to R35, R71); the window's word lies inside BUF by the register map. -/
theorem KacInv.hostWrite {s : State} (h : KacInv s) (a : BitVec 15) (w : Word) : KacInv (hostWrite a w s) := by
  rw [Machine.hostWrite]
  cases hr : hostReg a with
  | cmd =>
    rw [writeReg]
    split
    · exact h.dropWrite
    · exact h.accept w
  | status => exact h.writeStatus w
  | ctrl => exact h.writeCtrl w
  | arg k =>
    rw [writeReg]
    split
    · exact h.dropWrite
    · exact h.writeArg k w
  | bufWord x =>
    rw [writeReg]
    split
    · exact h.dropWrite
    · have hx : x + 4 ≤ Config.bufBytes := ((hostReg_eq_bufWord_iff a x).1 hr).2.2
      exact h.memWrite hx _
  | _ => exact h

theorem KacInv.hostReadMove {s : State} (h : KacInv s) (a : BitVec 15) : KacInv (hostReadMove a s) :=
  h.of_sameEngine (h.storage.congr rfl rfl) rfl rfl rfl rfl id

/-- An answer that was asked for is the running command's, since the request was (R74, R287). -/
theorem KacInv.deliverEntropy {s : State} (h : KacInv s) (ans : EntropyAnswer) : KacInv (deliverEntropy ans s) := by
  cases hq : s.engine.entReq with
  | none => rw [deliverEntropy_unasked hq]; exact h
  | some q =>
    rw [deliverEntropy_asked hq]
    obtain ⟨i, hd, hreq⟩ := h.request q hq
    exact {
      bufWf := h.bufWf
      bufIn := h.bufIn
      points := h.points
      busyDone := h.busyDone
      idle := fun hb => by rw [h.idle hb] at hq; cases hq
      request := fun q' hq' => by cases hq'
      answer := fun _ => ⟨rfl, i, q, hd, hreq⟩
      parsing := h.parsing }

theorem StepEffect.keeps_kacInv {s t : State} (he : StepEffect s t) (h : KacInv s) : KacInv t := by
  have h' := h.dropInput
  cases he with
  | core t _ he => exact he.keeps_kacInv h'
  | hostWrite a w => exact h'.hostWrite a w
  | hostRead a => exact h'.hostReadMove a
  | entropy ans => exact h'.deliverEntropy ans
  | lateEntropy => exact h'
  | reset => exact kacInv_resetBlock _

/-- The step that is answered is one of those a step can do. -/
theorem stepEffect_of_step {s t : State} (h : step s = .next t) : StepEffect s t := by
  obtain ⟨u, hu, he⟩ := step_effect s
  cases h.symm.trans hu
  exact he

/-! ### The frames of the flags and of the control registers (R25, R31 to R33) -/

/-- The command's answer is one of those a command can give. -/
theorem effect_of_exec {i : Instr} {s t : State} (h : exec i s = .next t) : Effect i s t := by
  obtain ⟨u, hu, he⟩ := exec_effect i s
  cases h.symm.trans hu
  exact he

/-- Z has two writers: ZEROIZE and the results in F (R25). -/
theorem Effect.z_eq {i : Instr} {s t : State} (he : Effect i s t) (hz : isZeroize i = false) (hF : destF i = none) :
    t.status.z = s.status.z := by
  cases he with
  | erases h => rw [h] at hz; cases hz
  | setsF d v h => rw [h] at hF; cases hF
  | _ => simp

/-- INF has three writers: ZEROIZE, the results in P and PVALID (R25). -/
theorem Effect.inf_eq {i : Instr} {s t : State} (he : Effect i s t) (hz : isZeroize i = false) (hP : destP i = none)
    (hv : isPvalid i = false) : t.status.inf = s.status.inf := by
  cases he with
  | erases h => rw [h] at hz; cases hz
  | setsP d Q h => rw [h] at hP; cases hP
  | validates v inf h => rw [h] at hv; cases hv
  | _ => simp

/-- V has two writers: ZEROIZE and PVALID (R25). -/
theorem Effect.v_eq {i : Instr} {s t : State} (he : Effect i s t) (hz : isZeroize i = false)
    (hv : isPvalid i = false) : t.status.v = s.status.v := by
  cases he with
  | erases h => rw [h] at hz; cases hz
  | validates v inf h => rw [h] at hv; cases hv
  | _ => simp

/-- What no command writes: CMD, IE, WERR and the two fields of the host port (R28 to R30). -/
theorem Effect.control_eq {i : Instr} {s t : State} (he : Effect i s t) :
    t.cmd = s.cmd ∧ t.ie = s.ie ∧ t.status.werr = s.status.werr ∧ t.hRdata = s.hRdata ∧ t.agenda = s.agenda := by
  cases he <;> simp

/-- STRENGTH has one writer, KYB_INIT (R33). -/
theorem Effect.strength_eq {i : Instr} {s t : State} (he : Effect i s t) (hk : isKybInit i = false) :
    t.strength = s.strength := by
  cases he with
  | selects x h => rw [h] at hk; cases hk
  | _ => simp

/-- ARG has one writer among the commands, ZEROIZE (R31, R271). -/
theorem Effect.arg_eq {i : Instr} {s t : State} (he : Effect i s t) (hz : isZeroize i = false) : t.arg = s.arg := by
  cases he with
  | erases h => rw [h] at hz; cases hz
  | _ => simp

/-- RLEN0 is written by the commands with outputs and by ZEROIZE (R32). -/
theorem Effect.rlen0_eq {i : Instr} {s t : State} (he : Effect i s t) (hl : writesRlen0 i = false) :
    t.rlen0 = s.rlen0 := by
  cases he with
  | erases h => rw [h] at hl; cases hl
  | outputs a n B l _ _ h => rw [h] at hl; cases hl
  | outputsTwo a n B l a' n' B' l' _ _ _ h => rw [h] at hl; cases hl
  | _ => simp

/-- RLEN1 is written by the commands with two outputs and by ZEROIZE (R32). -/
theorem Effect.rlen1_eq {i : Instr} {s t : State} (he : Effect i s t) (hl : writesRlen1 i = false) :
    t.rlen1 = s.rlen1 := by
  cases he with
  | erases h => rw [h] at hl; cases hl
  | outputsTwo a n B l a' n' B' l' _ _ _ _ h => rw [h] at hl; cases hl
  | _ => simp

/-! ### The core's move as a step (R24, R28) -/

/-- The step is the core's where nothing else comes first (log 1). -/
theorem step_eq_coreMove {s : State} {rest : List Event}
    (h : s.agenda = [] ∧ rest = [] ∨ s.agenda = .core :: rest) : step s = coreMove { s with agenda := rest } := by
  rcases h with ⟨ha, rfl⟩ | ha
  · rw [← ha]
    change step s = coreMove s
    rw [step, ha]
  · rw [step, ha]

theorem running_of_busy {s : State} (hb : s.status.busy = true) (hq : s.engine.entReq = none) : running s = true := by
  simp [running, Engine.entwait, hb, hq]

theorem coreMove_of_decode {s : State} {i : Instr} (hb : s.status.busy = true) (hq : s.engine.entReq = none)
    (hd : decode s.cmd = .ok i) : coreMove s = exec i s := by
  rw [coreMove, if_pos (running_of_busy hb hq), runCommand, hd]

/-- A 32-bit word is placed as it is (R90; log 2). -/
theorem withFetchWord_toNat (s : State) (w : Word) : s.withFetchWord 32 w.toNat = placeCommand w s := by
  rw [State.withFetchWord, Nat.mod_eq_of_lt w.isLt, BitVec.ofNat_toNat, BitVec.setWidth_eq]

/-! ### Host accesses to CMD, STATUS and the size registers (R28, R29, R33, R34) -/

theorem hostRead_cmd (s : State) : hostRead s 1#15 = s.cmd := by
  rw [hostRead, hostReg_cmd, readReg]

theorem hostRead_status (s : State) : hostRead s 2#15 = s.statusWord := by
  rw [hostRead, hostReg_status, readReg]

/-- The word indices of the size registers, from PUBKEY_SIZE at 0x44 to MAX_ENTROPY_SIZE at 0x58 (R26, R34). -/
theorem sizeRegister_cases {a : BitVec 15} (hl : 0x44 ≤ 4 * a.toNat) (hu : 4 * a.toNat ≤ 0x58) :
    a = 17#15 ∨ a = 18#15 ∨ a = 19#15 ∨ a = 20#15 ∨ a = 21#15 ∨ a = 22#15 := by
  bv_omega

/-- ERR, read from CODE (R29, R280). -/
theorem Status.err_eq (t : Status) : t.err = decide (t.code ≠ .success) :=
  Bool.eq_iff_iff.2 (by simp [Status.err])

/-- CODE stands in bits 15:8 of STATUS, and nothing above it (R29). -/
theorem statusWord_getLsbD_code (s : State) (k : Nat) :
    s.statusWord.getLsbD (8 + k) = s.status.code.byte.getLsbD k := by
  rw [statusWord_getLsbD]
  simp (disch := omega) only [if_neg, Nat.add_sub_cancel_left]

theorem statusWord_code (s : State) : s.statusWord.extractLsb' 8 8 = s.status.code.byte := by
  refine BitVec.eq_of_getLsbD_eq fun k hk => ?_
  rw [BitVec.getLsbD_extractLsb', statusWord_getLsbD_code]
  simp [hk]

theorem statusWord_upper (s : State) : s.statusWord.extractLsb' 16 16 = 0 := by
  refine BitVec.eq_of_getLsbD_eq fun k hk => ?_
  rw [BitVec.getLsbD_extractLsb', show 16 + k = 8 + (8 + k) by omega, statusWord_getLsbD_code,
    BitVec.getLsbD_of_ge _ _ (by omega)]
  simp

/-! ### The reset state (R45) -/

theorem coeff_zero (j : Nat) : coeff Poly.zero j = 0 := by
  rw [coeff, zero_toList, List.getD_eq_getElem?_getD, List.getElem?_replicate]
  split <;> rfl

theorem readF_reset (i : Fin 16) : State.reset.readF i = 0 := by
  simp [State.readF, State.reset]

theorem readR_reset (i : Fin 8) : State.reset.readR i = Poly.zero := by
  simp [State.readR, State.reset]

theorem readArg_reset (k : Fin 8) : State.reset.readArg k = 0 := by
  simp [State.readArg, State.reset]

/-- With no strength set every size register reads 0 (R34). -/
theorem hostRead_size_reset {a : BitVec 15} (hl : 0x44 ≤ 4 * a.toNat) (hu : 4 * a.toNat ≤ 0x58) :
    hostRead State.reset a = 0 := by
  rcases sizeRegister_cases hl hu with rfl | rfl | rfl | rfl | rfl | rfl <;> rfl

end Sys2Proof.Machine

namespace Sys2Proof.StateClaims

open Sys2Proof.Machine

/-- Settles O17: what a step can do (`step_effect`), and each of it keeps the invariant. -/
theorem everyStepKeepsTheMachineInvariant : Obligations.EveryStepKeepsTheMachineInvariant :=
  fun _ _ h hst => (stepEffect_of_step hst).keeps_kacInv h

/-- Settles O18: the reset state is what a reset of the block leaves. -/
theorem resetHasTheMachineInvariant : Obligations.ResetHasTheMachineInvariant :=
  kacInv_resetBlock State.reset

/-- Settles O10: a STATUS write changes DONE and WERR only (`writeStatus_eq`). -/
theorem statusWriteClearsDoneAndWerrOnly : Obligations.StatusWriteClearsDoneAndWerrOnly := by
  intro s w
  refine ⟨_, rfl, ?_⟩
  rw [hostWrite_status, writeStatus_eq]
  exact ⟨rfl, rfl, rfl⟩

/-- Settles O13: bit by bit (`statusWord_getLsbD`). -/
theorem statusWordHoldsEachFieldAtItsBit : Obligations.StatusWordHoldsEachFieldAtItsBit := by
  intro s
  exact ⟨statusWord_getLsbD s 0, statusWord_getLsbD s 1, (statusWord_getLsbD s 2).trans s.status.err_eq,
    statusWord_getLsbD s 3, statusWord_getLsbD s 4, statusWord_getLsbD s 5, statusWord_getLsbD s 6,
    statusWord_getLsbD s 7, statusWord_code s, statusWord_upper s, hostRead_status s⟩

/-- Settles O24: each flag's writers among the effects of a command. -/
theorem flagsChangeOnlyByTheirWriters : Obligations.FlagsChangeOnlyByTheirWriters :=
  fun _ _ _ hz h => ⟨(effect_of_exec h).z_eq hz, (effect_of_exec h).inf_eq hz, (effect_of_exec h).v_eq hz⟩

/-- Settles O25: each register's writers among the effects of a command. -/
theorem controlRegistersChangeOnlyByTheirWriters : Obligations.ControlRegistersChangeOnlyByTheirWriters := by
  intro i s t h
  have he := effect_of_exec h
  obtain ⟨hcmd, hie, hwerr, hread, hagenda⟩ := he.control_eq
  exact ⟨hcmd, hie, hwerr, hread, hagenda, he.strength_eq, he.arg_eq, he.rlen0_eq, he.rlen1_eq⟩

/-- Settles O5: a running core's move is the decoded command's meaning, and a placed word is such a move. -/
theorem coreMoveRunsTheDecodedCommand : Obligations.CoreMoveRunsTheDecodedCommand := by
  refine ⟨fun s rest i ha hb hq hd => ?_, fun s w i hd => ?_⟩
  · rw [step_eq_coreMove ha]
    exact coreMove_of_decode hb hq hd
  · rw [withFetchWord_toNat, step_eq_coreMove (rest := s.agenda) (.inr rfl)]
    exact coreMove_of_decode rfl rfl hd

/-- Settles O7: the two branches of a CMD write (`hostWrite_cmd`). -/
theorem cmdWriteIsAcceptedOrDropped : Obligations.CmdWriteIsAcceptedOrDropped := by
  intro s w
  refine ⟨fun hb => ?_, fun hb => ?_, hostRead_cmd State.reset⟩
  · have hw : hostWrite 1#15 w s = accept w s := by simp [hostWrite_cmd, hb]
    rw [hw]
    exact ⟨rfl, hostRead_cmd _⟩
  · have hw : hostWrite 1#15 w s = dropWrite s := by simp [hostWrite_cmd, hb]
    rw [hw]
    exact ⟨rfl, hostRead_cmd _⟩

/-- Settles O8: each register of the reset state. -/
theorem resetGivesEveryRegisterItsValue : Obligations.ResetGivesEveryRegisterItsValue :=
  ⟨readF_reset, readP_of_erased rfl, fun i j => readR_reset i ▸ coeff_zero j, rfl, rfl, rfl, rfl, readArg_reset,
    rfl, rfl, rfl, fun _ => hostRead_size_reset, Memory.read_nil, rfl, rfl⟩

/-- Settles O14: the table row by row, and the registers no write reaches (`hostWrite_ignored`). -/
theorem sizeRegistersFollowStrength : Obligations.SizeRegistersFollowStrength := by
  intro s
  refine ⟨fun h => ?_, fun h => ?_, fun h => ?_, fun h => ?_, fun a w hl hu => hostWrite_ignored (by omega) w s⟩
  all_goals
    simp only [hostRead, hostReg_strength, hostReg_pubkeySize, hostReg_privkeySize, hostReg_secretSize,
      hostReg_encryptedSize, hostReg_minEntropySize, hostReg_maxEntropySize, readReg, h]
    decide

end Sys2Proof.StateClaims
end

section
/-! PROOFS. The statements of 20_memory.md: host accesses while a command runs, the BUF window, the entropy port, BUF's frame. -/

namespace Sys2Proof.Machine

/-! ### The steps of the host and of the entropy provider (R68, R74, R79, R311) -/

theorem step_hostRead {s : State} {a : BitVec 15} {rest : List Event} (h : s.agenda = .hostRead a :: rest) :
    step s = .next { s with agenda := rest, hRdata := hostRead s a } := by
  rw [step, h]
  rfl

theorem step_hostWrite {s : State} {a : BitVec 15} {w : Word} {rest : List Event}
    (h : s.agenda = .hostWrite a w :: rest) : step s = .next (hostWrite a w { s with agenda := rest }) := by
  rw [step, h]

theorem step_entropy {s : State} {ans : EntropyAnswer} {rest : List Event} (h : s.agenda = .entropy ans :: rest) :
    step s = .next (deliverEntropy ans { s with agenda := rest }) := by
  rw [step, h]

theorem step_lateEntropy {s : State} {ans : EntropyAnswer} {rest : List Event}
    (h : s.agenda = .lateEntropy ans :: rest) : step s = .next { s with agenda := rest } := by
  simp only [step, h, discardLateEntropy_eq]

/-- A command that waits for the entropy provider does not move (R74; log 21). -/
theorem coreMove_of_waiting {s : State} {q : EntropyRequest} (hq : s.engine.entReq = some q) : coreMove s = .next s := by
  rw [coreMove, if_neg (by simp [running, Engine.entwait, hq])]

/-! ### Host accesses to CMD, ARG and BUF, and to the reserved offsets (R31, R35, R71) -/

/-- CMD, ARG and BUF take no write while a command runs (R71). -/
theorem hostWrite_dropped {a : BitVec 15} {s : State} (hb : s.status.busy = true)
    (h : hostReg a = .cmd ∨ (∃ k, hostReg a = .arg k) ∨ ∃ x, hostReg a = .bufWord x) (w : Word) :
    hostWrite a w s = dropWrite s := by
  rw [hostWrite]
  rcases h with h | ⟨k, h⟩ | ⟨x, h⟩ <;> rw [h, writeReg, if_pos hb]

/-- No other write sets WERR (R29). -/
theorem werr_of_hostWrite {a : BitVec 15} {w : Word} {s : State} (hcmd : hostReg a ≠ .cmd)
    (harg : ∀ k, hostReg a ≠ .arg k) (hbuf : ∀ x, hostReg a ≠ .bufWord x)
    (h : (hostWrite a w s).status.werr = true) : s.status.werr = true := by
  rw [hostWrite] at h
  cases hr : hostReg a with
  | cmd => exact absurd hr hcmd
  | arg k => exact absurd hr (harg k)
  | bufWord x => exact absurd hr (hbuf x)
  | status =>
    rw [hr, writeReg, writeStatus_eq, Bool.and_eq_true] at h
    exact h.1
  | ctrl =>
    rw [hr, writeReg, writeCtrl] at h
    split at h
    · cases h
    · exact h
  | _ =>
    rw [hr] at h
    exact h

theorem hostRead_bufWord_busy {a : BitVec 15} {x : Nat} {s : State} (h : hostReg a = .bufWord x)
    (hb : s.status.busy = true) : hostRead s a = 0 := by
  rw [hostRead, h, readReg, if_pos hb]

theorem hostRead_reserved {a : BitVec 15} (h : hostReg a = .reserved) (s : State) : hostRead s a = 0 := by
  rw [hostRead, h, readReg]

theorem hostRead_arg {a : BitVec 15} {k : Fin 8} (h : hostReg a = .arg k) (s : State) : hostRead s a = s.readArg k := by
  rw [hostRead, h, readReg]

theorem hostWrite_arg {a : BitVec 15} {k : Fin 8} {s : State} (h : hostReg a = .arg k) (hb : s.status.busy = false)
    (w : Word) : hostWrite a w s = { s with arg := s.arg.set k.val w } := by
  simp [hostWrite, h, writeReg, hb]

theorem readArg_set_same (k : Fin 8) (w : Word) (s : State) :
    ({ s with arg := s.arg.set k.val w } : State).readArg k = w := by
  simp [State.readArg]

theorem readArg_set_ne {k k' : Fin 8} (h : k' ≠ k) (w : Word) (s : State) :
    ({ s with arg := s.arg.set k.val w } : State).readArg k' = s.readArg k' := by
  have : k.val ≠ k'.val := fun e => h (Fin.ext e.symm)
  simp [State.readArg, this]

/-! ### The BUF window (R65) -/

theorem hostReg_window {a : BitVec 15} {w : Nat} (ha : a.toNat = 0x4000 + w) (hw : 4 * w < Config.bufBytes) :
    hostReg a = .bufWord (4 * w) := by
  have hB : Config.bufBytes = 16384 := rfl
  rw [hostReg_eq_bufWord_iff]
  omega

theorem hostRead_bufWord {a : BitVec 15} {x : Nat} {s : State} (h : hostReg a = .bufWord x)
    (hb : s.status.busy = false) : hostRead s a = bufWord s x := by
  simp [hostRead, h, readReg, hb]

theorem hostWrite_bufWord {a : BitVec 15} {x : Nat} {s : State} (h : hostReg a = .bufWord x)
    (hb : s.status.busy = false) (w : Word) : hostWrite a w s = memWrite x 4 (leWordBytes w) s := by
  simp [hostWrite, h, writeReg, hb]

/-- Byte k of the string just written. -/
theorem memWrite_read_inside {s : State} (h : s.buf.wf = true) (a : Nat) {n k : Nat} {B : Bytes} (hB : B.length = n)
    (hk : k < n) : (memWrite a n B s).buf.read (a + k) = B.getD k 0 := by
  rw [memWrite_buf, List.take_of_length_le hB.le, Memory.read_writeBytes h, if_pos (by omega),
    Nat.add_sub_cancel_left]

theorem leWordBytes_getD (w : Word) {k : Nat} (hk : k < 4) : (leWordBytes w).getD k 0 = w.extractLsb' (8 * k) 8 := by
  match k, hk with
  | 0, _ | 1, _ | 2, _ | 3, _ => rfl

/-- The bits of each byte in a window word, from the append the word is: a byte is the left part of the append that ends with
it, and bytes above do not matter. -/
theorem bufWord_extractLsb' (s : State) (x : Nat) {k : Nat} (hk : k < 4) :
    (bufWord s x).extractLsb' (8 * k) 8 = s.buf.read (x + k) := by
  match k, hk with
  | 0, _ => exact (BitVec.extractLsb'_append_eq_of_add_le (by decide)).trans <|
      (BitVec.extractLsb'_append_eq_of_add_le (by decide)).trans BitVec.extractLsb'_append_eq_right
  | 1, _ => exact (BitVec.extractLsb'_append_eq_of_add_le (by decide)).trans <|
      (BitVec.extractLsb'_append_eq_of_add_le (by decide)).trans BitVec.extractLsb'_append_eq_left
  | 2, _ => exact (BitVec.extractLsb'_append_eq_of_add_le (by decide)).trans BitVec.extractLsb'_append_eq_left
  | 3, _ => exact BitVec.extractLsb'_append_eq_left

theorem read_memWrite_leWordBytes {s : State} (h : s.buf.wf = true) (x : Nat) (v : Word) {k : Nat} (hk : k < 4) :
    (memWrite x 4 (leWordBytes v) s).buf.read (x + k) = v.extractLsb' (8 * k) 8 :=
  (memWrite_read_inside h x rfl hk).trans (leWordBytes_getD v hk)

theorem bufWord_memWrite_leWordBytes {s : State} (h : s.buf.wf = true) (x : Nat) (v : Word) :
    bufWord (memWrite x 4 (leWordBytes v) s) x = v := by
  have hbyte (k : Nat) (hk : k < 4) := read_memWrite_leWordBytes h x v hk
  have hbyte0 : (memWrite x 4 (leWordBytes v) s).buf.read x = v.extractLsb' 0 8 := hbyte 0 (by decide)
  rw [bufWord, hbyte0, hbyte 1 (by decide), hbyte 2 (by decide), hbyte 3 (by decide)]
  exact leWord_extract v

/-! ### The frame of BUF (R67) -/

theorem not_inRanges_cons {x a n : Nat} {l : List (Nat × Nat)} :
    ¬ inRanges x ((a, n) :: l) ↔ (x < a ∨ a + n ≤ x) ∧ ¬ inRanges x l := by
  simp only [inRanges, List.exists_mem_cons_iff, not_or]
  exact and_congr (by omega) Iff.rfl

/-- BUF's writers among the commands are ZEROIZE and the commands that store, which write their ranges only. -/
theorem Effect.buf_read_eq {i : Instr} {s t : State} (he : Effect i s t) (hz : isZeroize i = false)
    (hwf : s.buf.wf = true) {x : Nat} (hx : ¬ inRanges x (storeRanges i s)) : t.buf.read x = s.buf.read x := by
  cases he with
  | erases h => rw [h] at hz; cases hz
  | stores a n B h =>
    rw [h, not_inRanges_cons] at hx
    exact memWrite_read_outside hwf B hx.1
  | outputs a n B l h =>
    rw [h, not_inRanges_cons] at hx
    exact memWrite_read_outside hwf B hx.1
  | outputsTwo a n B l a' n' B' l' h =>
    rw [h, not_inRanges_cons, not_inRanges_cons] at hx
    obtain ⟨hfirst, hsecond, -⟩ := hx
    exact (memWrite_read_outside (memWrite_wf hwf a n B) B' hsecond).trans (memWrite_read_outside hwf B hfirst)
  | _ => rfl

/-! ### Rejections that need no entropy (R77) -/

/-- What a command answers once its checks are past, where it may look at its engine: it ends with SUCCESS or ENTROPY_FAIL, or
goes on running. -/
inductive PastChecks : Result → Prop
  | succeeds {u : State} : PastChecks (succeed u)
  | failsEntropy {s : State} : PastChecks (raise .entropyFail s)
  | asks {min max : BitVec 16} {s : State} : PastChecks (requestEntropy min max s)
  | parses {s : State} : PastChecks (.next (keepParsing s))

/-- Past its checks a command completes with no other code: one that goes on has a request or a Parse in its engine. -/
theorem PastChecks.code_of_completed {r : Result} {t : State} {c : Code} (h : PastChecks r) (hr : r = .next t)
    (ht : Completed c t) : c = .success ∨ c = .entropyFail := by
  cases h with
  | succeeds =>
    rw [succeed_eq_next_iff] at hr
    exact .inl (by simpa [hr] using ht)
  | failsEntropy =>
    rw [raise_eq_next_iff] at hr
    exact .inr (by simpa [hr] using ht)
  | asks =>
    cases hr
    obtain ⟨-, -, -, hidle⟩ := ht
    cases hidle
  | parses =>
    cases hr
    obtain ⟨-, -, -, hidle⟩ := ht
    exact absurd (congrArg Engine.parseRound hidle) (Nat.succ_ne_zero _)

/-- Two answers of one command, the second from s': one check rejects in both, or the first is past the checks. -/
inductive RejectsAlike (s' : State) : Result → Result → Prop
  | rejects {c : Code} {s : State} : RejectsAlike s' (raise c s) (raise c s')
  | past {r r' : Result} (h : PastChecks r) : RejectsAlike s' r r'

/-- A check that both answers make. -/
theorem RejectsAlike.ite {s' : State} {p : Prop} [Decidable p] {a b a' b' : Result} (ha : RejectsAlike s' a a')
    (hb : RejectsAlike s' b b') : RejectsAlike s' (if p then a else b) (if p then a' else b') := by
  split
  · exact ha
  · exact hb

theorem RejectsAlike.eq_raise {s' t : State} {r r' : Result} {c : Code} (h : RejectsAlike s' r r') (hr : r = .next t)
    (ht : Completed c t) (hs : c ≠ .success) (hf : c ≠ .entropyFail) : r' = raise c s' := by
  cases h with
  | rejects =>
    rw [raise_eq_next_iff] at hr
    rw [hr, completed_complete_iff] at ht
    rw [ht]
  | past h => exact absurd (h.code_of_completed hr ht) (not_or.2 ⟨hs, hf⟩)

/-- No check reads the engine: a command is its checks, the same from both states, and then it is past them (R170, R230). -/
theorem exec_rejectsAlike (i : Instr) (s : State) (e : Engine) :
    RejectsAlike { s with engine := e } (exec i s) (exec i { s with engine := e }) := by
  cases i with
  | fld | fst | pld | rld | rst | padd | pdbl | smul => exact .ite .rejects (.past .succeeds)
  | pst | cbd | rcomp | rdecomp => exact .ite .rejects <| .ite .rejects (.past .succeeds)
  | kybInit =>
    simp only [exec, execKybInit]
    split
    · exact .rejects
    · exact .past .succeeds
  | sampleu =>
    refine .ite .rejects (.past ?_)
    rw [finishSample]
    split
    · exact .parses
    · exact .succeeds
  | ecdhKeygen =>
    refine .ite .rejects <| .ite .rejects (.past ?_)
    split
    · exact .asks
    split
    · exact .failsEntropy
    split
    · exact .asks
    · exact .succeeds
  | ecdhSecret =>
    refine .ite .rejects <| .ite .rejects <| .ite .rejects <| .ite .rejects <| .ite .rejects <| .ite .rejects ?_
    have hshared : ecdhShared { s with engine := e } = ecdhShared s := rfl
    rw [hshared]
    split
    · exact .rejects
    · exact .past .succeeds
  | kybKeygen =>
    refine .ite .rejects <| .ite .rejects <| .ite .rejects (.past ?_)
    split
    · exact .asks
    split
    · exact .failsEntropy
    split
    · exact .parses
    · exact .succeeds
  | kybEncaps =>
    refine .ite .rejects <| .ite .rejects <| .ite .rejects <| .ite .rejects (.past ?_)
    split
    · exact .asks
    split
    · exact .failsEntropy
    split
    · exact .parses
    · exact .succeeds
  | kybDecaps =>
    refine .ite .rejects <| .ite .rejects <| .ite .rejects <| .ite .rejects <| .ite .rejects (.past ?_)
    split
    · exact .parses
    · exact .succeeds
  | _ => exact .past .succeeds

end Sys2Proof.Machine

namespace Sys2Proof.MemoryClaims

open Sys2Proof.Machine

/-- Settles O11: the register map (`hostReg_eq_reserved_iff`), the writes that are ignored or dropped, and ARG read back. -/
theorem busyBlocksCmdArgAndBufAccess : Obligations.BusyBlocksCmdArgAndBufAccess := by
  intro s a w rest off
  have hB : Config.bufBytes = 16384 := rfl
  refine ⟨step_hostRead, step_hostWrite, fun h => hostWrite_ignored (by omega) w s,
    fun h => hostRead_reserved ((hostReg_eq_reserved_iff a).2 (by omega)) s, fun hb => ?_, fun hb k hk => ?_⟩
  · refine ⟨fun x hx => hostRead_bufWord_busy hx hb, fun h => hostWrite_dropped hb h w, werr_of_hostWrite, ?_, ?_, ?_⟩
    · rw [hostWrite_ctrl]; rfl
    · rw [hostWrite_ctrl]; rfl
    · rw [hostWrite_status, writeStatus_eq]
      exact Bool.and_false _
  · rw [hostRead_arg hk, hostWrite_arg hk hb]
    exact ⟨readArg_set_same k w s, fun k' hk' => readArg_set_ne hk' w s⟩

/-- Settles O12: the window's word is a four-byte store at 4w, and a read puts the four bytes together. -/
theorem bufWindowPacksBytesLittleEndian : Obligations.BufWindowPacksBytesLittleEndian := by
  intro s w v a hwf hb ha hw
  have hreg := hostReg_window ha hw
  rw [hostWrite_bufWord hreg hb, hostRead_bufWord (s := memWrite _ _ _ s) hreg hb, hostRead_bufWord hreg hb]
  exact ⟨bufWord_memWrite_leWordBytes hwf _ v, fun k hk => read_memWrite_leWordBytes hwf _ v hk,
    fun x hx => memWrite_read_outside hwf _ hx, fun k hk => bufWord_extractLsb' s _ hk⟩

/-- Settles O22: the rejecting check is made with any engine (`exec_rejectsAlike`), and it writes nothing. -/
theorem otherRejectionsNeedNoEntropy : Obligations.OtherRejectionsNeedNoEntropy := by
  intro i s t c e hr ht hs hf
  exact ⟨_, (exec_rejectsAlike i s e).eq_raise hr ht hs hf, complete_completed c _, complete_sameData c _⟩

/-- Settles O26: BUF's writers among the effects of a command. -/
theorem bufChangesOnlyInTheStoredRanges : Obligations.BufChangesOnlyInTheStoredRanges :=
  fun _ _ _ _ hz hwf h => (effect_of_exec h).buf_read_eq hz hwf

/-- Settles O16: an answer is taken where one was asked for (`deliverEntropy_asked`) and discarded elsewhere. -/
theorem entropyAnswerEndsTheWaitOrIsDiscarded : Obligations.EntropyAnswerEndsTheWaitOrIsDiscarded := by
  intro s ans rest
  refine ⟨⟨ans.bytes_length, Nat.le_of_lt_succ ans.bytes_length_lt⟩, fun q hq h => ?_, fun hq h => ?_,
    step_lateEntropy, fun q hq h => ?_⟩
  · refine ⟨_, step_entropy h, ?_⟩
    rw [deliverEntropy_asked (s := { s with agenda := rest }) hq]
    exact ⟨statusWord_getLsbD _ 7, rfl⟩
  · rw [step_entropy h, deliverEntropy_unasked (s := { s with agenda := rest }) hq]
  · rw [step_eq_coreMove (.inr h), coreMove_of_waiting (s := { s with agenda := rest }) hq]

end Sys2Proof.MemoryClaims
end

section
/-! PROOFS. The statements of 30_encoding.md: decoder and encoder undo each other (R102), the decoder follows the table (R97, R98). -/

open Sys2Proof.Claims

namespace Sys2Proof

/-! ### A word is the word of its fields (R91 to R93) -/

/-- Format N has no field but the opcode. -/
theorem wordN_eq_iff (w : Word) : wordN (opField w) = w ↔ nField w = 0 :=
  ⟨fun h => by rw [← h, nField_wordN], wordN_fields⟩

theorem wordN_eq_wordR (op : BitVec 8) : wordN op = wordR op 0 0 0 := rfl

theorem wordR_eq_iff (w : Word) (rd ra rb : BitVec 4) : wordR (opField w) rd ra rb = w ↔
    lowField w = 0 ∧ rbField w = rb ∧ raField w = ra ∧ rdField w = rd := by
  constructor
  · intro h
    rw [← h]
    simp
  · rintro ⟨h, rfl, rfl, rfl⟩
    exact wordR_fields h

theorem wordM_eq_iff (w : Word) (r x : BitVec 4) (imm : Imm16) : wordM (opField w) r x imm = w ↔
    raField w = x ∧ rdField w = r ∧ immField w = imm := by
  constructor
  · intro h
    rw [← h]
    simp
  · rintro ⟨rfl, rfl, rfl⟩
    exact wordM_fields w

/-! ### What the readers of a field accept (R94, R96) -/

/-- Every 4-bit value is an F index, or a modifier x. -/
theorem eq_indexBits_iff (x : BitVec 4) (i : Fin 16) : x = indexBits i ↔ fIndex x = i := by
  revert x i; decide

/-- The modifier of SAMPLEU holds two 2-bit numbers. -/
theorem eq_append_iff (x : BitVec 4) (a b : Fin 4) : x = (BitVec.ofFin a ++ BitVec.ofFin b : BitVec (2 + 2)) ↔
    (x.extractLsb' 2 2).toFin = a ∧ (x.extractLsb' 0 2).toFin = b := by
  revert x a b; decide

theorem pure_eq_ok_iff {α : Type} (a b : α) : (pure a : Except Illegal α) = .ok b ↔ a = b := by
  simp [pure, Except.pure]

/-- A value behind a check. -/
theorem checked_eq_ok_iff {α : Type} (p : Prop) [Decidable p] (a b : α) (e : Illegal) :
    (if p then pure a else .error e : Except Illegal α) = .ok b ↔ p ∧ a = b := by
  by_cases h : p <;> simp [h, pure_eq_ok_iff]

/-! ### Each format accepts the words of its operands, and no others (R91 to R94, R96, R98)

Both sides are conditions on the fields; `grind` only brings them into one order. -/

theorem formN_eq_ok_iff {w : Word} {c i : Instr} : formN w c = .ok i ↔ wordN (opField w) = w ∧ c = i := by
  simp only [formN, bind_eq_ok_iff, mustBeZero_eq_ok_iff, pure_eq_ok_iff, wordN_eq_iff]
  grind

theorem formFFF_eq_ok_iff {w : Word} {c : Fin 16 → Fin 16 → Fin 16 → Instr} {i : Instr} : formFFF w c = .ok i ↔
    ∃ d a b, wordR (opField w) (indexBits d) (indexBits a) (indexBits b) = w ∧ c d a b = i := by
  simp only [formFFF, bind_eq_ok_iff, mustBeZero_eq_ok_iff, pure_eq_ok_iff, wordR_eq_iff, eq_indexBits_iff]
  grind

theorem formFF_eq_ok_iff {w : Word} {c : Fin 16 → Fin 16 → Instr} {i : Instr} : formFF w c = .ok i ↔
    ∃ d a, wordR (opField w) (indexBits d) (indexBits a) 0 = w ∧ c d a = i := by
  simp only [formFF, bind_eq_ok_iff, mustBeZero_eq_ok_iff, pure_eq_ok_iff, wordR_eq_iff, eq_indexBits_iff]
  grind

theorem formPPP_eq_ok_iff {w : Word} {c : Fin 4 → Fin 4 → Fin 4 → Instr} {i : Instr} : formPPP w c = .ok i ↔
    ∃ d a b, wordR (opField w) (indexBits d) (indexBits a) (indexBits b) = w ∧ c d a b = i := by
  simp only [formPPP, bind_eq_ok_iff, mustBeZero_eq_ok_iff, pure_eq_ok_iff, pIndex_eq_ok_iff, wordR_eq_iff]
  grind

theorem formPP_eq_ok_iff {w : Word} {c : Fin 4 → Fin 4 → Instr} {i : Instr} : formPP w c = .ok i ↔
    ∃ d a, wordR (opField w) (indexBits d) (indexBits a) 0 = w ∧ c d a = i := by
  simp only [formPP, bind_eq_ok_iff, mustBeZero_eq_ok_iff, pure_eq_ok_iff, pIndex_eq_ok_iff, wordR_eq_iff]
  grind

theorem formPd_eq_ok_iff {w : Word} {c : Fin 4 → Instr} {i : Instr} : formPd w c = .ok i ↔
    ∃ d, wordR (opField w) (indexBits d) 0 0 = w ∧ c d = i := by
  simp only [formPd, bind_eq_ok_iff, mustBeZero_eq_ok_iff, pure_eq_ok_iff, pIndex_eq_ok_iff, wordR_eq_iff]
  grind

theorem formPa_eq_ok_iff {w : Word} {c : Fin 4 → Instr} {i : Instr} : formPa w c = .ok i ↔
    ∃ a, wordR (opField w) 0 (indexBits a) 0 = w ∧ c a = i := by
  simp only [formPa, bind_eq_ok_iff, mustBeZero_eq_ok_iff, pure_eq_ok_iff, pIndex_eq_ok_iff, wordR_eq_iff]
  grind

theorem formFP_eq_ok_iff {w : Word} {c : Fin 16 → Fin 4 → Instr} {i : Instr} : formFP w c = .ok i ↔
    ∃ d a, wordR (opField w) (indexBits d) (indexBits a) 0 = w ∧ c d a = i := by
  simp only [formFP, bind_eq_ok_iff, mustBeZero_eq_ok_iff, pure_eq_ok_iff, pIndex_eq_ok_iff, wordR_eq_iff,
    eq_indexBits_iff]
  grind

theorem formPFF_eq_ok_iff {w : Word} {c : Fin 4 → Fin 16 → Fin 16 → Instr} {i : Instr} : formPFF w c = .ok i ↔
    ∃ d a b, wordR (opField w) (indexBits d) (indexBits a) (indexBits b) = w ∧ c d a b = i := by
  simp only [formPFF, bind_eq_ok_iff, mustBeZero_eq_ok_iff, pure_eq_ok_iff, pIndex_eq_ok_iff, wordR_eq_iff,
    eq_indexBits_iff]
  grind

theorem formPFP_eq_ok_iff {w : Word} {c : Fin 4 → Fin 16 → Fin 4 → Instr} {i : Instr} : formPFP w c = .ok i ↔
    ∃ d a b, wordR (opField w) (indexBits d) (indexBits a) (indexBits b) = w ∧ c d a b = i := by
  simp only [formPFP, bind_eq_ok_iff, mustBeZero_eq_ok_iff, pure_eq_ok_iff, pIndex_eq_ok_iff, wordR_eq_iff,
    eq_indexBits_iff]
  grind

theorem formRRR_eq_ok_iff {w : Word} {c : Fin 8 → Fin 8 → Fin 8 → Instr} {i : Instr} : formRRR w c = .ok i ↔
    ∃ d a b, wordR (opField w) (indexBits d) (indexBits a) (indexBits b) = w ∧ c d a b = i := by
  simp only [formRRR, bind_eq_ok_iff, mustBeZero_eq_ok_iff, pure_eq_ok_iff, rIndex_eq_ok_iff, wordR_eq_iff]
  grind

theorem formRR_eq_ok_iff {w : Word} {c : Fin 8 → Fin 8 → Instr} {i : Instr} : formRR w c = .ok i ↔
    ∃ d a, wordR (opField w) (indexBits d) (indexBits a) 0 = w ∧ c d a = i := by
  simp only [formRR, bind_eq_ok_iff, mustBeZero_eq_ok_iff, pure_eq_ok_iff, rIndex_eq_ok_iff, wordR_eq_iff]
  grind

theorem formFM_eq_ok_iff {w : Word} {c : Fin 16 → Imm16 → Instr} {i : Instr} : formFM w c = .ok i ↔
    ∃ r imm, wordM (opField w) (indexBits r) 0 imm = w ∧ c r imm = i := by
  simp only [formFM, bind_eq_ok_iff, mustBeZero_eq_ok_iff, pure_eq_ok_iff, wordM_eq_iff, eq_indexBits_iff]
  grind

theorem formPM_eq_ok_iff {w : Word} {c : Fin 4 → Imm16 → Instr} {i : Instr} : formPM w c = .ok i ↔
    ∃ r imm, wordM (opField w) (indexBits r) 0 imm = w ∧ c r imm = i := by
  simp only [formPM, bind_eq_ok_iff, mustBeZero_eq_ok_iff, pure_eq_ok_iff, wordM_eq_iff, pIndex_eq_ok_iff]
  grind

theorem formRM_eq_ok_iff {w : Word} {c : Fin 8 → Imm16 → Instr} {i : Instr} : formRM w c = .ok i ↔
    ∃ r imm, wordM (opField w) (indexBits r) 0 imm = w ∧ c r imm = i := by
  simp only [formRM, bind_eq_ok_iff, mustBeZero_eq_ok_iff, pure_eq_ok_iff, wordM_eq_iff, rIndex_eq_ok_iff]
  grind

theorem formS_eq_ok_iff {w : Word} {c : Imm16 → Instr} {i : Instr} : formS w c = .ok i ↔
    ∃ imm, wordM (opField w) 0 0 imm = w ∧ c imm = i := by
  simp only [formS, bind_eq_ok_iff, mustBeZero_eq_ok_iff, pure_eq_ok_iff, wordM_eq_iff]
  grind

theorem formRxM_eq_ok_iff {w : Word} {legal : Fin 16 → Bool} {c : Fin 8 → Fin 16 → Imm16 → Instr} {i : Instr} :
    formRxM w legal c = .ok i ↔
      ∃ r x imm, wordM (opField w) (indexBits r) (indexBits x) imm = w ∧ legal x = true ∧ c r x imm = i := by
  simp only [formRxM, bind_eq_ok_iff, checked_eq_ok_iff, rIndex_eq_ok_iff, wordM_eq_iff, eq_indexBits_iff]
  grind

theorem formRabM_eq_ok_iff {w : Word} {c : Fin 8 → Fin 4 → Fin 4 → Imm16 → Instr} {i : Instr} : formRabM w c = .ok i ↔
    ∃ r a b imm, wordM (opField w) (indexBits r) (BitVec.ofFin a ++ BitVec.ofFin b : BitVec (2 + 2)) imm = w ∧
      c r a b imm = i := by
  simp only [formRabM, bind_eq_ok_iff, rIndex_eq_ok_iff, pure_eq_ok_iff, wordM_eq_iff, eq_append_iff]
  grind

/-! ### The decoder undoes the encoder (R102) -/

theorem decode_encode (i : Instr) (h : i.wellFormed = true) : decode (encode i) = .ok i := by
  cases i with
  | nop | zeroize | ecdhKeygen | ecdhSecret | kybKeygen | kybEncaps | kybDecaps =>
    simp [encode, decode_nop, decode_zeroize, decode_ecdhKeygen, decode_ecdhSecret, decode_kybKeygen,
      decode_kybEncaps, decode_kybDecaps, formN_eq_ok_iff]
  | fadd | fsub | fmont | fredw =>
    simp [encode, decode_fadd, decode_fsub, decode_fmont, decode_fredw, formFFF_eq_ok_iff]
  | fred | finv | ftom | ffrom | fmov | sred =>
    simp [encode, decode_fred, decode_finv, decode_ftom, decode_ffrom, decode_fmov, decode_sred, formFF_eq_ok_iff]
  | fld | fst => simp [encode, decode_fld, decode_fst, formFM_eq_ok_iff]
  | pld | pst => simp [encode, decode_pld, decode_pst, formPM_eq_ok_iff]
  | pmov | pdbl => simp [encode, decode_pmov, decode_pdbl, formPP_eq_ok_iff]
  | pbase | pinf => simp [encode, decode_pbase, decode_pinf, formPd_eq_ok_iff]
  | pvalid => simp [encode, decode_pvalid, formPa_eq_ok_iff]
  | padd => simp [encode, decode_padd, formPPP_eq_ok_iff]
  | pgetx | pgety => simp [encode, decode_pgetx, decode_pgety, formFP_eq_ok_iff]
  | pset => simp [encode, decode_pset, formPFF_eq_ok_iff]
  | smul => simp [encode, decode_smul, formPFP_eq_ok_iff]
  | rld | rst => simp [encode, decode_rld, decode_rst, formRM_eq_ok_iff]
  | rmov | ntt | intt => simp [encode, decode_rmov, decode_ntt, decode_intt, formRR_eq_ok_iff]
  | radd | rsub | pwmul | polymul =>
    simp [encode, decode_radd, decode_rsub, decode_pwmul, decode_polymul, formRRR_eq_ok_iff]
  | cbd _ x _ =>
    have hx : legalEta x = true := h
    simp [encode, decode_cbd, formRxM_eq_ok_iff, hx]
  | rcomp _ x _ | rdecomp _ x _ =>
    have hx : legalBits x = true := h
    simp [encode, decode_rcomp, decode_rdecomp, formRxM_eq_ok_iff, hx]
  | sampleu => simp [encode, decode_sampleu, formRabM_eq_ok_iff]
  | kybInit => simp [encode, decode_kybInit, formS_eq_ok_iff]

/-! ### Which words select a row, field by field (R97) -/

theorem word_eq_iff_fieldsR (w v : Word) : w = v ↔ opField w = opField v ∧ lowField w = lowField v ∧
    rbField w = rbField v ∧ raField w = raField v ∧ rdField w = rdField v := by
  constructor
  · rintro rfl
    simp
  · rintro ⟨hop, hlow, hb, ha, hd⟩
    rw [word_eq_wordN w, nField_eq_wordR w, hop, hlow, hb, ha, hd, ← nField_eq_wordR, ← word_eq_wordN]

theorem word_eq_iff_fieldsM (w v : Word) : w = v ↔ opField w = opField v ∧ raField w = raField v ∧
    rdField w = rdField v ∧ immField w = immField v := by
  constructor
  · rintro rfl
    simp
  · rintro ⟨hop, hx, hr, himm⟩
    rw [← wordM_fields w, hop, hx, hr, himm, wordM_fields]

/-! Each field of a masked word is the field masked. -/

section Masks

variable (w m : Word)

@[simp] theorem opField_and : opField (w &&& m) = opField w &&& opField m := BitVec.extractLsb'_and ..
@[simp] theorem rdField_and : rdField (w &&& m) = rdField w &&& rdField m := BitVec.extractLsb'_and ..
@[simp] theorem raField_and : raField (w &&& m) = raField w &&& raField m := BitVec.extractLsb'_and ..
@[simp] theorem rbField_and : rbField (w &&& m) = rbField w &&& rbField m := BitVec.extractLsb'_and ..
@[simp] theorem lowField_and : lowField (w &&& m) = lowField w &&& lowField m := BitVec.extractLsb'_and ..
@[simp] theorem immField_and : immField (w &&& m) = immField w &&& immField m := BitVec.extractLsb'_and ..

end Masks

/-- A row's mask for format R: the opcode, the bits of rd, ra and rb that must be 0, and bits 11:0. -/
def maskR (d a b : BitVec 4) : Word := wordM 0xFF d a (b ++ 0xFFF#12)

section MaskR

variable (d a b : BitVec 4)

@[simp] theorem opField_maskR : opField (maskR d a b) = 0xFF := opField_wordM ..
@[simp] theorem rdField_maskR : rdField (maskR d a b) = d := rdField_wordM ..
@[simp] theorem raField_maskR : raField (maskR d a b) = a := raField_wordM ..

@[simp] theorem rbField_maskR : rbField (maskR d a b) = b := by
  simp only [rbField, maskR, wordM]
  rw [BitVec.extractLsb'_append_eq_of_add_le (by decide), BitVec.extractLsb'_append_eq_of_add_le (by decide),
    BitVec.extractLsb'_append_eq_of_add_le (by decide), BitVec.extractLsb'_append_eq_left]

@[simp] theorem lowField_maskR : lowField (maskR d a b) = 0xFFF#12 := by
  simp only [lowField, maskR, wordM]
  rw [BitVec.extractLsb'_append_eq_of_add_le (by decide), BitVec.extractLsb'_append_eq_of_add_le (by decide),
    BitVec.extractLsb'_append_eq_of_add_le (by decide), BitVec.extractLsb'_append_eq_right]

end MaskR

/-! What a row's mask says of one field: ones keep it, and P and R masks keep what an index has no bit for (R94). -/

theorem and_ones4 (x : BitVec 4) : x &&& 0xF = x := BitVec.and_allOnes

theorem and_ones8 (x : BitVec 8) : x &&& 0xFF#8 = x := BitVec.and_allOnes

theorem and_ones12 (x : BitVec 12) : x &&& 0xFFF#12 = x := BitVec.and_allOnes

theorem exists_pIndex_iff (x : BitVec 4) : (∃ i : Fin 4, x = indexBits i) ↔ x &&& 0xC = 0 := by
  revert x; decide

theorem exists_rIndex_iff (x : BitVec 4) : (∃ i : Fin 8, x = indexBits i) ↔ x &&& 8 = 0 := by
  revert x; decide

theorem selects_maskR_iff (name : String) (op : BitVec 8) (d a b : BitVec 4) (w : Word) :
    Row.selects ⟨name, wordR op 0 0 0, maskR d a b, []⟩ w ↔
      opField w = op ∧ lowField w = 0 ∧ rbField w &&& b = 0 ∧ raField w &&& a = 0 ∧ rdField w &&& d = 0 := by
  rw [Row.selects, word_eq_iff_fieldsR]
  simp [and_ones8, and_ones12]

theorem selects_maskM_iff (name : String) (op : BitVec 8) (r x : BitVec 4) (xs : List Nat) (w : Word) :
    Row.selects ⟨name, wordM op 0 0 0, wordM 0xFF r x 0, xs⟩ w ↔
      opField w = op ∧ raField w &&& x = 0 ∧ rdField w &&& r = 0 ∧ (xs = [] ∨ (raField w).toNat ∈ xs) := by
  rw [Row.selects, ← raField, word_eq_iff_fieldsM]
  simp [and_ones8, and_assoc]

/-! ### The decoder at one row -/

/-- The command i bears the name, its fields are legal, and its word is w. -/
def IsCommand (name : String) (w : Word) (i : Instr) : Prop :=
  encode i = w ∧ i.wellFormed = true ∧ mnemonic i = name

/-- The decoder follows the row: it accepts the words that select the row and no others with its opcode, each as a
command of the row (R97, R98). -/
structure Follows (row : Row) : Prop where
  selects_iff : ∀ w, row.selects w ↔ opField w = opField row.bits ∧ ∃ i, decode w = .ok i
  isCommand : ∀ {w i}, opField w = opField row.bits → decode w = .ok i → IsCommand row.mnemonic w i

/-- A row whose opcode the decoder hands to a form follows from what the form accepts: the words that select the row,
each the word of a command of the row (as a function of the opcode, `word`). -/
theorem Follows.of_form {row : Row} {op : BitVec 8} {form : Word → Except Illegal Instr} (hbits : opField row.bits = op)
    (hd : ∀ {w}, opField w = op → decode w = form w)
    (hs : ∀ w, row.selects w ↔ opField w = op ∧ ∃ i, form w = .ok i)
    (hc : ∀ {w i}, form w = .ok i → ∃ word : BitVec 8 → Word, word (opField w) = w ∧
      IsCommand row.mnemonic (word op) i) : Follows row := by
  subst hbits
  refine ⟨fun w => (hs w).trans (and_congr_right fun hop => by rw [hd hop]), fun {w i} hop h => ?_⟩
  obtain ⟨word, hw, hi⟩ := hc (hd hop ▸ h)
  rw [← hop, hw] at hi
  exact hi

/-! One lemma a format: the words that pass its checks are the words its rows' mask selects. -/

section Formats

variable {name : String} {op : BitVec 8}

theorem Follows.formN {c : Instr} (hd : ∀ {w}, opField w = op → decode w = formN w c)
    (hc : IsCommand name (wordN op) c) : Follows ⟨name, wordR op 0 0 0, maskR 0xF 0xF 0xF, []⟩ := by
  refine .of_form (opField_wordR ..) hd (fun w => ?_) fun h => ?_
  · simp only [selects_maskR_iff, formN_eq_ok_iff, wordN_eq_wordR, wordR_eq_iff, and_ones4]
    grind
  · obtain ⟨hw, rfl⟩ := formN_eq_ok_iff.1 h
    exact ⟨wordN, hw, hc⟩

theorem Follows.formFFF {c : Fin 16 → Fin 16 → Fin 16 → Instr} (hd : ∀ {w}, opField w = op → decode w = formFFF w c)
    (hc : ∀ d a b, IsCommand name (wordR op (indexBits d) (indexBits a) (indexBits b)) (c d a b)) :
    Follows ⟨name, wordR op 0 0 0, maskR 0 0 0, []⟩ := by
  refine .of_form (opField_wordR ..) hd (fun w => ?_) fun h => ?_
  · simp only [selects_maskR_iff, formFFF_eq_ok_iff, wordR_eq_iff, eq_indexBits_iff]
    grind
  · obtain ⟨d, a, b, hw, rfl⟩ := formFFF_eq_ok_iff.1 h
    exact ⟨(wordR · _ _ _), hw, hc d a b⟩

theorem Follows.formFF {c : Fin 16 → Fin 16 → Instr} (hd : ∀ {w}, opField w = op → decode w = formFF w c)
    (hc : ∀ d a, IsCommand name (wordR op (indexBits d) (indexBits a) 0) (c d a)) :
    Follows ⟨name, wordR op 0 0 0, maskR 0 0 0xF, []⟩ := by
  refine .of_form (opField_wordR ..) hd (fun w => ?_) fun h => ?_
  · simp only [selects_maskR_iff, formFF_eq_ok_iff, wordR_eq_iff, eq_indexBits_iff, and_ones4]
    grind
  · obtain ⟨d, a, hw, rfl⟩ := formFF_eq_ok_iff.1 h
    exact ⟨(wordR · _ _ _), hw, hc d a⟩

theorem Follows.formPPP {c : Fin 4 → Fin 4 → Fin 4 → Instr} (hd : ∀ {w}, opField w = op → decode w = formPPP w c)
    (hc : ∀ d a b, IsCommand name (wordR op (indexBits d) (indexBits a) (indexBits b)) (c d a b)) :
    Follows ⟨name, wordR op 0 0 0, maskR 0xC 0xC 0xC, []⟩ := by
  refine .of_form (opField_wordR ..) hd (fun w => ?_) fun h => ?_
  · simp only [selects_maskR_iff, formPPP_eq_ok_iff, wordR_eq_iff, ← exists_pIndex_iff]
    grind
  · obtain ⟨d, a, b, hw, rfl⟩ := formPPP_eq_ok_iff.1 h
    exact ⟨(wordR · _ _ _), hw, hc d a b⟩

theorem Follows.formPP {c : Fin 4 → Fin 4 → Instr} (hd : ∀ {w}, opField w = op → decode w = formPP w c)
    (hc : ∀ d a, IsCommand name (wordR op (indexBits d) (indexBits a) 0) (c d a)) :
    Follows ⟨name, wordR op 0 0 0, maskR 0xC 0xC 0xF, []⟩ := by
  refine .of_form (opField_wordR ..) hd (fun w => ?_) fun h => ?_
  · simp only [selects_maskR_iff, formPP_eq_ok_iff, wordR_eq_iff, ← exists_pIndex_iff, and_ones4]
    grind
  · obtain ⟨d, a, hw, rfl⟩ := formPP_eq_ok_iff.1 h
    exact ⟨(wordR · _ _ _), hw, hc d a⟩

theorem Follows.formPd {c : Fin 4 → Instr} (hd : ∀ {w}, opField w = op → decode w = formPd w c)
    (hc : ∀ d, IsCommand name (wordR op (indexBits d) 0 0) (c d)) :
    Follows ⟨name, wordR op 0 0 0, maskR 0xC 0xF 0xF, []⟩ := by
  refine .of_form (opField_wordR ..) hd (fun w => ?_) fun h => ?_
  · simp only [selects_maskR_iff, formPd_eq_ok_iff, wordR_eq_iff, ← exists_pIndex_iff, and_ones4]
    grind
  · obtain ⟨d, hw, rfl⟩ := formPd_eq_ok_iff.1 h
    exact ⟨(wordR · _ _ _), hw, hc d⟩

theorem Follows.formPa {c : Fin 4 → Instr} (hd : ∀ {w}, opField w = op → decode w = formPa w c)
    (hc : ∀ a, IsCommand name (wordR op 0 (indexBits a) 0) (c a)) :
    Follows ⟨name, wordR op 0 0 0, maskR 0xF 0xC 0xF, []⟩ := by
  refine .of_form (opField_wordR ..) hd (fun w => ?_) fun h => ?_
  · simp only [selects_maskR_iff, formPa_eq_ok_iff, wordR_eq_iff, ← exists_pIndex_iff, and_ones4]
    grind
  · obtain ⟨a, hw, rfl⟩ := formPa_eq_ok_iff.1 h
    exact ⟨(wordR · _ _ _), hw, hc a⟩

theorem Follows.formFP {c : Fin 16 → Fin 4 → Instr} (hd : ∀ {w}, opField w = op → decode w = formFP w c)
    (hc : ∀ d a, IsCommand name (wordR op (indexBits d) (indexBits a) 0) (c d a)) :
    Follows ⟨name, wordR op 0 0 0, maskR 0 0xC 0xF, []⟩ := by
  refine .of_form (opField_wordR ..) hd (fun w => ?_) fun h => ?_
  · simp only [selects_maskR_iff, formFP_eq_ok_iff, wordR_eq_iff, ← exists_pIndex_iff, eq_indexBits_iff, and_ones4]
    grind
  · obtain ⟨d, a, hw, rfl⟩ := formFP_eq_ok_iff.1 h
    exact ⟨(wordR · _ _ _), hw, hc d a⟩

theorem Follows.formPFF {c : Fin 4 → Fin 16 → Fin 16 → Instr} (hd : ∀ {w}, opField w = op → decode w = formPFF w c)
    (hc : ∀ d a b, IsCommand name (wordR op (indexBits d) (indexBits a) (indexBits b)) (c d a b)) :
    Follows ⟨name, wordR op 0 0 0, maskR 0xC 0 0, []⟩ := by
  refine .of_form (opField_wordR ..) hd (fun w => ?_) fun h => ?_
  · simp only [selects_maskR_iff, formPFF_eq_ok_iff, wordR_eq_iff, ← exists_pIndex_iff, eq_indexBits_iff]
    grind
  · obtain ⟨d, a, b, hw, rfl⟩ := formPFF_eq_ok_iff.1 h
    exact ⟨(wordR · _ _ _), hw, hc d a b⟩

theorem Follows.formPFP {c : Fin 4 → Fin 16 → Fin 4 → Instr} (hd : ∀ {w}, opField w = op → decode w = formPFP w c)
    (hc : ∀ d a b, IsCommand name (wordR op (indexBits d) (indexBits a) (indexBits b)) (c d a b)) :
    Follows ⟨name, wordR op 0 0 0, maskR 0xC 0 0xC, []⟩ := by
  refine .of_form (opField_wordR ..) hd (fun w => ?_) fun h => ?_
  · simp only [selects_maskR_iff, formPFP_eq_ok_iff, wordR_eq_iff, ← exists_pIndex_iff, eq_indexBits_iff]
    grind
  · obtain ⟨d, a, b, hw, rfl⟩ := formPFP_eq_ok_iff.1 h
    exact ⟨(wordR · _ _ _), hw, hc d a b⟩

theorem Follows.formRRR {c : Fin 8 → Fin 8 → Fin 8 → Instr} (hd : ∀ {w}, opField w = op → decode w = formRRR w c)
    (hc : ∀ d a b, IsCommand name (wordR op (indexBits d) (indexBits a) (indexBits b)) (c d a b)) :
    Follows ⟨name, wordR op 0 0 0, maskR 8 8 8, []⟩ := by
  refine .of_form (opField_wordR ..) hd (fun w => ?_) fun h => ?_
  · simp only [selects_maskR_iff, formRRR_eq_ok_iff, wordR_eq_iff, ← exists_rIndex_iff]
    grind
  · obtain ⟨d, a, b, hw, rfl⟩ := formRRR_eq_ok_iff.1 h
    exact ⟨(wordR · _ _ _), hw, hc d a b⟩

theorem Follows.formRR {c : Fin 8 → Fin 8 → Instr} (hd : ∀ {w}, opField w = op → decode w = formRR w c)
    (hc : ∀ d a, IsCommand name (wordR op (indexBits d) (indexBits a) 0) (c d a)) :
    Follows ⟨name, wordR op 0 0 0, maskR 8 8 0xF, []⟩ := by
  refine .of_form (opField_wordR ..) hd (fun w => ?_) fun h => ?_
  · simp only [selects_maskR_iff, formRR_eq_ok_iff, wordR_eq_iff, ← exists_rIndex_iff, and_ones4]
    grind
  · obtain ⟨d, a, hw, rfl⟩ := formRR_eq_ok_iff.1 h
    exact ⟨(wordR · _ _ _), hw, hc d a⟩

theorem Follows.formFM {c : Fin 16 → Imm16 → Instr} (hd : ∀ {w}, opField w = op → decode w = formFM w c)
    (hc : ∀ r imm, IsCommand name (wordM op (indexBits r) 0 imm) (c r imm)) :
    Follows ⟨name, wordM op 0 0 0, wordM 0xFF 0 0xF 0, []⟩ := by
  refine .of_form (opField_wordM ..) hd (fun w => ?_) fun h => ?_
  · simp only [selects_maskM_iff, formFM_eq_ok_iff, wordM_eq_iff, and_ones4, eq_indexBits_iff]
    grind
  · obtain ⟨r, imm, hw, rfl⟩ := formFM_eq_ok_iff.1 h
    exact ⟨(wordM · _ _ _), hw, hc r imm⟩

theorem Follows.formPM {c : Fin 4 → Imm16 → Instr} (hd : ∀ {w}, opField w = op → decode w = formPM w c)
    (hc : ∀ r imm, IsCommand name (wordM op (indexBits r) 0 imm) (c r imm)) :
    Follows ⟨name, wordM op 0 0 0, wordM 0xFF 0xC 0xF 0, []⟩ := by
  refine .of_form (opField_wordM ..) hd (fun w => ?_) fun h => ?_
  · simp only [selects_maskM_iff, formPM_eq_ok_iff, wordM_eq_iff, ← exists_pIndex_iff, and_ones4]
    grind
  · obtain ⟨r, imm, hw, rfl⟩ := formPM_eq_ok_iff.1 h
    exact ⟨(wordM · _ _ _), hw, hc r imm⟩

theorem Follows.formRM {c : Fin 8 → Imm16 → Instr} (hd : ∀ {w}, opField w = op → decode w = formRM w c)
    (hc : ∀ r imm, IsCommand name (wordM op (indexBits r) 0 imm) (c r imm)) :
    Follows ⟨name, wordM op 0 0 0, wordM 0xFF 8 0xF 0, []⟩ := by
  refine .of_form (opField_wordM ..) hd (fun w => ?_) fun h => ?_
  · simp only [selects_maskM_iff, formRM_eq_ok_iff, wordM_eq_iff, ← exists_rIndex_iff, and_ones4]
    grind
  · obtain ⟨r, imm, hw, rfl⟩ := formRM_eq_ok_iff.1 h
    exact ⟨(wordM · _ _ _), hw, hc r imm⟩

theorem Follows.formS {c : Imm16 → Instr} (hd : ∀ {w}, opField w = op → decode w = formS w c)
    (hc : ∀ imm, IsCommand name (wordM op 0 0 imm) (c imm)) :
    Follows ⟨name, wordM op 0 0 0, wordM 0xFF 0xF 0xF 0, []⟩ := by
  refine .of_form (opField_wordM ..) hd (fun w => ?_) fun h => ?_
  · simp only [selects_maskM_iff, formS_eq_ok_iff, wordM_eq_iff, and_ones4]
    grind
  · obtain ⟨imm, hw, rfl⟩ := formS_eq_ok_iff.1 h
    exact ⟨(wordM · _ _ _), hw, hc imm⟩

theorem Follows.formRxM {legal : Fin 16 → Bool} {xs : List Nat} {c : Fin 8 → Fin 16 → Imm16 → Instr}
    (hd : ∀ {w}, opField w = op → decode w = formRxM w legal c)
    (hx : xs ≠ [] ∧ ∀ x : BitVec 4, legal (fIndex x) = true ↔ x.toNat ∈ xs)
    (hc : ∀ r x imm, legal x = true → IsCommand name (wordM op (indexBits r) (indexBits x) imm) (c r x imm)) :
    Follows ⟨name, wordM op 0 0 0, wordM 0xFF 8 0 0, xs⟩ := by
  refine .of_form (opField_wordM ..) hd (fun w => ?_) fun h => ?_
  · simp only [selects_maskM_iff, formRxM_eq_ok_iff, wordM_eq_iff, ← exists_rIndex_iff, eq_indexBits_iff, ← hx.2]
    grind
  · obtain ⟨r, x, imm, hw, hl, rfl⟩ := formRxM_eq_ok_iff.1 h
    exact ⟨(wordM · _ _ _), hw, hc r x imm hl⟩

theorem Follows.formRabM {c : Fin 8 → Fin 4 → Fin 4 → Imm16 → Instr}
    (hd : ∀ {w}, opField w = op → decode w = formRabM w c)
    (hc : ∀ r a b imm, IsCommand name
      (wordM op (indexBits r) (BitVec.ofFin a ++ BitVec.ofFin b : BitVec (2 + 2)) imm) (c r a b imm)) :
    Follows ⟨name, wordM op 0 0 0, wordM 0xFF 8 0 0, []⟩ := by
  refine .of_form (opField_wordM ..) hd (fun w => ?_) fun h => ?_
  · simp only [selects_maskM_iff, formRabM_eq_ok_iff, wordM_eq_iff, ← exists_rIndex_iff, eq_append_iff]
    grind
  · obtain ⟨r, a, b, imm, hw, rfl⟩ := formRabM_eq_ok_iff.1 h
    exact ⟨(wordM · _ _ _), hw, hc r a b imm⟩

end Formats

/-! ### The decoder over the table (R97, R98) -/

/-- Row by row, with its arm of the decoder (`decode_fadd` and the like) and its format. -/
theorem rows_follow : ∀ row ∈ rows, Follows row := by
  simp only [rows, List.cons_append, List.nil_append, List.forall_mem_cons]
  exact ⟨.formN decode_nop ⟨rfl, rfl, rfl⟩,
    .formN decode_zeroize ⟨rfl, rfl, rfl⟩,
    .formFFF decode_fadd fun _ _ _ => ⟨rfl, rfl, rfl⟩,
    .formFFF decode_fsub fun _ _ _ => ⟨rfl, rfl, rfl⟩,
    .formFFF decode_fmont fun _ _ _ => ⟨rfl, rfl, rfl⟩,
    .formFF decode_fred fun _ _ => ⟨rfl, rfl, rfl⟩,
    .formFFF decode_fredw fun _ _ _ => ⟨rfl, rfl, rfl⟩,
    .formFF decode_finv fun _ _ => ⟨rfl, rfl, rfl⟩,
    .formFF decode_ftom fun _ _ => ⟨rfl, rfl, rfl⟩,
    .formFF decode_ffrom fun _ _ => ⟨rfl, rfl, rfl⟩,
    .formFF decode_fmov fun _ _ => ⟨rfl, rfl, rfl⟩,
    .formFM decode_fld fun _ _ => ⟨rfl, rfl, rfl⟩,
    .formFM decode_fst fun _ _ => ⟨rfl, rfl, rfl⟩,
    .formFF decode_sred fun _ _ => ⟨rfl, rfl, rfl⟩,
    .formPM decode_pld fun _ _ => ⟨rfl, rfl, rfl⟩,
    .formPM decode_pst fun _ _ => ⟨rfl, rfl, rfl⟩,
    .formPP decode_pmov fun _ _ => ⟨rfl, rfl, rfl⟩,
    .formPd decode_pbase fun _ => ⟨rfl, rfl, rfl⟩,
    .formPd decode_pinf fun _ => ⟨rfl, rfl, rfl⟩,
    .formPa decode_pvalid fun _ => ⟨rfl, rfl, rfl⟩,
    .formPPP decode_padd fun _ _ _ => ⟨rfl, rfl, rfl⟩,
    .formPP decode_pdbl fun _ _ => ⟨rfl, rfl, rfl⟩,
    .formFP decode_pgetx fun _ _ => ⟨rfl, rfl, rfl⟩,
    .formFP decode_pgety fun _ _ => ⟨rfl, rfl, rfl⟩,
    .formPFF decode_pset fun _ _ _ => ⟨rfl, rfl, rfl⟩,
    .formPFP decode_smul fun _ _ _ => ⟨rfl, rfl, rfl⟩,
    .formN decode_ecdhKeygen ⟨rfl, rfl, rfl⟩,
    .formN decode_ecdhSecret ⟨rfl, rfl, rfl⟩,
    .formRM decode_rld fun _ _ => ⟨rfl, rfl, rfl⟩,
    .formRM decode_rst fun _ _ => ⟨rfl, rfl, rfl⟩,
    .formRR decode_rmov fun _ _ => ⟨rfl, rfl, rfl⟩,
    .formRRR decode_radd fun _ _ _ => ⟨rfl, rfl, rfl⟩,
    .formRRR decode_rsub fun _ _ _ => ⟨rfl, rfl, rfl⟩,
    .formRR decode_ntt fun _ _ => ⟨rfl, rfl, rfl⟩,
    .formRR decode_intt fun _ _ => ⟨rfl, rfl, rfl⟩,
    .formRRR decode_pwmul fun _ _ _ => ⟨rfl, rfl, rfl⟩,
    .formRRR decode_polymul fun _ _ _ => ⟨rfl, rfl, rfl⟩,
    .formRxM decode_cbd (by decide) fun _ _ _ h => ⟨rfl, h, rfl⟩,
    .formRabM decode_sampleu fun _ _ _ _ => ⟨rfl, rfl, rfl⟩,
    .formRxM decode_rcomp (by decide) fun _ _ _ h => ⟨rfl, h, rfl⟩,
    .formRxM decode_rdecomp (by decide) fun _ _ _ h => ⟨rfl, h, rfl⟩,
    .formS decode_kybInit fun _ => ⟨rfl, rfl, rfl⟩,
    .formN decode_kybKeygen ⟨rfl, rfl, rfl⟩,
    .formN decode_kybEncaps ⟨rfl, rfl, rfl⟩,
    .formN decode_kybDecaps ⟨rfl, rfl, rfl⟩,
    fun _ h => nomatch h⟩

/-- Every opcode the decoder knows is that of a row. -/
theorem opField_listed {w : Word} {i : Instr} (h : decode w = .ok i) : ∃ row ∈ rows, opField w = opField row.bits := by
  suffices ∃ row ∈ rows, (opField w).toNat = (opField row.bits).toNat by
    simpa only [BitVec.toNat_inj] using this
  rw [decode] at h
  split at h
  case h_46 => cases h -- the arm of every other opcode
  all_goals
    rename_i hop
    rw [hop]
    decide

theorem isCommand_of_decode {w : Word} {i : Instr} (h : decode w = .ok i) :
    ∃ row ∈ rows, row.selects w ∧ IsCommand row.mnemonic w i := by
  obtain ⟨row, hrow, hop⟩ := opField_listed h
  have hf := rows_follow row hrow
  exact ⟨row, hrow, (hf.selects_iff w).2 ⟨hop, i, h⟩, hf.isCommand hop h⟩

end Sys2Proof

namespace Sys2Proof.Machine

/-- The core's move at an illegal word (R98). -/
theorem coreMove_of_illegal {s : State} {e : Illegal} (hb : s.status.busy = true) (hq : s.engine.entReq = none)
    (hd : decode s.cmd = .error e) : coreMove s = raise .illegalCmd s := by
  rw [coreMove, if_pos (running_of_busy hb hq), runCommand, hd]

end Sys2Proof.Machine

namespace Sys2Proof.EncodingClaims

open Sys2Proof.Machine

/-- Settles O1: an encoded word has its command's opcode, and its fields pass the format's checks (`decode_encode`). -/
theorem decodeOfEncodeIsTheCommand : Obligations.DecodeOfEncodeIsTheCommand :=
  decode_encode

/-- Settles O2: the word is that of a command of the row it selects (`isCommand_of_decode`). -/
theorem encodeOfDecodeIsTheWord : Obligations.EncodeOfDecodeIsTheWord := by
  intro w i h
  obtain ⟨_, _, _, hw, hlegal, _⟩ := isCommand_of_decode h
  exact ⟨hw, hlegal⟩

/-- Settles O3: the decoder follows every row (`rows_follow`) and knows no other opcode (`opField_listed`). -/
theorem wordIsLegalExactlyWhenATableRowSelectsIt : Obligations.WordIsLegalExactlyWhenATableRowSelectsIt := by
  refine fun w => ⟨fun i h => ?_, fun ⟨row, hrow, hs⟩ => ?_⟩
  · obtain ⟨row, hrow, hs, _, _, hname⟩ := isCommand_of_decode h
    exact ⟨row, hrow, hname.symm, hs⟩
  · obtain ⟨_, hi⟩ := ((rows_follow row hrow).selects_iff w).1 hs
    exact hi

/-- Settles O6: the core's move at an illegal word is a rejection. -/
theorem illegalWordCompletesWithIllegalCmdOnly : Obligations.IllegalWordCompletesWithIllegalCmdOnly := by
  intro s rest e ha hb hq hd
  rw [step_eq_coreMove ha, coreMove_of_illegal (s := { s with agenda := rest }) hb hq hd]
  exact raise_rejected _ _

/-- Settles O4: the decoder run on the 21 words. -/
theorem specWordsDecodeAndIllegalOnesAreRefused : Obligations.SpecWordsDecodeAndIllegalOnesAreRefused := by
  unfold Obligations.SpecWordsDecodeAndIllegalOnesAreRefused
  decide

end Sys2Proof.EncodingClaims
end

section
/-! PROOFS. The statements of 40_field.md: the field commands by their formulas, and the frame of the register files. -/

open Sys2Proof.Claims Sys2Proof.Scope

namespace Sys2Proof.Machine

/-! ### The frame of the register files (R110, R141, R170, R190, R230) -/

/-- F's writers are ZEROIZE and the results in F, each in its own register (R110). -/
theorem Effect.readF_eq {i : Instr} {s t : State} (he : Effect i s t) (hz : isZeroize i = false) {j : Fin 16}
    (hj : destF i ≠ some j) : t.readF j = s.readF j := by
  cases he with
  | erases h => rw [h] at hz; cases hz
  | setsF d v h =>
    have hne : j ≠ d := fun e => hj (e ▸ h)
    exact readF_writeF_ne v s hne
  | _ => rfl

/-- P's writers are ZEROIZE and the results in P, each in its own register (R141). -/
theorem Effect.readP_eq {i : Instr} {s t : State} (he : Effect i s t) (hz : isZeroize i = false) {j : Fin 4}
    (hj : destP i ≠ some j) : t.readP j = s.readP j := by
  cases he with
  | erases h => rw [h] at hz; cases hz
  | setsP d Q h =>
    have hne : j ≠ d := fun e => hj (e ▸ h)
    exact readP_writeP_ne Q s hne
  | _ => rfl

/-- R's writers are ZEROIZE and the results in R, each in its own register (R190). -/
theorem Effect.readR_eq {i : Instr} {s t : State} (he : Effect i s t) (hz : isZeroize i = false) {j : Fin 8}
    (hj : destR i ≠ some j) : t.readR j = s.readR j := by
  cases he with
  | erases h => rw [h] at hz; cases hz
  | setsR d f h =>
    have hne : j ≠ d := fun e => hj (e ▸ h)
    exact readR_writeR_ne f s hne
  | _ => rfl

/-! ### What a field command answers (R110, R123) -/

/-- A FIELD result that fits 256 bits stands in the destination register as it is. -/
theorem finishF_exact (d : Fin 16) (s : State) {v : Nat} (hv : v < 2 ^ 256) :
    ∃ t, finishF d v s = .next t ∧ Completed .success t ∧ (t.readF d).toNat = v ∧
      (t.status.z = true ↔ t.readF d = 0) := by
  obtain ⟨t, ht, hc, hd, hz⟩ := finishF_next d v s
  exact ⟨t, ht, hc, by rw [hd, BitVec.toNat_ofNat, Nat.mod_eq_of_lt hv], hz⟩

/-- One conditional subtraction reduces a register modulo an m of at least 2^255 (R114, R122). -/
theorem natF_mod_eq_ite (s : State) (a : Fin 16) {m : Nat} (hm : 2 ^ 256 ≤ 2 * m) :
    s.natF a % m = if s.natF a < m then s.natF a else s.natF a - m := by
  have hlt : s.natF a < 2 ^ 256 := (s.readF a).isLt
  split
  next hbelow => exact Nat.mod_eq_of_lt hbelow
  next => rw [Nat.mod_eq_sub_mod (by omega), Nat.mod_eq_of_lt (by omega)]

theorem pow_256_le_two_mul_primeP : 2 ^ 256 ≤ 2 * primeP := by decide +kernel

theorem pow_256_le_two_mul_orderN : 2 ^ 256 ≤ 2 * orderN := by decide +kernel

/-- The register's number is the register. -/
theorem ofNat_natF (s : State) (a : Fin 16) : BitVec.ofNat 256 (s.natF a) = s.readF a := by
  rw [State.natF, BitVec.ofNat_toNat, BitVec.setWidth_eq]

theorem execFadd_effect (d a b : Fin 16) (s : State) :
    ∃ t, exec (.fadd d a b) s = .next t ∧ Completed .success t ∧
      (t.readF d).toNat = ((s.readF a).toNat + (s.readF b).toNat) % primeP ∧ (t.status.z = true ↔ t.readF d = 0) :=
  finishF_reduced d s (Nat.mod_lt _ primeP_pos)

theorem execFsub_effect (d a b : Fin 16) (s : State) :
    ∃ t, exec (.fsub d a b) s = .next t ∧ Completed .success t ∧
      ((t.readF d).toNat : Int) = (((s.readF a).toNat : Int) - (s.readF b).toNat) % (primeP : Int) ∧
      (t.status.z = true ↔ t.readF d = 0) := by
  obtain ⟨t, ht, hc, hd, hz⟩ := finishF_reduced d s (modInt_lt ((s.natF a : Int) - s.natF b) primeP_pos)
  refine ⟨t, ht, hc, ?_, hz⟩
  rw [hd]
  exact modInt_cast _ primeP_pos

theorem execFred_effect (d a : Fin 16) (s : State) :
    ∃ t, exec (.fred d a) s = .next t ∧ Completed .success t ∧
      (t.readF d).toNat = (if (s.readF a).toNat < primeP then (s.readF a).toNat else (s.readF a).toNat - primeP) ∧
      (t.status.z = true ↔ t.readF d = 0) := by
  obtain ⟨t, ht, hc, hd, hz⟩ := finishF_reduced d s (Nat.mod_lt (s.natF a) primeP_pos)
  exact ⟨t, ht, hc, hd.trans (natF_mod_eq_ite s a pow_256_le_two_mul_primeP), hz⟩

theorem execFredw_effect (d a b : Fin 16) (s : State) :
    ∃ t, exec (.fredw d a b) s = .next t ∧ Completed .success t ∧
      (t.readF d).toNat = ((s.readF a).toNat * 2 ^ 256 + (s.readF b).toNat) % primeP ∧
      (t.status.z = true ↔ t.readF d = 0) :=
  finishF_reduced d s (Nat.mod_lt _ primeP_pos)

theorem execSred_effect (d a : Fin 16) (s : State) :
    ∃ t, exec (.sred d a) s = .next t ∧ Completed .success t ∧
      (t.readF d).toNat = (if (s.readF a).toNat < orderN then (s.readF a).toNat else (s.readF a).toNat - orderN) ∧
      (t.status.z = true ↔ t.readF d = 0) := by
  have hfits : s.natF a % orderN < 2 ^ 256 := (Nat.mod_le _ _).trans_lt (s.readF a).isLt
  obtain ⟨t, ht, hc, hd, hz⟩ := finishF_exact d s hfits
  exact ⟨t, ht, hc, hd.trans (natF_mod_eq_ite s a pow_256_le_two_mul_orderN), hz⟩

/-! ### The inverse (R116) -/

theorem execFinv_of_multiple (d : Fin 16) {a : Fin 16} {s : State} (h : s.natF a % primeP = 0) :
    exec (.finv d a) s = finishF d 0 s := by
  rw [exec, execFinv, if_pos h]

theorem execFinv_of_unit (d : Fin 16) {a : Fin 16} {s : State} (h : s.natF a % primeP ≠ 0) :
    exec (.finv d a) s = finishF d (invModP (s.natF a % primeP)) s := by
  rw [exec, execFinv, if_neg h]

/-- The inverse of the residue is the inverse of the operand: p is prime (`mul_invModP`). -/
theorem mul_invModP_mod {x : Nat} (h : x % primeP ≠ 0) : x * invModP (x % primeP) % primeP = 1 := by
  rw [← Nat.mod_mul_mod]
  exact mul_invModP (by rwa [Nat.mod_mod])

theorem execFinv_effect_of_multiple (d : Fin 16) {a : Fin 16} {s : State} (h : s.natF a % primeP = 0) :
    ∃ t, exec (.finv d a) s = .next t ∧ Completed .success t ∧ t.readF d = 0 ∧ t.status.z = true := by
  rw [execFinv_of_multiple d h]
  obtain ⟨t, ht, hc, hd, hz⟩ := finishF_next d 0 s
  exact ⟨t, ht, hc, hd, hz.2 hd⟩

/-- A value whose product with the operand is 1 modulo p is not 0, so Z is clear. -/
theorem execFinv_effect_of_unit (d : Fin 16) {a : Fin 16} {s : State} (h : s.natF a % primeP ≠ 0) :
    ∃ t, exec (.finv d a) s = .next t ∧ Completed .success t ∧ 1 ≤ (t.readF d).toNat ∧ (t.readF d).toNat < primeP ∧
      (s.readF a).toNat * (t.readF d).toNat % primeP = 1 ∧ t.status.z = false := by
  rw [execFinv_of_unit d h]
  obtain ⟨t, ht, hc, hd, hz⟩ := finishF_reduced d s (invModP_lt (s.natF a % primeP))
  have hprod : (s.readF a).toNat * (t.readF d).toNat % primeP = 1 := by
    rw [hd]
    exact mul_invModP_mod h
  have hne : t.readF d ≠ 0 := by
    intro h0
    simp [h0] at hprod
  refine ⟨t, ht, hc, ?_, hd ▸ invModP_lt _, hprod, Bool.eq_false_iff.2 (mt hz.1 hne)⟩
  exact Nat.one_le_iff_ne_zero.2 fun h0 => hne (BitVec.eq_of_toNat_eq h0)

/-! ### Moves, loads and stores (R119 to R121) -/

theorem execFmov_effect (d a : Fin 16) (s : State) :
    ∃ t, exec (.fmov d a) s = .next t ∧ Completed .success t ∧ t.readF d = s.readF a ∧
      (t.status.z = true ↔ s.readF a = 0) := by
  have hmov : exec (.fmov d a) s = finishF d (s.natF a) s := by
    rw [exec, execFmov, finishF, ofNat_natF]
  obtain ⟨t, ht, hc, hd, hz⟩ := finishF_next d (s.natF a) s
  rw [ofNat_natF] at hd
  exact ⟨t, hmov.trans ht, hc, hd, hd ▸ hz⟩

/-- The statements' big-endian integer in BUF is that of the bytes MemRead gives (R61). -/
theorem beAt_eq_beNat (s : State) (addr : Nat) : beAt s addr = beNat (memRead s addr 32) := by
  rw [beNat_eq_sum, memRead_length, beAt]
  refine Finset.sum_congr rfl fun i hi => ?_
  have hi' : i < (memRead s addr 32).length := by simpa using hi
  rw [byteAt, List.getD_eq_getElem _ _ hi', memRead_getElem]

theorem execFld_effect (d : Fin 16) {addr : Imm16} (s : State) (h : InBuf addr.toNat 32) :
    ∃ t, exec (.fld d addr) s = .next t ∧ Completed .success t ∧
      (t.readF d).toNat = beAt s addr.toNat ∧ (t.status.z = true ↔ t.readF d = 0) := by
  have hfits : fitsBuf (immAddr addr) 32 = true := (fitsBuf_iff _ _).2 h
  have hlt : beNat (memRead s (immAddr addr) 32) < 2 ^ 256 := by
    simpa using beNat_lt (memRead s (immAddr addr) 32)
  obtain ⟨t, ht, hc, hd, hz⟩ := finishF_exact d s hlt
  refine ⟨t, ?_, hc, hd.trans (beAt_eq_beNat s _).symm, hz⟩
  rw [exec, execFld, hfits]
  exact ht

/-- The 32 bytes of an integer, stored, are that integer in BUF (R61). -/
theorem beAt_of_stored {s t : State} (hwf : s.buf.wf = true) {addr v : Nat} (hv : v < 256 ^ 32)
    (ht : t.buf = (memWrite addr 32 (beBytes v 32) s).buf) : beAt t addr = v := by
  rw [beAt_eq_beNat, memRead_congr ht, memRead_memWrite hwf _ _ _ (beBytes_length v 32), beNat_beBytes hv]

theorem keptOutside_of_stored {s t : State} (hwf : s.buf.wf = true) {a n : Nat} {B : Bytes}
    (ht : t.buf = (memWrite a n B s).buf) : KeptOutside a n s t := by
  intro x hx
  rw [ht, memWrite_read_outside hwf B hx]

theorem natF_lt_bytes (s : State) (a : Fin 16) : s.natF a < 256 ^ 32 :=
  (s.readF a).isLt.trans_eq (by norm_num)

theorem execFst_effect (a : Fin 16) {addr : Imm16} {s : State} (h : InBuf addr.toNat 32) (hwf : s.buf.wf = true) :
    ∃ t, exec (.fst a addr) s = .next t ∧ Completed .success t ∧
      beAt t addr.toNat = (s.readF a).toNat ∧ KeptOutside addr.toNat 32 s t := by
  have hfits : fitsBuf (immAddr addr) 32 = true := (fitsBuf_iff _ _).2 h
  have hrun : exec (.fst a addr) s = succeed (memWrite addr.toNat 32 (beBytes (s.natF a) 32) s) := by
    rw [exec, execFst, hfits]
    rfl
  exact ⟨_, hrun, complete_completed _ _, beAt_of_stored hwf (natF_lt_bytes s a) (complete_buf _ _),
    keptOutside_of_stored hwf (complete_buf _ _)⟩

/-- Where the range passes the end of BUF, FLD only completes with the code (R63, R120). -/
theorem execFld_rejects (d : Fin 16) {addr : Imm16} (s : State) (h : ¬ InBuf addr.toNat 32) :
    ∃ t, exec (.fld d addr) s = .next t ∧ Rejected .badDescriptor s t := by
  have hfits : fitsBuf (immAddr addr) 32 = false := (fitsBuf_eq_false_iff _ _).2 h
  rw [exec, execFld, hfits]
  exact raise_rejected _ _

/-- Where the range passes the end of BUF, FST only completes with the code (R63, R121). -/
theorem execFst_rejects (a : Fin 16) {addr : Imm16} (s : State) (h : ¬ InBuf addr.toNat 32) :
    ∃ t, exec (.fst a addr) s = .next t ∧ Rejected .badDescriptor s t := by
  have hfits : fitsBuf (immAddr addr) 32 = false := (fitsBuf_eq_false_iff _ _).2 h
  rw [exec, execFst, hfits]
  exact raise_rejected _ _

end Sys2Proof.Machine

namespace Sys2Proof.FieldClaims

open Sys2Proof.Machine

/-- Settles O32: 0 for a multiple of p, else the power that Fermat's theorem makes the inverse (`mul_invModP`). -/
theorem fieldInverseInvertsModuloP : Obligations.FieldInverseInvertsModuloP := by
  intro d a s
  by_cases h : (s.readF a).toNat % primeP = 0
  · obtain ⟨t, ht, hc, hzero⟩ := execFinv_effect_of_multiple d h
    exact ⟨t, ht, hc, fun _ => hzero, fun hne => absurd h hne⟩
  · obtain ⟨t, ht, hc, hinv⟩ := execFinv_effect_of_unit d h
    exact ⟨t, ht, hc, fun h0 => absurd h0 h, fun _ => hinv⟩

/-- Settles O23: each register file's writers among the effects of a command. -/
theorem registerFilesChangeOnlyAtTheDestination : Obligations.RegisterFilesChangeOnlyAtTheDestination :=
  fun _ _ _ hz h => ⟨fun _ => (effect_of_exec h).readF_eq hz, fun _ => (effect_of_exec h).readP_eq hz,
    fun _ => (effect_of_exec h).readR_eq hz⟩

/-- Settles O29: both results are residues, which a register holds as they are (`finishF_reduced`). -/
theorem fieldSumAndDifferenceModuloP : Obligations.FieldSumAndDifferenceModuloP :=
  fun d a b s => ⟨execFadd_effect d a b s, execFsub_effect d a b s⟩

/-- Settles O31: a register is below 2p and below 2n, so one subtraction reduces it (`natF_mod_eq_ite`). -/
theorem fieldReducersReduce : Obligations.FieldReducersReduce :=
  fun d a b s => ⟨execFred_effect d a s, execFredw_effect d a b s, execSred_effect d a s⟩

/-- Settles O33: FLD and FST move the integer of the 32 bytes at the address (`beAt_eq_beNat`). -/
theorem fieldMoveLoadAndStore : Obligations.FieldMoveLoadAndStore :=
  fun d a _ s => ⟨execFmov_effect d a s, execFld_effect d s, execFst_effect a,
    fun h => ⟨execFld_rejects d s h, execFst_rejects a s h⟩⟩

end Sys2Proof.FieldClaims
end

section
/-! PROOFS. The statements of 41_point.md: moves, loads and stores of points, PVALID, and the commands that compute on the curve. -/

open Sys2Proof.Claims Sys2Proof.Scope

namespace Sys2Proof.Machine

/-! ### Moves and coordinates (R144 to R146, R150 to R152) -/

theorem execPmov_effect (d a : Fin 4) (s : State) :
    ∃ t, exec (.pmov d a) s = .next t ∧ Completed .success t ∧ t.readP d = s.readP a ∧
      t.status.inf = (s.readP a).inf :=
  finishP_next d (s.readP a) s

theorem execPbase_effect (d : Fin 4) (s : State) :
    ∃ t, exec (.pbase d) s = .next t ∧ Completed .success t ∧ (t.readP d).inf = false ∧
      (t.readP d).x.toNat = baseX ∧ (t.readP d).y.toNat = baseY ∧ t.status.inf = false := by
  obtain ⟨t, ht, hc, hd, hinf⟩ := finishP_next d (Point.ofCurve basePoint) s
  refine ⟨t, ht, hc, ?_⟩
  rw [hd]
  exact ⟨rfl, toNat_ofNat_of_lt_primeP (by decide +kernel), toNat_ofNat_of_lt_primeP (by decide +kernel),
    hinf⟩

theorem execPinf_effect (d : Fin 4) (s : State) :
    ∃ t, exec (.pinf d) s = .next t ∧ Completed .success t ∧ t.readP d = { inf := true, x := 0, y := 0 } ∧
      t.status.inf = true :=
  finishP_next d (Point.ofCurve .inf) s

theorem execPset_effect (d : Fin 4) (x y : Fin 16) (s : State) :
    ∃ t, exec (.pset d x y) s = .next t ∧ Completed .success t ∧
      t.readP d = { inf := false, x := s.readF x, y := s.readF y } ∧ t.status.inf = false :=
  finishP_next d { inf := false, x := s.readF x, y := s.readF y } s

/-- What a 256-bit result in F leaves (R25, R110). -/
theorem succeed_writeF_next (d : Fin 16) (v : U256) (s : State) :
    ∃ t, succeed (writeF d v s) = .next t ∧ Completed .success t ∧ t.readF d = v ∧ (t.status.z = true ↔ v = 0) :=
  ⟨_, rfl, complete_completed _ _, readF_writeF_same d v s, beq_iff_eq⟩

theorem execPgetx_effect (g : Fin 16) (a : Fin 4) (s : State) :
    ∃ t, exec (.pgetx g a) s = .next t ∧ Completed .success t ∧ t.readF g = (s.readP a).x ∧
      (t.status.z = true ↔ (s.readP a).x = 0) :=
  succeed_writeF_next g (s.readP a).x s

theorem execPgety_effect (g : Fin 16) (a : Fin 4) (s : State) :
    ∃ t, exec (.pgety g a) s = .next t ∧ Completed .success t ∧ t.readF g = (s.readP a).y ∧
      (t.status.z = true ↔ (s.readP a).y = 0) :=
  succeed_writeF_next g (s.readP a).y s

/-! ### The 64 bytes of a point (R61) -/

/-- A slice of the bytes MemRead gives is what MemRead gives there. -/
theorem slice_memRead (s : State) (a : Nat) {i j n : Nat} (hj : j ≤ n) :
    slice (memRead s a n) i j = memRead s (a + i) (j - i) := by
  refine List.ext_getElem (by rw [slice_length (by simpa using hj), memRead_length]) fun k _ _ => ?_
  simp [slice, memRead, Nat.add_assoc]

/-- The first 32 of 64 bytes are the integer at the address. -/
theorem beAt_eq_beNat_slice (s : State) (addr : Nat) : beAt s addr = beNat (slice (memRead s addr 64) 0 32) := by
  rw [beAt_eq_beNat, slice_memRead s addr (by decide), Nat.add_zero]

/-- The last 32 of 64 bytes are the integer 32 bytes on. -/
theorem beAt_add_eq_beNat_slice (s : State) (addr : Nat) :
    beAt s (addr + 32) = beNat (slice (memRead s addr 64) 32 64) := by
  rw [beAt_eq_beNat, slice_memRead s addr (by decide)]

/-- The integer of 32 bytes in BUF fits a coordinate. -/
theorem toNat_ofNat_beAt (s : State) (addr : Nat) : (BitVec.ofNat 256 (beAt s addr)).toNat = beAt s addr := by
  have hlt : beAt s addr < 2 ^ 256 := by
    rw [beAt_eq_beNat]
    simpa using beNat_lt (memRead s addr 32)
  rw [BitVec.toNat_ofNat, Nat.mod_eq_of_lt hlt]

/-- The point 64 bytes of BUF encode, by the statements' integers. -/
theorem bytesPoint_memRead (s : State) (addr : Nat) :
    bytesPoint (memRead s addr 64) =
      { inf := false, x := BitVec.ofNat 256 (beAt s addr), y := BitVec.ofNat 256 (beAt s (addr + 32)) } := by
  rw [bytesPoint, ← beAt_eq_beNat_slice, ← beAt_add_eq_beNat_slice]

theorem pointBytes_length (Q : Point) : (pointBytes Q).length = 64 := by
  simp [pointBytes]

theorem beNat_beBytes_toNat (v : U256) : beNat (beBytes v.toNat 32) = v.toNat :=
  beNat_beBytes (v.isLt.trans_eq (by norm_num))

theorem beNat_slice_pointBytes_x (Q : Point) : beNat (slice (pointBytes Q) 0 32) = Q.x.toNat := by
  have hx : slice (pointBytes Q) 0 32 = beBytes Q.x.toNat 32 := by simp [slice, pointBytes]
  rw [hx, beNat_beBytes_toNat]

theorem beNat_slice_pointBytes_y (Q : Point) : beNat (slice (pointBytes Q) 32 64) = Q.y.toNat := by
  have hy : slice (pointBytes Q) 32 64 = beBytes Q.y.toNat 32 := by simp [slice, pointBytes]
  rw [hy, beNat_beBytes_toNat]

/-! ### PLD and PST (R142, R143) -/

theorem execPld_effect (d : Fin 4) {addr : Imm16} (s : State) (h : InBuf addr.toNat 64) :
    ∃ t, exec (.pld d addr) s = .next t ∧ Completed .success t ∧ (t.readP d).inf = false ∧
      (t.readP d).x.toNat = beAt s addr.toNat ∧ (t.readP d).y.toNat = beAt s (addr.toNat + 32) ∧
      t.status.inf = false := by
  have hfits : fitsBuf (immAddr addr) 64 = true := (fitsBuf_iff _ _).2 h
  have hrun : exec (.pld d addr) s = finishP d (bytesPoint (memRead s addr.toNat 64)) s := by
    rw [exec, execPld, hfits]
    rfl
  rw [hrun, bytesPoint_memRead]
  obtain ⟨t, ht, hc, hd, hinf⟩ := finishP_next d
    { inf := false, x := BitVec.ofNat 256 (beAt s addr.toNat), y := BitVec.ofNat 256 (beAt s (addr.toNat + 32)) } s
  exact ⟨t, ht, hc, by rw [hd], by rw [hd, toNat_ofNat_beAt], by rw [hd, toNat_ofNat_beAt], hinf⟩

/-- Where the range passes the end of BUF, PLD only completes with the code (R63, R142). -/
theorem execPld_rejects (d : Fin 4) {addr : Imm16} (s : State) (h : ¬ InBuf addr.toNat 64) :
    ∃ t, exec (.pld d addr) s = .next t ∧ Rejected .badDescriptor s t := by
  have hfits : fitsBuf (immAddr addr) 64 = false := (fitsBuf_eq_false_iff _ _).2 h
  rw [exec, execPld, hfits]
  exact raise_rejected _ _

/-- PST checks the range before INF (R63, R143). -/
theorem execPst_rejects_range (a : Fin 4) {addr : Imm16} (s : State) (h : ¬ InBuf addr.toNat 64) :
    ∃ t, exec (.pst a addr) s = .next t ∧ Rejected .badDescriptor s t := by
  have hfits : fitsBuf (immAddr addr) 64 = false := (fitsBuf_eq_false_iff _ _).2 h
  rw [exec, execPst, hfits]
  exact raise_rejected _ _

/-- INF has no encoding (R143). -/
theorem execPst_rejects_inf {a : Fin 4} {addr : Imm16} {s : State} (h : InBuf addr.toNat 64)
    (hinf : (s.readP a).inf = true) : ∃ t, exec (.pst a addr) s = .next t ∧ Rejected .invalidPubkey s t := by
  have hfits : fitsBuf (immAddr addr) 64 = true := (fitsBuf_iff _ _).2 h
  rw [exec, execPst, hfits, hinf]
  exact raise_rejected _ _

theorem execPst_effect {a : Fin 4} {addr : Imm16} {s : State} (h : InBuf addr.toNat 64)
    (hinf : (s.readP a).inf = false) (hwf : s.buf.wf = true) :
    ∃ t, exec (.pst a addr) s = .next t ∧ Completed .success t ∧
      beAt t addr.toNat = (s.readP a).x.toNat ∧ beAt t (addr.toNat + 32) = (s.readP a).y.toNat ∧
      KeptOutside addr.toNat 64 s t := by
  have hfits : fitsBuf (immAddr addr) 64 = true := (fitsBuf_iff _ _).2 h
  have hrun : exec (.pst a addr) s = succeed (memWrite addr.toNat 64 (pointBytes (s.readP a)) s) := by
    rw [exec, execPst, hfits, hinf]
    rfl
  refine ⟨_, hrun, complete_completed _ _, ?_, ?_, keptOutside_of_stored hwf (complete_buf _ _)⟩
  · rw [beAt_eq_beNat_slice, memRead_congr (complete_buf _ _), memRead_memWrite hwf _ _ _ (pointBytes_length _),
      beNat_slice_pointBytes_x]
  · rw [beAt_add_eq_beNat_slice, memRead_congr (complete_buf _ _), memRead_memWrite hwf _ _ _ (pointBytes_length _),
      beNat_slice_pointBytes_y]

/-! ### PVALID (R140, R147) -/

theorem validPub_iff (Q : Point) : validPub Q = true ↔ Valid Q := by
  rw [valid_iff, validPub, Bool.and_eq_true, Bool.not_eq_true']

/-! ### PADD, PDBL and SMUL (R148, R149, R153) -/

/-- A POINT result's INF flag is that of the register it stands in (R141). -/
theorem finishP_flag (d : Fin 4) (Q : Point) (s : State) :
    ∃ t, finishP d Q s = .next t ∧ Completed .success t ∧ t.readP d = Q ∧ t.status.inf = (t.readP d).inf := by
  obtain ⟨t, ht, hc, hd, hinf⟩ := finishP_next d Q s
  exact ⟨t, ht, hc, hd, hd ▸ hinf⟩

theorem onCurve_eq_false {Q : Point} (h : ¬ OnTheCurve Q) : onCurve Q = false :=
  Bool.eq_false_iff.2 (mt (onTheCurve_iff Q).2 h)

theorem execPadd_effect (d : Fin 4) {a b : Fin 4} {s : State} (ha : OnTheCurve (s.readP a))
    (hb : OnTheCurve (s.readP b)) :
    ∃ t, exec (.padd d a b) s = .next t ∧ Completed .success t ∧
      t.readP d = Point.ofCurve (curveAdd (s.readP a).toCurve (s.readP b).toCurve) ∧
      t.status.inf = (t.readP d).inf := by
  rw [exec, execPadd, (onTheCurve_iff _).1 ha, (onTheCurve_iff _).1 hb]
  exact finishP_flag d _ s

theorem execPadd_rejects (d : Fin 4) {a b : Fin 4} {s : State}
    (h : ¬ (OnTheCurve (s.readP a) ∧ OnTheCurve (s.readP b))) :
    ∃ t, exec (.padd d a b) s = .next t ∧ Rejected .invalidPubkey s t := by
  have hoff : (!onCurve (s.readP a) || !onCurve (s.readP b)) = true := by
    rw [← Bool.not_and, Bool.not_eq_true', Bool.eq_false_iff, Ne, Bool.and_eq_true]
    rwa [onTheCurve_iff, onTheCurve_iff] at h
  rw [exec, execPadd, if_pos hoff]
  exact raise_rejected _ _

/-- The doubler is the adder with both operands the same (R149). -/
theorem exec_pdbl_eq_padd (d a : Fin 4) (s : State) : exec (.pdbl d a) s = exec (.padd d a a) s := by
  simp only [exec, execPdbl, execPadd, Bool.or_self]

theorem smulBits_inf (bits k : Nat) : smulBits .inf bits k = .inf := by
  induction bits generalizing k with
  | zero => rfl
  | succ bits ih =>
    rw [smulBits, ih, smulStep]
    split <;> rfl

theorem smulBits_zero (P : CurvePoint) (bits : Nat) : smulBits P bits 0 = .inf := by
  induction bits with
  | zero => rfl
  | succ bits ih =>
    rw [smulBits, Nat.zero_div, ih]
    rfl

/-- A zero scalar or a point INF gives INF (R153). -/
theorem smul_eq_inf {k : Nat} {Q : Point} (h : k = 0 ∨ Q.inf = true) : smul k Q.toCurve = .inf := by
  rcases h with rfl | hinf
  · exact smulBits_zero _ _
  · rw [Point.toCurve, if_pos hinf]
    exact smulBits_inf _ _

theorem execSmul_effect (d : Fin 4) (k : Fin 16) {b : Fin 4} {s : State} (hb : OnTheCurve (s.readP b)) :
    ∃ t, exec (.smul d k b) s = .next t ∧ Completed .success t ∧
      t.readP d = Point.ofCurve (smul (s.readF k).toNat (s.readP b).toCurve) ∧ t.status.inf = (t.readP d).inf ∧
      (s.readF k = 0 ∨ (s.readP b).inf = true → t.readP d = { inf := true, x := 0, y := 0 }) := by
  rw [exec, execSmul, (onTheCurve_iff _).1 hb]
  obtain ⟨t, ht, hc, hd, hinf⟩ := finishP_flag d (Point.ofCurve (smul (s.natF k) (s.readP b).toCurve)) s
  refine ⟨t, ht, hc, hd, hinf, fun h => ?_⟩
  have hzero : s.natF k = 0 ∨ (s.readP b).inf = true := h.imp_left (congrArg BitVec.toNat)
  rw [hd, smul_eq_inf hzero]
  rfl

/-- The point is checked before the scalar is looked at (R153). -/
theorem execSmul_rejects (d : Fin 4) (k : Fin 16) {b : Fin 4} {s : State} (hb : ¬ OnTheCurve (s.readP b)) :
    ∃ t, exec (.smul d k b) s = .next t ∧ Rejected .invalidPubkey s t := by
  rw [exec, execSmul, onCurve_eq_false hb]
  exact raise_rejected _ _

end Sys2Proof.Machine

namespace Sys2Proof.PointClaims

open Sys2Proof.Machine

/-- Settles O34: a move leaves its point and INF (`finishP_next`); PLD and PST go through the 64 bytes' two slices. -/
theorem pointMovesAndLoadsWriteTheirPoint : Obligations.PointMovesAndLoadsWriteTheirPoint :=
  fun d a g x y _ s => ⟨execPmov_effect d a s, execPbase_effect d s, execPinf_effect d s, execPset_effect d x y s,
    execPgetx_effect g a s, execPgety_effect g a s, execPld_effect d s,
    fun h => ⟨execPld_rejects d s h, execPst_rejects_range a s h⟩, execPst_rejects_inf, execPst_effect⟩

/-- Settles O35: V is `validPub`; with V and INF put back, PVALID has only completed. -/
theorem pointValidationAnswersInTheVFlag : Obligations.PointValidationAnswersInTheVFlag :=
  fun a s => ⟨_, rfl, complete_completed _ _, validPub_iff (s.readP a), rfl, complete_sameData .success s⟩

/-- Settles O36: the curve check decides between the result and the rejection; PDBL is PADD of a point and itself. -/
theorem pointAdditionDoublingAndMultiplicationOnCurve :
    Obligations.PointAdditionDoublingAndMultiplicationOnCurve := by
  intro d a b k s
  rw [exec_pdbl_eq_padd]
  exact ⟨execPadd_effect d, execPadd_rejects d, fun ha => execPadd_effect d ha ha,
    fun ha => execPadd_rejects d fun h => ha h.1, execSmul_effect d k, execSmul_rejects d k⟩

end Sys2Proof.PointClaims
end

section
/-! PROOFS. The statements of 42_ecdh.md: the shared secret, its symmetry, and the key-pair generator. -/

open Sys2Proof.Claims Sys2Proof.Scope

namespace Sys2Proof.Machine

/-! ### The base point and its multiples (R11, R13) -/

theorem affineValid_basePoint : affineValid baseX baseY = true := by decide +kernel

theorem orderN_lt : orderN < 2 ^ 256 := by decide +kernel

theorem primeP_lt_bytes : primeP < 256 ^ 32 := by decide +kernel

theorem orderN_lt_bytes : orderN < 256 ^ 32 := by decide +kernel

/-- n times the base point, by the model's own multiplier (R11). -/
theorem smul_orderN_basePoint : smul orderN basePoint = .inf := by decide +kernel

section Group
variable [Fact (Nat.Prime primeP)]

theorem eq_zero_of_represents_inf {A : weierstrass.toAffine.Point} (h : Represents .inf A) : A = 0 := by
  cases h
  rfl

theorem exists_affine_of_represents {P : CurvePoint} {A : weierstrass.toAffine.Point} (h : Represents P A)
    (hA : A ≠ 0) : ∃ x y, P = .affine x y := by
  cases h with
  | inf => exact absurd rfl hA
  | affine x y => exact ⟨x, y, rfl⟩

/-- The base point stands for a point of order n: n is prime, and n times the point is INF (R11). -/
theorem exists_basePoint_addOrderOf :
    ∃ G : weierstrass.toAffine.Point, Represents basePoint G ∧ addOrderOf G = orderN := by
  have : Fact orderN.Prime := ⟨orderN_prime⟩
  have hG : Represents basePoint (.some _ _ (affineValid_nonsingular affineValid_basePoint)) :=
    .affine _ _ (by decide +kernel) (by decide +kernel) _
  have hn := represents_smulBits hG 256 orderN orderN_lt
  rw [← smul, smul_orderN_basePoint] at hn
  exact ⟨_, hG, addOrderOf_eq_prime (eq_zero_of_represents_inf hn) (WeierstrassCurve.Affine.Point.some_ne_zero _)⟩

/-- A prime order divides no product of two factors in [1, n-1]. -/
theorem mul_nsmul_ne_zero {G : weierstrass.toAffine.Point} (hG : addOrderOf G = orderN) {a b : Nat} (ha : 1 ≤ a)
    (han : a < orderN) (hb : 1 ≤ b) (hbn : b < orderN) : (a * b) • G ≠ 0 := by
  rw [Ne, ← addOrderOf_dvd_iff_nsmul_eq_zero, hG, orderN_prime.dvd_mul]
  exact not_or.2 ⟨Nat.not_dvd_of_pos_of_lt ha han, Nat.not_dvd_of_pos_of_lt hb hbn⟩

end Group

/-- The two parties' shared points are one affine point: both stand for kA * kB times the base point (R173). -/
theorem sharedPoints_agree {kA kB : Nat} (hA : 1 ≤ kA) (hAn : kA < orderN) (hB : 1 ≤ kB) (hBn : kB < orderN) :
    ∃ x y, smul kA (smulSpec kB basePoint) = .affine x y ∧ smul kB (smulSpec kA basePoint) = .affine x y := by
  have : Fact primeP.Prime := ⟨primeP_prime⟩
  obtain ⟨G, hG, hord⟩ := exists_basePoint_addOrderOf
  have hAB := represents_smulBits (represents_smulSpec hG kB) 256 kA (hAn.trans orderN_lt)
  have hBA := represents_smulBits (represents_smulSpec hG kA) 256 kB (hBn.trans orderN_lt)
  rw [← mul_nsmul'] at hAB
  rw [← mul_nsmul] at hBA
  obtain ⟨x, y, hxy⟩ := exists_affine_of_represents hAB (mul_nsmul_ne_zero hord hA hAn hB hBn)
  exact ⟨x, y, hxy, (represents_unique hBA hAB).trans hxy⟩

/-- A result of the multiplier on a valid point has reduced coordinates. -/
theorem smul_x_lt {Q : Point} (hQ : Valid Q) {k x y : Nat} (hk : k < 2 ^ 256) (h : smul k Q.toCurve = .affine x y) :
    x < primeP := by
  have : Fact primeP.Prime := ⟨primeP_prime⟩
  obtain ⟨A, hA⟩ := represents_of_onTheCurve (.inr hQ)
  have hS := represents_smulBits hA 256 k hk
  rw [← smul, h] at hS
  have hvalid := affineValid_of_represents hS
  simp only [affineValid, Bool.and_eq_true, decide_eq_true_iff] at hvalid
  obtain ⟨⟨hx, _⟩, _⟩ := hvalid
  exact hx

/-! ### ECDH_SECRET: the checks, as the statements name them (R172) -/

/-- The three ranges of ECDH_SECRET lie inside BUF (R172 step 1). -/
def SecretInside (s : State) : Prop :=
  InBuf (argNat s 0) (argNat s 1) ∧ InBuf (argNat s 2) (argNat s 3) ∧ InBuf (argNat s 4) (argNat s 5)

/-- The party's own key has its length and lies in [1, n-1] (R172 steps 3 to 5). -/
def SecretPrivOk (s : State) : Prop :=
  argNat s 1 = 32 ∧ 1 ≤ beAt s (argNat s 0) ∧ beAt s (argNat s 0) < orderN

/-- The peer's public key, by the statements' integers (R172 step 7). -/
def secretPeer (s : State) : Point :=
  { inf := false, x := BitVec.ofNat 256 (beAt s (argNat s 2)), y := BitVec.ofNat 256 (beAt s (argNat s 2 + 32)) }

/-- The public key has its length and is valid (R172 steps 6 to 8). -/
def SecretPubOk (s : State) : Prop := argNat s 3 = 64 ∧ Valid (secretPeer s)

theorem ecdhScalar_eq (s : State) : ecdhScalar s = beAt s (argNat s 0) := (beAt_eq_beNat _ _).symm

theorem ecdhPeer_eq (s : State) : ecdhPeer s = secretPeer s := bytesPoint_memRead _ _

theorem secretInside_iff (s : State) : ¬ (!descFits s 0 || !descFits s 1 || !descFits s 2) = true ↔ SecretInside s := by
  rw [← Bool.not_and, ← Bool.not_and, Bool.not_eq_true', Bool.not_eq_false, Bool.and_eq_true, Bool.and_eq_true,
    descFits_iff, descFits_iff, descFits_iff, and_assoc]
  rfl

theorem secretPrivRange_iff (s : State) : ¬ (ecdhScalar s = 0 ∨ orderN ≤ ecdhScalar s) ↔
    1 ≤ beAt s (argNat s 0) ∧ beAt s (argNat s 0) < orderN := by
  rw [ecdhScalar_eq]
  omega

theorem secretPeer_iff (s : State) : ¬ (!validPub (ecdhPeer s)) = true ↔ Valid (secretPeer s) := by
  rw [ecdhPeer_eq, Bool.not_eq_true', Bool.not_eq_false, validPub_iff]

/-! ### ECDH_SECRET: what it answers (R172) -/

theorem execEcdhSecret_rejects_range {s : State} (hout : ¬ SecretInside s) :
    exec .ecdhSecret s = raise .badDescriptor s := by
  rw [exec, execEcdhSecret, if_pos (not_not.1 (mt (secretInside_iff s).1 hout))]

theorem execEcdhSecret_rejects_capacity {s : State} (hin : SecretInside s) (hsmall : descCount s 2 < 32) :
    exec .ecdhSecret s = raise .memoryFail s := by
  rw [exec, execEcdhSecret, if_neg ((secretInside_iff s).2 hin), if_pos hsmall]

section PastTheOutput
variable {s : State} (hin : SecretInside s) (hroom : ¬ descCount s 2 < 32)
include hin hroom

/-- A wrong length and a value out of range have one code (R172 steps 3 to 5). -/
theorem execEcdhSecret_rejects_privkey (hbad : ¬ SecretPrivOk s) : exec .ecdhSecret s = raise .invalidPrivkey s := by
  rw [exec, execEcdhSecret, if_neg ((secretInside_iff s).2 hin), if_neg hroom]
  by_cases hlen : descCount s 0 = 32
  · have hrange := mt (secretPrivRange_iff s).1 fun hr => hbad ⟨hlen, hr⟩
    rw [if_neg (not_not.2 hlen), if_pos (not_not.1 hrange)]
  · rw [if_pos hlen]

variable (hpriv : SecretPrivOk s)
include hpriv

/-- A wrong length and a point that is not valid have one code (R172 steps 6 to 8). -/
theorem execEcdhSecret_rejects_pubkey (hbad : ¬ SecretPubOk s) : exec .ecdhSecret s = raise .invalidPubkey s := by
  obtain ⟨hprivLen, hprivRange⟩ := hpriv
  rw [exec, execEcdhSecret, if_neg ((secretInside_iff s).2 hin), if_neg hroom,
    if_neg (c := descCount s 0 ≠ 32) (not_not.2 hprivLen), if_neg ((secretPrivRange_iff s).2 hprivRange)]
  by_cases hlen : descCount s 1 = 64
  · have hvalid := mt (secretPeer_iff s).1 fun hv => hbad ⟨hlen, hv⟩
    rw [if_neg (not_not.2 hlen), if_pos (not_not.1 hvalid)]
  · rw [if_pos hlen]

theorem execEcdhSecret_succeeds (hpub : SecretPubOk s) {x y : Nat}
    (hS : smul (beAt s (argNat s 0)) (secretPeer s).toCurve = .affine x y) :
    exec .ecdhSecret s = succeed (writeRlen0 32 (memWrite (argNat s 4) 32 (beBytes x 32) s)) := by
  obtain ⟨hprivLen, hprivRange⟩ := hpriv
  obtain ⟨hpubLen, hvalid⟩ := hpub
  have hshared : ecdhShared s = .affine x y := by rw [ecdhShared, ecdhScalar_eq, ecdhPeer_eq, hS]
  rw [exec, execEcdhSecret, if_neg ((secretInside_iff s).2 hin), if_neg hroom,
    if_neg (c := descCount s 0 ≠ 32) (not_not.2 hprivLen), if_neg ((secretPrivRange_iff s).2 hprivRange),
    if_neg (c := descCount s 1 ≠ 64) (not_not.2 hpubLen), if_neg ((secretPeer_iff s).2 hvalid), hshared]
  rfl

/-- With all checks passed: the 32 bytes of the x-coordinate at the output, and RLEN0 (R172 steps 11 to 13). -/
theorem execEcdhSecret_effect (hpub : SecretPubOk s) {x y : Nat}
    (hS : smul (beAt s (argNat s 0)) (secretPeer s).toCurve = .affine x y) (hwf : s.buf.wf = true) :
    ∃ t, exec .ecdhSecret s = .next t ∧ Completed .success t ∧ memRead t (argNat s 4) 32 = beBytes x 32 ∧
      KeptOutside (argNat s 4) 32 s t ∧ t.rlen0 = 32 ∧ t.rlen1 = s.rlen1 := by
  have hbuf := (complete_buf .success _).trans (writeRlen0_buf 32 (memWrite (argNat s 4) 32 (beBytes x 32) s))
  refine ⟨_, execEcdhSecret_succeeds hin hroom hpriv hpub hS, complete_completed _ _, ?_,
    keptOutside_of_stored hwf hbuf, rfl, ?_⟩
  · rw [memRead_congr hbuf, memRead_memWrite hwf _ _ _ (beBytes_length x 32)]
  · rw [complete_rlen1, writeRlen0_rlen1, memWrite_rlen1]

/-- The bytes written are the x-coordinate: it is below p, so 32 bytes hold it. -/
theorem execEcdhSecret_coordinate (hpub : SecretPubOk s) {x y : Nat}
    (hS : smul (beAt s (argNat s 0)) (secretPeer s).toCurve = .affine x y) (hwf : s.buf.wf = true) :
    ∃ t, exec .ecdhSecret s = .next t ∧ Completed .success t ∧ beAt t (argNat s 4) = x ∧
      KeptOutside (argNat s 4) 32 s t ∧ t.rlen0 = 32 ∧ t.rlen1 = s.rlen1 := by
  obtain ⟨t, ht, hc, hbytes, hframe⟩ := execEcdhSecret_effect hin hroom hpriv hpub hS hwf
  obtain ⟨_, _, hkn⟩ := hpriv
  have hx : x < primeP := smul_x_lt hpub.2 (hkn.trans orderN_lt) hS
  refine ⟨t, ht, hc, ?_, hframe⟩
  rw [beAt_eq_beNat, hbytes, beNat_beBytes (hx.trans primeP_lt_bytes)]

end PastTheOutput

/-! ### Two parties (R173) -/

/-- A party's public key, stored at the peer, is a valid point there. -/
theorem secretPeer_of_publicKey {s : State} {k : Nat}
    (h : smulSpec k basePoint = .affine (beAt s (argNat s 2)) (beAt s (argNat s 2 + 32))) :
    Valid (secretPeer s) ∧ (secretPeer s).toCurve = smulSpec k basePoint := by
  have : Fact primeP.Prime := ⟨primeP_prime⟩
  obtain ⟨G, hG, _⟩ := exists_basePoint_addOrderOf
  have hrep := represents_smulSpec hG k
  rw [h, ← toNat_ofNat_beAt s (argNat s 2), ← toNat_ofNat_beAt s (argNat s 2 + 32)] at hrep
  have hvalid : Valid (secretPeer s) := (valid_iff _).2 ⟨rfl, affineValid_of_represents hrep⟩
  refine ⟨hvalid, ?_⟩
  rw [toCurve_of_valid hvalid, h]
  simp only [secretPeer, toNat_ofNat_beAt]

/-- One party's run: its own scalar k against the public key of the scalar k'. -/
theorem ecdhSecret_of_party {s : State} {k k' x y : Nat} (hwf : s.buf.wf = true) (hin : SecretInside s)
    (hprivLen : argNat s 1 = 32) (hpubLen : argNat s 3 = 64) (hroom : 32 ≤ argNat s 5) (hk : 1 ≤ k) (hkn : k < orderN)
    (hkey : beAt s (argNat s 0) = k)
    (hpeer : smulSpec k' basePoint = .affine (beAt s (argNat s 2)) (beAt s (argNat s 2 + 32)))
    (hS : smul k (smulSpec k' basePoint) = .affine x y) :
    ∃ t, exec .ecdhSecret s = .next t ∧ Completed .success t ∧ memRead t (argNat s 4) 32 = beBytes x 32 := by
  obtain ⟨hvalid, hcurve⟩ := secretPeer_of_publicKey hpeer
  subst hkey
  obtain ⟨t, ht, hc, hbytes, _⟩ := execEcdhSecret_effect hin (Nat.not_lt.2 hroom) ⟨hprivLen, hk, hkn⟩
    ⟨hpubLen, hvalid⟩ (hcurve ▸ hS) hwf
  exact ⟨t, ht, hc, hbytes⟩

/-! ### ECDH_KEYGEN: the sampler and the checks (R171, R174) -/

/-- The two ranges of ECDH_KEYGEN lie inside BUF (R171 step 1). -/
def KeygenInside (s : State) : Prop := InBuf (argNat s 0) (argNat s 1) ∧ InBuf (argNat s 2) (argNat s 3)

/-- Both outputs have room (R171 step 2). -/
def KeygenRoom (s : State) : Prop := 32 ≤ argNat s 1 ∧ 64 ≤ argNat s 3

theorem keygenInside_iff (s : State) : ¬ (!descFits s 0 || !descFits s 1) = true ↔ KeygenInside s := by
  rw [← Bool.not_and, Bool.not_eq_true', Bool.not_eq_false, Bool.and_eq_true, descFits_iff, descFits_iff]
  rfl

theorem keygenRoom_iff (s : State) : ¬ (descCount s 0 < 32 ∨ descCount s 1 < 64) ↔ KeygenRoom s := by
  rw [not_or, Nat.not_lt, Nat.not_lt]
  rfl

theorem goodAnswer_32_iff (ans : EntropyAnswer) :
    goodAnswer 32 32 ans = true ↔ ans.status = 0 ∧ ans.count.toNat = 32 := by
  rw [goodAnswer_iff, ← le_antisymm_iff, eq_comm (a := (32 : BitVec 16).toNat)]
  rfl

/-- The sampler takes the whole of a 32-byte answer (R174). -/
theorem scalarOf_eq {ans : EntropyAnswer} (h : ans.count.toNat = 32) :
    scalarOf ans.bytes = beNat ans.bytes % orderN := by
  have hall : slice ans.bytes 0 32 = ans.bytes := List.take_of_length_le (by simp [h])
  rw [scalarOf, hall]

/-- Below 2n, the multiples of n are 0 and n (R174). -/
theorem scalarOf_eq_zero_iff {ans : EntropyAnswer} (h : ans.count.toNat = 32) :
    scalarOf ans.bytes = 0 ↔ beNat ans.bytes = 0 ∨ beNat ans.bytes = orderN := by
  have hlt : beNat ans.bytes < 2 ^ 256 := by simpa [h] using beNat_lt ans.bytes
  have h2 := pow_256_le_two_mul_orderN
  rw [scalarOf_eq h]
  rcases Nat.lt_or_ge (beNat ans.bytes) orderN with hbelow | habove
  · rw [Nat.mod_eq_of_lt hbelow]
    omega
  · rw [Nat.mod_eq_sub_mod habove, Nat.mod_eq_of_lt (by omega)]
    omega

/-! ### ECDH_KEYGEN: what it answers (R171) -/

theorem execEcdhKeygen_rejects_range {s : State} (hout : ¬ KeygenInside s) :
    exec .ecdhKeygen s = raise .badDescriptor s := by
  rw [exec, execEcdhKeygen, if_pos (not_not.1 (mt (keygenInside_iff s).1 hout))]

section KeygenChecks
variable {s : State} (hin : KeygenInside s)
include hin

theorem execEcdhKeygen_rejects_capacity (hsmall : ¬ KeygenRoom s) : exec .ecdhKeygen s = raise .memoryFail s := by
  rw [exec, execEcdhKeygen, if_neg ((keygenInside_iff s).2 hin),
    if_pos (not_not.1 (mt (keygenRoom_iff s).1 hsmall))]

variable (hroom : KeygenRoom s)
include hroom

theorem execEcdhKeygen_asks (hrsp : s.engine.entRsp = none) : exec .ecdhKeygen s = requestEntropy 32 32 s := by
  rw [exec, execEcdhKeygen, if_neg ((keygenInside_iff s).2 hin), if_neg ((keygenRoom_iff s).2 hroom), hrsp]

variable {ans : EntropyAnswer} (hrsp : s.engine.entRsp = some ans)
include hrsp

theorem execEcdhKeygen_rejects_answer (hbad : ¬ (ans.status = 0 ∧ ans.count.toNat = 32)) :
    exec .ecdhKeygen s = raise .entropyFail s := by
  have hgood : goodAnswer 32 32 ans = false := Bool.eq_false_iff.2 (mt (goodAnswer_32_iff ans).1 hbad)
  rw [exec, execEcdhKeygen, if_neg ((keygenInside_iff s).2 hin), if_neg ((keygenRoom_iff s).2 hroom), hrsp]
  simp only [hgood]
  rfl

variable (hstatus : ans.status = 0) (hcount : ans.count.toNat = 32)
include hstatus hcount

/-- A good answer's scalar decides between the redraw and the key pair (R171 steps 6 to 12). -/
theorem execEcdhKeygen_of_answer : exec .ecdhKeygen s =
    if scalarOf ans.bytes = 0 then requestEntropy 32 32 s else succeed (ecdhKeygenWrites (scalarOf ans.bytes) s) := by
  have hgood : goodAnswer 32 32 ans = true := (goodAnswer_32_iff ans).2 ⟨hstatus, hcount⟩
  rw [exec, execEcdhKeygen, if_neg ((keygenInside_iff s).2 hin), if_neg ((keygenRoom_iff s).2 hroom), hrsp]
  simp only [hgood]
  rfl

end KeygenChecks

/-! ### The two outputs (R80, R171) -/

/-- A 32-byte integer outside the range written reads as before. -/
theorem beAt_of_keptOutside {s t : State} {a b n : Nat} (h : KeptOutside b n s t) (hdisj : a + 32 ≤ b ∨ b + n ≤ a) :
    beAt t a = beAt s a := by
  refine Finset.sum_congr rfl fun i hi => ?_
  have hi32 : i < 32 := Finset.mem_range.1 hi
  rw [byteAt, byteAt, h (a + i) (by omega)]

/-- The 64 bytes of a point, stored, are its two coordinates in BUF (R61). -/
theorem beAt_of_storedPoint {s t : State} (hwf : s.buf.wf = true) {a : Nat} {Q : Point}
    (ht : t.buf = (memWrite a 64 (pointBytes Q) s).buf) :
    beAt t a = Q.x.toNat ∧ beAt t (a + 32) = Q.y.toNat := by
  rw [beAt_eq_beNat_slice, beAt_add_eq_beNat_slice, memRead_congr ht,
    memRead_memWrite hwf _ _ _ (pointBytes_length Q), beNat_slice_pointBytes_x, beNat_slice_pointBytes_y]
  exact ⟨rfl, rfl⟩

theorem ecdhKeygenWrites_buf (k : Nat) (s : State) :
    (ecdhKeygenWrites k s).buf = (memWrite (argNat s 2) 64 (pointBytes (Point.ofCurve (smul k basePoint)))
      (memWrite (argNat s 0) 32 (beBytes k 32) s)).buf := by
  rw [ecdhKeygenWrites, writeRlen1_buf, writeRlen0_buf]
  rfl

/-- The public key is written last, so it stands whole; the scalar, written first, stands where the ranges do not meet (R80). -/
theorem ecdhKeygenWrites_effect {s : State} (hwf : s.buf.wf = true) {k : Nat} (hk : k < orderN) :
    let t := complete .success (ecdhKeygenWrites k s)
    let Q := Point.ofCurve (smul k basePoint)
    (argNat s 0 + 32 ≤ argNat s 2 ∨ argNat s 2 + 64 ≤ argNat s 0 → beAt t (argNat s 0) = k) ∧
      beAt t (argNat s 2) = Q.x.toNat ∧ beAt t (argNat s 2 + 32) = Q.y.toNat ∧ t.rlen0 = 32 ∧ t.rlen1 = 64 := by
  intro t Q
  have hwf₁ : (memWrite (argNat s 0) 32 (beBytes k 32) s).buf.wf = true := memWrite_wf hwf _ _ _
  have ht := (complete_buf .success _).trans (ecdhKeygenWrites_buf k s)
  obtain ⟨hx, hy⟩ := beAt_of_storedPoint hwf₁ ht
  refine ⟨fun hdisj => ?_, hx, hy, rfl, rfl⟩
  rw [beAt_of_keptOutside (keptOutside_of_stored hwf₁ ht) hdisj]
  exact beAt_of_stored hwf (hk.trans orderN_lt_bytes) rfl

end Sys2Proof.Machine

namespace Sys2Proof.EcdhClaims

open Sys2Proof.Machine

/-- Settles O41: both parties' shared points stand for kA * kB times the base point, which has the prime order n, so neither is
INF and their x-coordinates agree (`sharedPoints_agree`). -/
theorem ecdhSecretsOfTwoPartiesAgree : Obligations.EcdhSecretsOfTwoPartiesAgree := by
  intro sA sB kA kB hA hAn hB hBn hparty hkA hkB hQB hQA
  obtain ⟨x, y, hSA, hSB⟩ := sharedPoints_agree hA hAn hB hBn
  obtain ⟨hwfA, hin0A, hin1A, hin2A, hprivA, hpubA, hroomA⟩ := hparty sA (.inl rfl)
  obtain ⟨hwfB, hin0B, hin1B, hin2B, hprivB, hpubB, hroomB⟩ := hparty sB (.inr rfl)
  obtain ⟨tA, htA, hcA, hbytesA⟩ :=
    ecdhSecret_of_party hwfA ⟨hin0A, hin1A, hin2A⟩ hprivA hpubA hroomA hA hAn hkA hQB hSA
  obtain ⟨tB, htB, hcB, hbytesB⟩ :=
    ecdhSecret_of_party hwfB ⟨hin0B, hin1B, hin2B⟩ hprivB hpubB hroomB hB hBn hkB hQA hSB
  exact ⟨tA, tB, htA, htB, hcA, hcB, hbytesA.trans hbytesB.symm⟩

/-- Settles O39: each check of R171 in its order; the answer's scalar is 0 exactly for 0 and n (`scalarOf_eq_zero_iff`). -/
theorem ecdhKeygenChecksThenAsksThenWrites : Obligations.EcdhKeygenChecksThenAsksThenWrites := by
  intro s
  refine ⟨fun hout => ?_, fun hin hsmall => ?_, fun hin hroom hrsp => ?_, fun ans hin hroom hrsp hbad => ?_,
    fun ans hin hroom hrsp hstatus hcount hzero => ?_,
    fun ans hin hroom hwf hrsp hstatus hcount hne0 hneN => ?_⟩
  · rw [execEcdhKeygen_rejects_range hout]
    exact raise_rejected _ _
  · rw [execEcdhKeygen_rejects_capacity hin hsmall]
    exact raise_rejected _ _
  · obtain ⟨t, ht, hrun, hengine⟩ := requestEntropy_stillRunning 32 32 s
    exact ⟨t, (execEcdhKeygen_asks hin hroom hrsp).trans ht, hrun, by rw [hengine]⟩
  · rw [execEcdhKeygen_rejects_answer hin hroom hrsp hbad]
    exact raise_rejected _ _
  · rw [execEcdhKeygen_of_answer hin hroom hrsp hstatus hcount, if_pos ((scalarOf_eq_zero_iff hcount).2 hzero)]
    obtain ⟨t, ht, hrun, hengine⟩ := requestEntropy_stillRunning 32 32 s
    exact ⟨t, ht, hrun, by rw [hengine], by rw [hengine]⟩
  · have hscalar : scalarOf ans.bytes ≠ 0 := mt (scalarOf_eq_zero_iff hcount).1 (not_or.2 ⟨hne0, hneN⟩)
    rw [execEcdhKeygen_of_answer hin hroom hrsp hstatus hcount, if_neg hscalar, scalarOf_eq hcount]
    exact ⟨_, rfl, complete_completed _ _, ecdhKeygenWrites_effect hwf (Nat.mod_lt _ orderN_prime.pos)⟩

/-- Settles O40: each check of R172 in its order, then the coordinate, which 32 bytes hold (`execEcdhSecret_coordinate`). -/
theorem ecdhSecretChecksThenWritesTheSharedCoordinate :
    Obligations.EcdhSecretChecksThenWritesTheSharedCoordinate := by
  intro s
  refine ⟨fun hout => ?_, fun hin hsmall => ?_, fun hin hroom hbad => ?_, fun hin hroom hpriv hbad => ?_,
    fun x y hin hroom hpriv hpub hS hwf =>
      execEcdhSecret_coordinate hin (Nat.not_lt.2 hroom) hpriv hpub hS hwf⟩
  · rw [execEcdhSecret_rejects_range hout]
    exact raise_rejected _ _
  · rw [execEcdhSecret_rejects_capacity hin hsmall]
    exact raise_rejected _ _
  · rw [execEcdhSecret_rejects_privkey hin (Nat.not_lt.2 hroom) hbad]
    exact raise_rejected _ _
  · rw [execEcdhSecret_rejects_pubkey hin (Nat.not_lt.2 hroom) hpriv hbad]
    exact raise_rejected _ _

end Sys2Proof.EcdhClaims
end

section
/-! PROOFS. The statements of 43_ring.md on the transforms: the closed form of NTT, its inverse, and the products. -/

open Sys2Proof.Claims
open scoped Fin.CommRing

namespace Sys2Proof.Machine

/-! ### Coefficients and the residues they are (R14, R23) -/

theorem coeff_eq_of_natCast {f : Poly} {j n : Nat} (h : f.toList.getD j 0 = (n : Coeff)) : coeff f j = n % 3329 := by
  rw [coeff, h, Fin.val_natCast]

theorem coeff_eq_of_intCast {f : Poly} {j : Nat} {e : Int} (h : f.toList.getD j 0 = (e : Coeff)) :
    (coeff f j : Int) = e % 3329 := by
  rw [coeff, h, Fin.val_intCast]
  exact Int.toNat_of_nonneg (Int.emod_nonneg _ (by decide))

theorem natCast_coeff (f : Poly) (j : Nat) : ((coeff f j : Nat) : Coeff) = f.toList.getD j 0 :=
  Fin.cast_val_eq_self _

/-- The table of R14 is the powers of 17 it is defined by. -/
theorem gammas_eq_map_gamma : gammas = (List.range 128).map fun i => ((gamma i : Nat) : Coeff) := by decide +kernel

theorem gammas_length : gammas.length = 128 := by decide +kernel

theorem gammas_getElem {i : Nat} (h : i < gammas.length) : gammas[i] = ((gamma i : Nat) : Coeff) := by
  simp [gammas_eq_map_gamma]

/-- Polynomials with the same coefficients are equal. -/
theorem Poly.ext_getD {f g : Poly} (h : ∀ j, j < 256 → f.toList.getD j 0 = g.toList.getD j 0) : f = g := by
  apply Vector.toList_inj.1
  apply List.ext_getElem (by simp)
  intro j hf hg
  rw [← List.getD_eq_getElem _ 0 hf, ← List.getD_eq_getElem _ 0 hg]
  exact h j (by simpa using hf)

/-! ### One layer of the forward transform, entry by entry (R196, R197) -/

/-- Past the two halves of a block. -/
theorem getD_past_block {len : Nat} (x : Nat) {a b l : List Coeff} (ha : a.length = len) (hb : b.length = len) :
    (a ++ (b ++ l)).getD (2 * len + x) 0 = l.getD x 0 := by
  rw [List.getD_append_right _ _ _ _ (by omega), List.getD_append_right _ _ _ _ (by omega)]
  congr 1
  omega

/-- Block k of a layer: its entries q and len + q are the butterfly of those entries with the k-th factor. -/
theorem layer_getD (bf : Coeff → Coeff → Coeff → Coeff × Coeff) {len q : Nat} (hq : q < len) :
    ∀ (zs r : List Coeff) (k : Nat), r.length = 2 * len * zs.length → k < zs.length →
      (layer bf len zs r).getD (2 * len * k + q) 0 =
        (bf (r.getD (2 * len * k + q) 0) (r.getD (2 * len * k + len + q) 0) (zs.getD k 0)).1 ∧
      (layer bf len zs r).getD (2 * len * k + len + q) 0 =
        (bf (r.getD (2 * len * k + q) 0) (r.getD (2 * len * k + len + q) 0) (zs.getD k 0)).2 := by
  intro zs
  induction zs with
  | nil => intro r k _ hk; simp at hk
  | cons z zs ih =>
    intro r k hr hk
    rw [List.length_cons, Nat.mul_succ] at hr
    obtain ⟨lo, hi, r', rfl, hl, hh⟩ : ∃ lo hi r', r = lo ++ (hi ++ r') ∧ lo.length = len ∧ hi.length = len :=
      ⟨r.take len, (r.drop len).take len, (r.drop len).drop len, by simp,
        by rw [List.length_take]; omega, by rw [List.length_take, List.length_drop]; omega⟩
    rw [layer_cons_append hl hh]
    have hzip : ∀ g : Coeff → Coeff → Coeff, (List.zipWith g lo hi).length = len := by simp [hl, hh]
    cases k with
    | zero => simp [List.getD_eq_getElem?_getD, List.getElem?_append, hl, hh, hq]
    | succ k =>
      have hr' : r'.length = 2 * len * zs.length := by
        simp only [List.length_append, hl, hh] at hr; omega
      rw [show 2 * len * (k + 1) + q = 2 * len + (2 * len * k + q) by ring,
        show 2 * len * (k + 1) + len + q = 2 * len + (2 * len * k + len + q) by ring,
        getD_past_block (2 * len * k + q) (hzip _) (hzip _), getD_past_block (2 * len * k + q) hl hh,
        getD_past_block (2 * len * k + len + q) (hzip _) (hzip _), getD_past_block (2 * len * k + len + q) hl hh,
        List.getD_cons_succ]
      exact ih r' k hr' (by simpa using hk)

/-- Half h of block k of a forward layer: the lower half plus or minus the factor times the upper half. -/
theorem nttLayer_getD {len q k h : Nat} (hlen : len ∈ [128, 64, 32, 16, 8, 4, 2]) {r : List Coeff} (hr : r.length = 256)
    (hq : q < len) (hk : 2 * len * k < 256) (hh : h < 2) :
    (nttLayer len r).getD (2 * len * k + len * h + q) 0 =
      r.getD (2 * len * k + q) 0 + (-1) ^ h * (layerZetas len).getD k 0 * r.getD (2 * len * k + len + q) 0 := by
  have hz := layerZetas_length hlen
  have hk' : k < (layerZetas len).length := by
    by_contra hc
    have := Nat.mul_le_mul_left (2 * len) (Nat.not_lt.1 hc)
    omega
  obtain ⟨h0, h1⟩ := layer_getD butterflyCT hq (layerZetas len) r k (by rw [hr, hz]) hk'
  match h, hh with
  | 0, _ => simpa [nttLayer, butterflyCT] using h0
  | 1, _ => simpa [nttLayer, butterflyCT, sub_eq_add_neg] using h1

/-! ### The closed form of the forward transform (R197) -/

/-- The even (c = 0) or the odd (c = 1) coefficients of the block of n pairs from pair p on, as a polynomial at g. -/
def pairSum (r : List Coeff) (p n c : Nat) (g : Coeff) : Coeff :=
  ∑ j ∈ Finset.range n, r.getD (2 * (p + j) + c) 0 * g ^ j

theorem pairSum_one (r : List Coeff) (p c : Nat) (g : Coeff) : pairSum r p 1 c g = r.getD (2 * p + c) 0 := by
  simp [pairSum]

/-- A block is its lower half and, times a power of g, its upper half. -/
theorem pairSum_two_mul (r : List Coeff) (p n c : Nat) (g : Coeff) :
    pairSum r p (2 * n) c g = pairSum r p n c g + g ^ n * pairSum r (p + n) n c g := by
  simp only [pairSum, two_mul n, Finset.sum_range_add, Finset.mul_sum]
  congr 1
  refine Finset.sum_congr rfl fun j _ => ?_
  rw [pow_add, show p + (n + j) = p + n + j by ring]
  ring

/-- The factors of R14: GAMMAS[i] to the number of pairs in a half block is plus or minus the block's factor. -/
theorem gamma_pow_eq {n : Nat} (hn : n ∈ [64, 32, 16, 8, 4, 2, 1]) {i : Nat} (hi : i < 128) :
    ((gamma i : Nat) : Coeff) ^ n = (-1) ^ (i / n % 2) * (layerZetas (2 * n)).getD (i / (2 * n)) 0 := by
  have key : [64, 32, 16, 8, 4, 2, 1].all (fun n => (List.range 128).all fun i =>
      decide (((gamma i : Nat) : Coeff) ^ n = (-1) ^ (i / n % 2) * (layerZetas (2 * n)).getD (i / (2 * n)) 0)) = true := by
    decide +kernel
  simpa using List.all_eq_true.1 (List.all_eq_true.1 key n hn) i (List.mem_range.2 hi)

theorem two_mul_mem_lens {n : Nat} (hn : n ∈ [64, 32, 16, 8, 4, 2, 1]) : 2 * n ∈ [128, 64, 32, 16, 8, 4, 2] := by
  simp only [List.mem_cons, List.not_mem_nil, or_false] at hn ⊢
  omega

/-- A forward layer keeps the value at GAMMAS[i] of the block that pair i lies in; its blocks are half as long. -/
theorem pairSum_nttLayer {n : Nat} (hn : n ∈ [64, 32, 16, 8, 4, 2, 1]) {r : List Coeff} (hr : r.length = 256) {i c : Nat}
    (hi : i < 128) (hc : c < 2) :
    pairSum (nttLayer (2 * n) r) (n * (i / n)) n c (gamma i : Nat) =
      pairSum r (2 * n * (i / (2 * n))) (2 * n) c (gamma i : Nat) := by
  have hhalf : i / n = 2 * (i / (2 * n)) + i / n % 2 := by
    rw [mul_comm 2 n, ← Nat.div_div_eq_div_mul]; omega
  have hblock : 2 * (2 * n) * (i / (2 * n)) < 256 := by
    have := Nat.mul_div_le i (2 * n)
    rw [mul_assoc]; omega
  rw [pairSum_two_mul, gamma_pow_eq hn hi]
  have hh : i / n % 2 < 2 := Nat.mod_lt _ (by decide)
  generalize i / (2 * n) = k at hhalf hblock ⊢
  generalize i / n % 2 = h at hhalf hh ⊢
  simp only [pairSum, hhalf, Finset.mul_sum, ← Finset.sum_add_distrib]
  refine Finset.sum_congr rfl fun j hj => ?_
  have hj' := Finset.mem_range.1 hj
  rw [show 2 * (n * (2 * k + h) + j) + c = 2 * (2 * n) * k + 2 * n * h + (2 * j + c) by ring,
    show 2 * (2 * n * k + j) + c = 2 * (2 * n) * k + (2 * j + c) by ring,
    show 2 * (2 * n * k + n + j) + c = 2 * (2 * n) * k + 2 * n + (2 * j + c) by ring,
    nttLayer_getD (two_mul_mem_lens hn) hr (by omega) hblock hh]
  ring

/-- The seven layers one after the other, from the whole list down to the blocks of one pair (R197). -/
theorem nttList_getD {r : List Coeff} (hr : r.length = 256) {i c : Nat} (hi : i < 128) (hc : c < 2) :
    (nttList r).getD (2 * i + c) 0 = pairSum r 0 128 c (gamma i : Nat) := by
  have step : ∀ {n : Nat} {r : List Coeff}, n ∈ [64, 32, 16, 8, 4, 2, 1] → r.length = 256 →
      (nttLayer (2 * n) r).length = 256 ∧ pairSum (nttLayer (2 * n) r) (n * (i / n)) n c (gamma i : Nat) =
        pairSum r (2 * n * (i / (2 * n))) (2 * n) c (gamma i : Nat) := fun hn hr =>
    ⟨nttLayer_length (two_mul_mem_lens hn) hr, pairSum_nttLayer hn hr hi hc⟩
  obtain ⟨h64, e64⟩ := step (n := 64) (by decide) hr
  obtain ⟨h32, e32⟩ := step (n := 32) (by decide) h64
  obtain ⟨h16, e16⟩ := step (n := 16) (by decide) h32
  obtain ⟨h8, e8⟩ := step (n := 8) (by decide) h16
  obtain ⟨h4, e4⟩ := step (n := 4) (by decide) h8
  obtain ⟨h2, e2⟩ := step (n := 2) (by decide) h4
  obtain ⟨_, e1⟩ := step (n := 1) (by decide) h2
  have hall := e1.trans (e2.trans (e4.trans (e8.trans (e16.trans (e32.trans e64)))))
  rw [Nat.div_one, one_mul, pairSum_one, Nat.div_eq_of_lt (show i < 2 * 64 from hi)] at hall
  exact hall

theorem coeff_ntt_even (f : Poly) {i : Nat} (hi : i < 128) :
    coeff (nttPoly f) (2 * i) = (∑ j ∈ Finset.range 128, coeff f (2 * j) * gamma i ^ j) % 3329 := by
  have h := nttList_getD (Poly.toList_length f) hi (show 0 < 2 by decide)
  rw [Nat.add_zero] at h
  apply coeff_eq_of_natCast
  rw [nttPoly_toList, h, pairSum]
  push_cast [natCast_coeff]
  simp only [Nat.zero_add, Nat.add_zero]

theorem coeff_ntt_odd (f : Poly) {i : Nat} (hi : i < 128) :
    coeff (nttPoly f) (2 * i + 1) = (∑ j ∈ Finset.range 128, coeff f (2 * j + 1) * gamma i ^ j) % 3329 := by
  apply coeff_eq_of_natCast
  rw [nttPoly_toList, nttList_getD (Poly.toList_length f) hi (show 1 < 2 by decide), pairSum]
  push_cast [natCast_coeff]
  simp only [Nat.zero_add]

/-! ### The transforms undo each other (R198) -/

/-- Layers undone one by one, the last one first, leave a factor 2 for each. -/
theorem foldl_layers_undo {f g : Nat → List Coeff → List Coeff} (lens : List Nat)
    (hlen : ∀ len ∈ lens, ∀ r : List Coeff, r.length = 256 → (f len r).length = 256)
    (hundo : ∀ len ∈ lens, ∀ r : List Coeff, r.length = 256 → g len (f len r) = r.map fun x => x + x)
    (hscale : ∀ (len : Nat) (c : Coeff) (r : List Coeff), g len (r.map fun x => c * x) = (g len r).map fun x => c * x)
    {r : List Coeff} (hr : r.length = 256) :
    lens.reverse.foldl (fun r len => g len r) (lens.foldl (fun r len => f len r) r) =
      r.map fun x => 2 ^ lens.length * x := by
  induction lens generalizing r with
  | nil => simp
  | cons len lens ih =>
    simp only [List.reverse_cons, List.foldl_append, List.foldl_cons, List.foldl_nil]
    rw [ih (fun l hl => hlen l (List.mem_cons_of_mem _ hl)) (fun l hl => hundo l (List.mem_cons_of_mem _ hl))
        (hlen len List.mem_cons_self r hr),
      hscale, hundo len List.mem_cons_self r hr, List.map_map, List.length_cons]
    refine List.map_congr_left fun x _ => ?_
    rw [Function.comp_apply, pow_succ]
    ring

theorem nttLayer_map_mul (len : Nat) (c : Coeff) (r : List Coeff) :
    nttLayer len (r.map fun x => c * x) = (nttLayer len r).map fun x => c * x :=
  layer_map_mul butterflyCT_mul c len _ r

theorem inttLayer_map_mul (len : Nat) (c : Coeff) (r : List Coeff) :
    inttLayer len (r.map fun x => c * x) = (inttLayer len r).map fun x => c * x :=
  layer_map_mul butterflyGS_mul c len _ r

theorem nttList_map_mul (c : Coeff) (r : List Coeff) :
    nttList (r.map fun x => x * c) = (nttList r).map fun x => x * c := by
  simp only [mul_comm _ c, nttList, List.foldl_cons, List.foldl_nil, nttLayer_map_mul]

/-- The final scaling of INTT takes the factor of its seven layers away (R198). -/
theorem map_two_pow_map_inv128 (r : List Coeff) :
    ((r.map fun x => 2 ^ 7 * x).map fun x => x * inv128) = r := by
  rw [List.map_map]
  conv_rhs => rw [← List.map_id r]
  refine List.map_congr_left fun x _ => ?_
  rw [Function.comp_apply, mul_right_comm, inv128_mul, one_mul, id]

theorem inttPoly_nttPoly (f : Poly) : inttPoly (nttPoly f) = f := by
  have hundo := foldl_layers_undo [128, 64, 32, 16, 8, 4, 2] (fun _ hl _ => nttLayer_length hl)
    (fun _ hl _ => inttLayer_nttLayer hl) inttLayer_map_mul (Poly.toList_length f)
  apply Vector.toList_inj.1
  rw [inttPoly_toList, nttPoly_toList, inttList, nttList]
  exact (congrArg _ hundo).trans (map_two_pow_map_inv128 _)

theorem nttPoly_inttPoly (f : Poly) : nttPoly (inttPoly f) = f := by
  have hmem : ∀ {len : Nat}, len ∈ [2, 4, 8, 16, 32, 64, 128] → len ∈ [128, 64, 32, 16, 8, 4, 2] := fun h =>
    List.mem_reverse.1 h
  have hundo := foldl_layers_undo [2, 4, 8, 16, 32, 64, 128] (fun _ hl _ => inttLayer_length (hmem hl))
    (fun _ hl _ => nttLayer_inttLayer (hmem hl)) nttLayer_map_mul (Poly.toList_length f)
  apply Vector.toList_inj.1
  rw [nttPoly_toList, inttPoly_toList, inttList, nttList_map_mul, nttList]
  exact (congrArg _ hundo).trans (map_two_pow_map_inv128 _)

/-- A result in R[d], and one computed from it that undoes it. -/
theorem finishR_undo (d : Fin 8) {g h : Poly → Poly} (f : Poly) (s : State) (hgh : ∀ f, h (g f) = f) :
    ∃ t u, finishR d (g f) s = .next t ∧ finishR d (h (t.readR d)) t = .next u ∧ Completed .success u ∧
      u.readR d = f := by
  obtain ⟨t, ht, _, htd⟩ := finishR_next d (g f) s
  obtain ⟨u, hu, hc, hud⟩ := finishR_next d (h (t.readR d)) t
  exact ⟨t, u, ht, hu, hc, by rw [hud, htd, hgh]⟩

/-! ### The product of pairs (R199) -/

theorem pwPoly_toList (f g : Poly) : (pwPoly f g).toList = pairMul gammas f.toList g.toList := by
  have hlen : ∀ f : Poly, f.toList.length = 2 * gammas.length := fun f => by
    rw [Poly.toList_length, gammas_length]
  apply Poly.toList_ofList
  rw [pairMul_length _ _ _ (hlen f) (hlen g), gammas_length]

/-- Pair i of the product. -/
theorem pwPoly_getD (f g : Poly) {i : Nat} (hi : i < 128) :
    (pwPoly f g).toList.getD (2 * i) 0 = f.toList.getD (2 * i) 0 * g.toList.getD (2 * i) 0 +
      f.toList.getD (2 * i + 1) 0 * g.toList.getD (2 * i + 1) 0 * (gamma i : Nat) ∧
    (pwPoly f g).toList.getD (2 * i + 1) 0 = f.toList.getD (2 * i) 0 * g.toList.getD (2 * i + 1) 0 +
      f.toList.getD (2 * i + 1) 0 * g.toList.getD (2 * i) 0 := by
  have hi' : i < gammas.length := gammas_length ▸ hi
  rw [pwPoly_toList, ← gammas_getElem hi']
  exact pairMul_getElem gammas _ _ i hi' (by simp [gammas_length]) (by simp [gammas_length])

theorem coeff_pw_even (f g : Poly) {i : Nat} (hi : i < 128) : coeff (pwPoly f g) (2 * i) =
    (coeff f (2 * i) * coeff g (2 * i) + coeff f (2 * i + 1) * coeff g (2 * i + 1) * gamma i) % 3329 := by
  apply coeff_eq_of_natCast
  push_cast [natCast_coeff]
  exact (pwPoly_getD f g hi).1

theorem coeff_pw_odd (f g : Poly) {i : Nat} (hi : i < 128) : coeff (pwPoly f g) (2 * i + 1) =
    (coeff f (2 * i) * coeff g (2 * i + 1) + coeff f (2 * i + 1) * coeff g (2 * i)) % 3329 := by
  apply coeff_eq_of_natCast
  push_cast [natCast_coeff]
  exact (pwPoly_getD f g hi).2

/-- Polynomials with the same 128 pairs of coefficients are equal. -/
theorem Poly.ext_pairs {f g : Poly} (h : ∀ i, i < 128 → f.toList.getD (2 * i) 0 = g.toList.getD (2 * i) 0 ∧
    f.toList.getD (2 * i + 1) 0 = g.toList.getD (2 * i + 1) 0) : f = g := by
  refine Poly.ext_getD fun j hj => ?_
  obtain ⟨heven, hodd⟩ := h (j / 2) (by omega)
  rcases Nat.mod_two_eq_zero_or_one j with hj2 | hj2
  · rwa [show 2 * (j / 2) = j by omega] at heven
  · rwa [show 2 * (j / 2) + 1 = j by omega] at hodd

theorem pwPoly_comm (f g : Poly) : pwPoly f g = pwPoly g f := by
  refine Poly.ext_pairs fun i hi => ?_
  obtain ⟨heven, hodd⟩ := pwPoly_getD f g hi
  obtain ⟨heven', hodd'⟩ := pwPoly_getD g f hi
  rw [heven, hodd, heven', hodd']
  constructor <;> ring

/-! ### The negacyclic product (R200) -/

section Negacyclic
variable {R A : Type*} [CommRing R] [CommRing A] [Algebra R A]

/-- Coefficient k of the product of two polynomials of degree below N modulo X^N + 1. -/
def negacyclic (N : Nat) (a b : Nat → R) (k : Nat) : R :=
  ∑ i ∈ Finset.range N, ∑ j ∈ Finset.range N,
    if i + j = k then a i * b j else if i + j = k + N then -(a i * b j) else 0

/-- Where w^N = -1, a product of powers below N is plus or minus a power below N. -/
theorem sum_negacyclic_term {N : Nat} {w : A} (hw : w ^ N = -1) (x : R) {i j : Nat} (hi : i < N) (hj : j < N) :
    (∑ k ∈ Finset.range N, (if i + j = k then x else if i + j = k + N then -x else 0) • w ^ k) = x • w ^ (i + j) := by
  by_cases h : i + j < N
  · rw [Finset.sum_eq_single_of_mem (i + j) (Finset.mem_range.2 h) fun k _ hk => ?_, if_pos rfl]
    rw [if_neg (Ne.symm hk), if_neg (by omega), zero_smul]
  · have hk : i + j = i + j - N + N := by omega
    rw [Finset.sum_eq_single_of_mem (i + j - N) (Finset.mem_range.2 (by omega)) fun k hk hne => ?_,
      if_neg (by omega), if_pos hk]
    · conv_rhs => rw [hk, pow_add, hw]
      simp
    · have := Finset.mem_range.1 hk
      rw [if_neg (by omega), if_neg (by omega), zero_smul]

/-- At a root w of X^N + 1 the negacyclic product has the product of the values. -/
theorem sum_negacyclic {N : Nat} {w : A} (hw : w ^ N = -1) (a b : Nat → R) :
    ∑ k ∈ Finset.range N, negacyclic N a b k • w ^ k =
      (∑ i ∈ Finset.range N, a i • w ^ i) * ∑ j ∈ Finset.range N, b j • w ^ j := by
  simp only [negacyclic, Finset.sum_smul]
  rw [Finset.sum_comm, Finset.sum_mul_sum]
  refine Finset.sum_congr rfl fun i hi => ?_
  rw [Finset.sum_comm]
  refine Finset.sum_congr rfl fun j hj => ?_
  rw [sum_negacyclic_term hw _ (Finset.mem_range.1 hi) (Finset.mem_range.1 hj), pow_add, smul_mul_smul_comm]

end Negacyclic

/-- X modulo X^2 - g. -/
def rootX (g : Coeff) : QuadraticAlgebra Coeff g 0 := ⟨0, 1⟩

theorem rootX_pow_even (g : Coeff) (j : Nat) : rootX g ^ (2 * j) = ⟨g ^ j, 0⟩ := by
  induction j with
  | zero => rfl
  | succ j ih =>
    rw [Nat.mul_succ, pow_add, ih, pow_two, rootX]
    refine QuadraticAlgebra.ext ?_ ?_ <;> simp [pow_succ]

theorem rootX_pow_odd (g : Coeff) (j : Nat) : rootX g ^ (2 * j + 1) = ⟨0, g ^ j⟩ := by
  rw [pow_succ, rootX_pow_even, rootX]
  refine QuadraticAlgebra.ext ?_ ?_ <;> simp

/-- A polynomial modulo X^2 - g: its even and its odd coefficients as polynomials at g. -/
theorem sum_smul_rootX (r : List Coeff) (n : Nat) (g : Coeff) :
    ∑ k ∈ Finset.range (2 * n), r.getD k 0 • rootX g ^ k = ⟨pairSum r 0 n 0 g, pairSum r 0 n 1 g⟩ := by
  induction n with
  | zero => rfl
  | succ n ih =>
    rw [Nat.mul_succ, Finset.sum_range_succ, Finset.sum_range_succ, ih, rootX_pow_even, rootX_pow_odd]
    refine QuadraticAlgebra.ext ?_ ?_ <;> simp [pairSum, Finset.sum_range_succ]

/-- X is a root of X^256 + 1 modulo each X^2 - GAMMAS[i] (R14). -/
theorem rootX_pow_256 {i : Nat} (hi : i < 128) : rootX (gamma i : Nat) ^ 256 = -1 := by
  have key : ∀ i < 128, ((gamma i : Nat) : Coeff) ^ 128 = -1 := by decide +kernel
  rw [rootX_pow_even _ 128, key i hi]
  exact QuadraticAlgebra.ext rfl neg_zero.symm

/-- Pair i of NTT is the polynomial modulo X^2 - GAMMAS[i] (R197). -/
theorem ntt_pair (f : Poly) {i : Nat} (hi : i < 128) :
    (⟨(nttPoly f).toList.getD (2 * i) 0, (nttPoly f).toList.getD (2 * i + 1) 0⟩ :
      QuadraticAlgebra Coeff (gamma i : Nat) 0) =
      ∑ k ∈ Finset.range 256, f.toList.getD k 0 • rootX (gamma i : Nat) ^ k := by
  have heven := nttList_getD (Poly.toList_length f) hi (show 0 < 2 by decide)
  have hodd := nttList_getD (Poly.toList_length f) hi (show 1 < 2 by decide)
  rw [Nat.add_zero] at heven
  rw [sum_smul_rootX f.toList 128, nttPoly_toList, heven, hodd]

/-- The polynomial product modulo X^256 + 1. -/
def negacyclicPoly (f g : Poly) : Poly :=
  Poly.ofList ((List.range 256).map (negacyclic 256 (fun i => f.toList.getD i 0) fun j => g.toList.getD j 0))

theorem negacyclicPoly_getD (f g : Poly) {k : Nat} (hk : k < 256) : (negacyclicPoly f g).toList.getD k 0 =
    negacyclic 256 (fun i => f.toList.getD i 0) (fun j => g.toList.getD j 0) k := by
  rw [negacyclicPoly, Poly.toList_ofList (by simp), List.getD_eq_getElem _ _ (by simpa using hk), List.getElem_map,
    List.getElem_range]

/-- NTT turns the product modulo X^256 + 1 into the product of the pairs. -/
theorem nttPoly_negacyclicPoly (f g : Poly) : nttPoly (negacyclicPoly f g) = pwPoly (nttPoly f) (nttPoly g) := by
  refine Poly.ext_pairs fun i hi => ?_
  have hprod := sum_negacyclic (rootX_pow_256 hi) (fun i => f.toList.getD i 0) fun j => g.toList.getD j 0
  have hcoeffs : ∀ k ∈ Finset.range 256, (negacyclicPoly f g).toList.getD k 0 • rootX (gamma i : Nat) ^ k =
      negacyclic 256 (fun i => f.toList.getD i 0) (fun j => g.toList.getD j 0) k • rootX (gamma i : Nat) ^ k :=
    fun k hk => by rw [negacyclicPoly_getD f g (Finset.mem_range.1 hk)]
  rw [← Finset.sum_congr rfl hcoeffs, ← ntt_pair f hi, ← ntt_pair g hi, ← ntt_pair (negacyclicPoly f g) hi] at hprod
  obtain ⟨heven, hodd⟩ := pwPoly_getD (nttPoly f) (nttPoly g) hi
  rw [heven, hodd]
  have hre := congrArg QuadraticAlgebra.re hprod
  have him := congrArg QuadraticAlgebra.im hprod
  simp only [QuadraticAlgebra.re_mul, QuadraticAlgebra.im_mul] at hre him
  constructor
  · rw [hre]; ring
  · rw [him]; ring

theorem polyMul_eq_negacyclicPoly (f g : Poly) : polyMul f g = negacyclicPoly f g := by
  rw [polyMul, ← nttPoly_negacyclicPoly, inttPoly_nttPoly]

theorem coeff_polyMul (f g : Poly) {k : Nat} (hk : k < 256) : (coeff (polyMul f g) k : Int) =
    negacyclic 256 (fun i => (coeff f i : Int)) (fun j => (coeff g j : Int)) k % 3329 := by
  apply coeff_eq_of_intCast
  rw [polyMul_eq_negacyclicPoly, negacyclicPoly_getD f g hk, negacyclic, negacyclic]
  push_cast [natCast_coeff]
  rfl

end Sys2Proof.Machine

namespace Sys2Proof.RingClaims

open Sys2Proof.Machine

/-- Settles O44: every layer keeps the value at GAMMAS[i] of the block pair i lies in (`pairSum_nttLayer`). -/
theorem nttIsReductionModuloTheQuadraticFactors : Obligations.NttIsReductionModuloTheQuadraticFactors := by
  intro d a s
  obtain ⟨t, ht, hc, hd⟩ := finishR_next d (nttPoly (s.readR a)) s
  refine ⟨t, ht, hc, fun i hi => ?_⟩
  rw [hd]
  exact ⟨coeff_ntt_even _ hi, coeff_ntt_odd _ hi⟩

/-- Settles O45: each layer undoes its counterpart up to a factor 2, and inv(128, q) takes the seven factors away
(`foldl_layers_undo`, `map_two_pow_map_inv128`). -/
theorem inverseTransformUndoesTheTransform : Obligations.InverseTransformUndoesTheTransform :=
  fun d a s => ⟨finishR_undo d (s.readR a) s inttPoly_nttPoly, finishR_undo d (s.readR a) s nttPoly_inttPoly⟩

/-- Settles O47: NTT of the product modulo X^256 + 1 is the product of the pairs (`nttPoly_negacyclicPoly`), and INTT undoes
NTT. -/
theorem polynomialProductIsTheNegacyclicConvolution : Obligations.PolynomialProductIsTheNegacyclicConvolution := by
  intro d a b s
  obtain ⟨t, ht, hc, hd⟩ := finishR_next d (polyMul (s.readR a) (s.readR b)) s
  refine ⟨t, ht, hc, fun k hk => ?_⟩
  rw [hd]
  exact coeff_polyMul _ _ hk

/-- Settles O46: the pairs of `pairMul` with the table's factors, symmetric in the operands (`pwPoly_comm`). -/
theorem pairwiseProductModuloTheQuadraticFactors : Obligations.PairwiseProductModuloTheQuadraticFactors := by
  intro d a b s
  obtain ⟨t, ht, hc, hd⟩ := finishR_next d (pwPoly (s.readR a) (s.readR b)) s
  refine ⟨t, ht, hc, fun i hi => ?_, ?_⟩
  · rw [hd]
    exact ⟨coeff_pw_even _ _ hi, coeff_pw_odd _ _ hi⟩
  · rw [exec, execPwmul, pwPoly_comm]
    exact ht

end Sys2Proof.RingClaims
end

section
/-! PROOFS. The statements of 43_ring.md on moves, sums, byte encodings and samplers. -/

open Sys2Proof.Claims
open scoped Fin.CommRing

namespace Sys2Proof.Machine

/-! ### The range check of the commands with an address (R63, R190) -/

theorem ite_fitsBuf_of_inBuf {a n : Nat} {x y : Result} (h : InBuf a n) : (if !fitsBuf a n then x else y) = y := by
  rw [(fitsBuf_iff a n).2 h]
  rfl

theorem ite_fitsBuf_rejects {a n : Nat} {x : Result} {s : State} (h : ¬ InBuf a n) :
    ∃ t, (if !fitsBuf a n then raise .badDescriptor s else x) = .next t ∧ Rejected .badDescriptor s t := by
  rw [(fitsBuf_eq_false_iff a n).2 h]
  exact raise_rejected _ _

/-! ### Sums and differences (R194, R195) -/

theorem polyAdd_coeff (f g : Poly) (j : Nat) : coeff (polyAdd f g) j = (coeff f j + coeff g j) % 3329 :=
  polyAdd_val f g j

theorem polySub_coeff (f g : Poly) {j : Nat} (hj : j < 256) :
    (coeff (polySub f g) j : Int) = ((coeff f j : Int) - coeff g j) % 3329 := by
  apply coeff_eq_of_intCast
  push_cast [natCast_coeff]
  rw [polySub_toList, List.getD_eq_getElem _ _ (by simpa using hj), List.getElem_zipWith,
    List.getD_eq_getElem _ _ (by simpa using hj), List.getD_eq_getElem _ _ (by simpa using hj)]

theorem execRadd_effect (d a b : Fin 8) (s : State) :
    ∃ t, exec (.radd d a b) s = .next t ∧ Completed .success t ∧
      ∀ j, j < 256 → coeff (t.readR d) j = (coeff (s.readR a) j + coeff (s.readR b) j) % 3329 := by
  obtain ⟨t, ht, hc, hd⟩ := finishR_next d (polyAdd (s.readR a) (s.readR b)) s
  exact ⟨t, ht, hc, fun j _ => hd ▸ polyAdd_coeff _ _ j⟩

theorem execRsub_effect (d a b : Fin 8) (s : State) :
    ∃ t, exec (.rsub d a b) s = .next t ∧ Completed .success t ∧
      ∀ j, j < 256 → (coeff (t.readR d) j : Int) = ((coeff (s.readR a) j : Int) - coeff (s.readR b) j) % 3329 := by
  obtain ⟨t, ht, hc, hd⟩ := finishR_next d (polySub (s.readR a) (s.readR b)) s
  exact ⟨t, ht, hc, fun j hj => hd ▸ polySub_coeff _ _ hj⟩

/-! ### Bit fields of a byte string (R8, R62) -/

/-- The n bits of B from bit p on, least significant first, as a number. -/
def bitField (B : Bytes) (p n : Nat) : Nat := ∑ j ∈ Finset.range n, byteBit B (p + j) * 2 ^ j

theorem byteBit_eq_testBit (B : Bytes) (i : Nat) :
    byteBit B i = ((B.getD (i / 8) 0).toNat.testBit (i % 8)).toNat := (Nat.toNat_testBit _ _).symm

theorem byteBit_eq_byteBits_getD (B : Bytes) (i : Nat) : byteBit B i = ((byteBits B).getD i false).toNat := by
  rw [byteBit_eq_testBit]
  by_cases h : i < (byteBits B).length
  · rw [List.getD_eq_getElem _ _ h, byteBits_getElem]
  · have hB : B.length ≤ i / 8 := by rw [byteBits_length] at h; omega
    rw [List.getD_eq_default _ _ (Nat.not_lt.1 h), List.getD_eq_default _ _ hB]
    simp

/-- The low n bits of a number are the sum of its bits. -/
theorem sum_bits_eq_mod (x n : Nat) : ∑ j ∈ Finset.range n, x / 2 ^ j % 2 * 2 ^ j = x % 2 ^ n := by
  induction n with
  | zero => simp [Nat.mod_one]
  | succ n ih => rw [Finset.sum_range_succ, ih, pow_succ, Nat.mod_mul, mul_comm (2 ^ n)]

theorem bitField_add (B : Bytes) (p m n : Nat) :
    bitField B p (m + n) = bitField B p m + 2 ^ m * bitField B (p + m) n := by
  simp only [bitField, Finset.sum_range_add, Finset.mul_sum]
  congr 1
  refine Finset.sum_congr rfl fun j _ => ?_
  rw [pow_add, Nat.add_assoc]
  ring

/-- A field inside one byte. -/
theorem bitField_byte (B : Bytes) (k : Nat) {o n : Nat} (h : o + n ≤ 8) :
    bitField B (8 * k + o) n = (B.getD k 0).toNat / 2 ^ o % 2 ^ n := by
  rw [bitField, ← sum_bits_eq_mod]
  refine Finset.sum_congr rfl fun j hj => ?_
  have hj' := Finset.mem_range.1 hj
  rw [byteBit, show (8 * k + o + j) / 8 = k by omega, show (8 * k + o + j) % 8 = o + j by omega,
    Nat.div_div_eq_div_mul, ← pow_add]

/-! ### The integers of Decode, bit by bit (R16) -/

section Decode
variable {l i : Nat} {B : Bytes} (hB : B.length = 32 * l) (hi : i < 256)
include hB hi

theorem decodeBits_bit {j : Nat} (hj : j < l) : (decodeBits l B).getD i 0 / 2 ^ j % 2 = byteBit B (i * l + j) := by
  have hi' : i < (decodeBits l B).length := by simpa using hi
  rw [byteBit_eq_testBit, ← Nat.toNat_testBit, List.getD_eq_getElem _ _ hi',
    decodeBits_getElem_testBit hB i j hi' hj]

theorem decodeBits_getD : (decodeBits l B).getD i 0 = bitField B (i * l) l := by
  have hi' : i < (decodeBits l B).length := by simpa using hi
  have hlt : (decodeBits l B).getD i 0 < 2 ^ l := by
    rw [List.getD_eq_getElem _ _ hi']
    exact decodeBits_lt (List.getElem_mem hi')
  rw [bitField, ← Nat.mod_eq_of_lt hlt, ← sum_bits_eq_mod]
  exact Finset.sum_congr rfl fun j hj => by rw [decodeBits_bit hB hi (Finset.mem_range.1 hj)]

end Decode

/-- Three bytes hold two 12-bit integers (R191). -/
theorem decodeBits_12_pair {B : Bytes} (hB : B.length = 384) {i : Nat} (hi : i < 128) :
    let b := fun k => (B.getD (3 * i + k) 0).toNat
    (decodeBits 12 B).getD (2 * i) 0 = b 0 + 256 * (b 1 % 16) ∧
    (decodeBits 12 B).getD (2 * i + 1) 0 = b 1 / 16 + 16 * b 2 := by
  intro b
  have hb : ∀ k, b k < 256 := fun k => BitVec.isLt _
  have h0 := hb 0
  have h1 := hb 1
  have h2 := hb 2
  constructor
  · rw [decodeBits_getD hB (by omega), show 2 * i * 12 = 8 * (3 * i) + 0 by ring, bitField_add B _ 8 4,
      bitField_byte B (3 * i) (by decide), show 8 * (3 * i) + 0 + 8 = 8 * (3 * i + 1) + 0 by ring,
      bitField_byte B (3 * i + 1) (by decide)]
    change b 0 / 1 % 256 + 256 * (b 1 / 1 % 16) = _
    omega
  · rw [decodeBits_getD hB (by omega), show (2 * i + 1) * 12 = 8 * (3 * i + 1) + 4 by ring, bitField_add B _ 4 8,
      bitField_byte B (3 * i + 1) (by decide), show 8 * (3 * i + 1) + 4 + 4 = 8 * (3 * i + 2) + 0 by ring,
      bitField_byte B (3 * i + 2) (by decide)]
    change b 1 / 16 % 16 + 16 * (b 2 / 1 % 256) = _
    omega

/-! ### Coefficients of a decoded polynomial -/

theorem coeff_ofNats {l : List Nat} (hl : l.length = 256) {i : Nat} (hi : i < 256) :
    coeff (Poly.ofNats l) i = l.getD i 0 % 3329 := by
  have hi' : i < l.length := hl ▸ hi
  apply coeff_eq_of_natCast
  rw [Poly.ofNats, Poly.toList_ofList (by simpa using hl), List.getD_eq_getElem _ _ (by simpa using hi'),
    List.getElem_map, List.getD_eq_getElem _ _ hi']
  rfl

theorem nats_getD (f : Poly) {i : Nat} (hi : i < 256) : (Poly.nats f).getD i 0 = coeff f i := by
  rw [Poly.nats, coeff, List.getD_eq_getElem _ _ (by simpa using hi), List.getElem_map,
    List.getD_eq_getElem _ _ (by simpa using hi)]

theorem coeff_decodePoly {B : Bytes} (hB : B.length = 384) {i : Nat} (hi : i < 128) :
    let b := fun k => (B.getD (3 * i + k) 0).toNat
    coeff (decodePoly B) (2 * i) = (b 0 + 256 * (b 1 % 16)) % 3329 ∧
    coeff (decodePoly B) (2 * i + 1) = (b 1 / 16 + 16 * b 2) % 3329 := by
  obtain ⟨heven, hodd⟩ := decodeBits_12_pair hB hi
  rw [decodePoly, coeff_ofNats (decodeBits_length _ _) (by omega), coeff_ofNats (decodeBits_length _ _) (by omega),
    heven, hodd]
  exact ⟨rfl, rfl⟩

/-- The three bytes of two coefficients: the encoding decodes to them (R192). -/
theorem encodePoly_bytes (f : Poly) {i : Nat} (hi : i < 128) :
    let b := fun k => ((encodePoly f).getD (3 * i + k) 0).toNat
    b 0 = coeff f (2 * i) % 256 ∧ b 1 = coeff f (2 * i) / 256 + 16 * (coeff f (2 * i + 1) % 16) ∧
    b 2 = coeff f (2 * i + 1) / 16 := by
  intro b
  have hdecode : decodeBits 12 (encodePoly f) = Poly.nats f :=
    decodeBits_encodeBits (Poly.nats_length f) fun v hv => (Poly.nats_lt hv).trans (by norm_num)
  obtain ⟨heven, hodd⟩ := decodeBits_12_pair (encodePoly_length f) hi
  rw [hdecode, nats_getD f (by omega)] at heven hodd
  have hb : ∀ k, b k < 256 := fun k => BitVec.isLt _
  have h0 := hb 0
  have h1 := hb 1
  change coeff f (2 * i) = b 0 + 256 * (b 1 % 16) at heven
  change coeff f (2 * i + 1) = b 1 / 16 + 16 * b 2 at hodd
  omega

/-! ### RMOV, RLD and RST (R191 to R193) -/

theorem memRead_getD (s : State) (a : Nat) {n k : Nat} (hk : k < n) : (memRead s a n).getD k 0 = s.buf.read (a + k) := by
  rw [List.getD_eq_getElem _ _ (by simpa using hk), memRead_getElem]

theorem exec_rld (d : Fin 8) {addr : Imm16} (s : State) (h : InBuf addr.toNat 384) :
    exec (.rld d addr) s = finishR d (decodePoly (memRead s addr.toNat 384)) s := ite_fitsBuf_of_inBuf h

theorem exec_rst (a : Fin 8) {addr : Imm16} (s : State) (h : InBuf addr.toNat 384) :
    exec (.rst a addr) s = succeed (memWrite addr.toNat 384 (encodePoly (s.readR a)) s) := ite_fitsBuf_of_inBuf h

theorem execRld_rejects (d : Fin 8) {addr : Imm16} (s : State) (h : ¬ InBuf addr.toNat 384) :
    ∃ t, exec (.rld d addr) s = .next t ∧ Rejected .badDescriptor s t := ite_fitsBuf_rejects h

theorem execRst_rejects (a : Fin 8) {addr : Imm16} (s : State) (h : ¬ InBuf addr.toNat 384) :
    ∃ t, exec (.rst a addr) s = .next t ∧ Rejected .badDescriptor s t := ite_fitsBuf_rejects h

theorem execRld_effect (d : Fin 8) {addr : Imm16} (s : State) (h : InBuf addr.toNat 384) :
    ∃ t, exec (.rld d addr) s = .next t ∧ Completed .success t ∧
      ∀ i, i < 128 →
        let B := fun k => byteAt s (addr.toNat + 3 * i + k)
        coeff (t.readR d) (2 * i) = (B 0 + 256 * (B 1 % 16)) % 3329 ∧
        coeff (t.readR d) (2 * i + 1) = (B 1 / 16 + 16 * B 2) % 3329 := by
  obtain ⟨t, ht, hc, hd⟩ := finishR_next d (decodePoly (memRead s addr.toNat 384)) s
  refine ⟨t, (exec_rld d s h).trans ht, hc, fun i hi => ?_⟩
  have hbyte : ∀ k, k < 3 → ((memRead s addr.toNat 384).getD (3 * i + k) 0).toNat =
      byteAt s (addr.toNat + 3 * i + k) := fun k hk => by
    rw [memRead_getD _ _ (by omega), byteAt, Nat.add_assoc]
  have hcoeff := coeff_decodePoly (memRead_length s addr.toNat 384) hi
  simp only [hbyte 0 (by decide), hbyte 1 (by decide), hbyte 2 (by decide)] at hcoeff
  rw [hd]
  exact hcoeff

theorem execRst_effect (a : Fin 8) {addr : Imm16} {s : State} (h : InBuf addr.toNat 384) (hwf : s.buf.wf = true) :
    ∃ t, exec (.rst a addr) s = .next t ∧ Completed .success t ∧ KeptOutside addr.toNat 384 s t ∧
      ∀ i, i < 128 →
        let c0 := coeff (s.readR a) (2 * i)
        let c1 := coeff (s.readR a) (2 * i + 1)
        byteAt t (addr.toNat + 3 * i) = c0 % 256 ∧
        byteAt t (addr.toNat + 3 * i + 1) = c0 / 256 + 16 * (c1 % 16) ∧
        byteAt t (addr.toNat + 3 * i + 2) = c1 / 16 := by
  refine ⟨_, exec_rst a s h, complete_completed _ _, keptOutside_of_stored hwf (complete_buf _ _), fun i hi => ?_⟩
  have hbyte : ∀ k, k < 3 → byteAt (complete .success (memWrite addr.toNat 384 (encodePoly (s.readR a)) s))
      (addr.toNat + 3 * i + k) = ((encodePoly (s.readR a)).getD (3 * i + k) 0).toNat := fun k hk => by
    rw [byteAt, complete_buf, Nat.add_assoc, memWrite_read_inside hwf _ (encodePoly_length _) (by omega)]
  obtain ⟨h0, h1, h2⟩ := encodePoly_bytes (s.readR a) hi
  exact ⟨(hbyte 0 (by decide)).trans h0, (hbyte 1 (by decide)).trans h1, (hbyte 2 (by decide)).trans h2⟩

theorem execRmov_effect (d a : Fin 8) (s : State) :
    ∃ t, exec (.rmov d a) s = .next t ∧ Completed .success t ∧ t.readR d = s.readR a :=
  finishR_next d (s.readR a) s

/-- No loss: Decode_12 undoes Encode_12 (R192). -/
theorem execRld_of_execRst (d a : Fin 8) {addr : Imm16} {s t : State} (h : InBuf addr.toNat 384)
    (hwf : s.buf.wf = true) (ht : exec (.rst a addr) s = .next t) :
    ∃ u, exec (.rld d addr) t = .next u ∧ u.readR d = s.readR a := by
  rw [exec_rst a s h, succeed_eq_next_iff] at ht
  obtain ⟨u, hu, _, hd⟩ := finishR_next d (decodePoly (memRead t addr.toNat 384)) t
  refine ⟨u, (exec_rld d t h).trans hu, ?_⟩
  rw [hd, ht, memRead_congr (complete_buf _ _), memRead_memWrite hwf _ _ _ (encodePoly_length _),
    decodePoly_encodePoly]

/-! ### CBD (R201) -/

/-- The ones among n bits from bit m on. -/
theorem count_true_take_drop (bs : List Bool) (m n : Nat) :
    ((bs.drop m).take n).count true = ∑ j ∈ Finset.range n, (bs.getD (m + j) false).toNat := by
  induction n with
  | zero => simp
  | succ n ih =>
    rw [List.take_add_one, List.count_append, ih, Finset.sum_range_succ, List.getElem?_drop, List.getD_eq_getElem?_getD]
    congr 1
    cases bs[m + n]? with
    | none => rfl
    | some b => cases b <;> rfl

theorem count_true_byteBits (B : Bytes) (m n : Nat) :
    (((byteBits B).drop m).take n).count true = ∑ j ∈ Finset.range n, byteBit B (m + j) := by
  simp only [count_true_take_drop, byteBit_eq_byteBits_getD]

theorem cbdPoly_coeff (eta : Nat) (B : Bytes) {i : Nat} (hi : i < 256) : (coeff (cbdPoly eta B) i : Int) =
    ((∑ j ∈ Finset.range eta, (byteBit B (2 * i * eta + j) : Int)) -
      ∑ j ∈ Finset.range eta, (byteBit B (2 * i * eta + eta + j) : Int)) % 3329 := by
  apply coeff_eq_of_intCast
  rw [cbdPoly, Poly.toList_ofList (by simp), List.getD_eq_getElem _ _ (by simpa using hi), List.getElem_map,
    groups_getElem, show 2 * eta * i = 2 * i * eta by ring, cbdCoeff, List.take_take, List.drop_take, List.drop_drop,
    show min eta (2 * eta) = eta by omega, show 2 * eta - eta = eta by omega, count_true_byteBits, count_true_byteBits]
  push_cast
  simp only [← Nat.cast_sum]
  rfl

theorem exec_cbd (d : Fin 8) {eta : Fin 16} (addr : Imm16) (s : State) (heta : eta = 2 ∨ eta = 3) :
    exec (.cbd d eta addr) s = if !fitsBuf addr.toNat (64 * eta.val) then raise .badDescriptor s
      else finishR d (cbdPoly eta.val (memRead s addr.toNat (64 * eta.val))) s := by
  have hlegal : legalEta eta = true := by rcases heta with rfl | rfl <;> rfl
  rw [exec, execCbd, hlegal]
  rfl

/-! ### RCOMP and RDECOMP (R203, R204) -/

theorem legalBits_of_eq {d : Fin 16} (hd : d = 1 ∨ d = 4 ∨ d = 5 ∨ d = 10 ∨ d = 11) : legalBits d = true := by
  rcases hd with rfl | rfl | rfl | rfl | rfl <;> rfl

theorem mem_of_legalBits : ∀ {d : Fin 16}, legalBits d = true → d.val ∈ [1, 4, 5, 10, 11] := by decide

/-- Field i of RCOMP's bytes, bit by bit. -/
theorem compressPoly_bit (f : Poly) {d i j : Nat} (hi : i < 256) (hj : j < d) :
    byteBit (compressPoly d f) (i * d + j) = (coeff f i * 2 ^ d + 1664) / 3329 % 2 ^ d / 2 ^ j % 2 := by
  have hdecode : decodeBits d (compressPoly d f) = (Poly.nats f).map fun x => compress x d := by
    refine decodeBits_encodeBits (by simp) fun v hv => ?_
    obtain ⟨x, _, rfl⟩ := List.mem_map.1 hv
    exact compress_lt x d
  have hi' : i < (Poly.nats f).length := by simpa using hi
  rw [← decodeBits_bit (compressPoly_length d f) hi hj, hdecode, List.getD_eq_getElem _ _ (by simpa using hi),
    List.getElem_map, ← List.getD_eq_getElem _ 0 hi', nats_getD f hi]
  rfl

/-- The decompressed integers of a byte string are below q. -/
theorem decompress_decodeBits_lt {d : Nat} (hd : d ∈ [1, 4, 5, 10, 11]) (B : Bytes) :
    ∀ v ∈ (decodeBits d B).map fun y => decompress y d, v < 3329 := by
  intro v hv
  obtain ⟨y, hy, rfl⟩ := List.mem_map.1 hv
  exact decompress_lt hd (decodeBits_lt hy)

theorem coeff_decompressPoly {d : Nat} (hd : d ∈ [1, 4, 5, 10, 11]) {B : Bytes} (hB : B.length = 32 * d) {i : Nat}
    (hi : i < 256) : coeff (decompressPoly d B) i = (bitField B (i * d) d * 3329 + 2 ^ (d - 1)) / 2 ^ d := by
  have hi' : i < ((decodeBits d B).map fun y => decompress y d).length := by simpa using hi
  have hlt := decompress_decodeBits_lt hd B _ (List.getElem_mem hi')
  rw [decompressPoly, coeff_ofNats (by simp) hi, List.getD_eq_getElem _ _ hi', Nat.mod_eq_of_lt hlt, List.getElem_map,
    ← List.getD_eq_getElem _ 0, decodeBits_getD hB hi]
  rfl

/-- Compress undoes Decompress, integer by integer (R204). -/
theorem compressPoly_decompressPoly {d : Nat} (hd : d ∈ [1, 4, 5, 10, 11]) {B : Bytes} (hB : B.length = 32 * d) :
    compressPoly d (decompressPoly d B) = B := by
  rw [compressPoly, decompressPoly, Poly.nats_ofNats (by simp) (decompress_decodeBits_lt hd B), List.map_map]
  conv_rhs => rw [← encodeBits_decodeBits hB]
  congr 1
  conv_rhs => rw [← List.map_id (decodeBits d B)]
  exact List.map_congr_left fun y hy => compress_decompress hd (decodeBits_lt hy)

/-- Writing the bytes that stand there changes nothing. -/
theorem memWrite_memRead {s : State} (hwf : s.buf.wf = true) (a n : Nat) :
    (memWrite a n (memRead s a n) s).buf = s.buf := by
  refine Memory.ext_read (memWrite_wf hwf a n _) hwf fun x => ?_
  by_cases hx : x < a ∨ a + n ≤ x
  · exact memWrite_read_outside hwf _ hx
  · obtain ⟨k, rfl⟩ := Nat.exists_eq_add_of_le (show a ≤ x by omega)
    rw [memWrite_read_inside hwf a (memRead_length s a n) (by omega), memRead_getD s a (by omega)]

section Compressor
variable (r : Fin 8) {d : Fin 16} (hd : legalBits d = true)
include hd

theorem exec_rcomp (addr : Imm16) (s : State) : exec (.rcomp r d addr) s =
    if !fitsBuf addr.toNat (32 * d.val) then raise .badDescriptor s
    else succeed (memWrite addr.toNat (32 * d.val) (compressPoly d.val (s.readR r)) s) := by
  rw [exec, execRcomp, hd]
  rfl

theorem exec_rdecomp (addr : Imm16) (s : State) : exec (.rdecomp r d addr) s =
    if !fitsBuf addr.toNat (32 * d.val) then raise .badDescriptor s
    else finishR r (decompressPoly d.val (memRead s addr.toNat (32 * d.val))) s := by
  rw [exec, execRdecomp, hd]
  rfl

variable {addr : Imm16} {s : State} (h : InBuf addr.toNat (32 * d.val))
include h

theorem execRcomp_effect (hwf : s.buf.wf = true) :
    ∃ t, exec (.rcomp r d addr) s = .next t ∧ Completed .success t ∧ KeptOutside addr.toNat (32 * d.val) s t ∧
      ∀ i j, i < 256 → j < d.val →
        byteBit (memRead t addr.toNat (32 * d.val)) (i * d.val + j) =
          (coeff (s.readR r) i * 2 ^ d.val + 1664) / 3329 % 2 ^ d.val / 2 ^ j % 2 := by
  rw [exec_rcomp r hd, ite_fitsBuf_of_inBuf h]
  refine ⟨_, rfl, complete_completed _ _, keptOutside_of_stored hwf (complete_buf _ _), fun i j hi hj => ?_⟩
  rw [memRead_congr (complete_buf _ _), memRead_memWrite hwf _ _ _ (compressPoly_length _ _),
    compressPoly_bit _ hi hj]

theorem execRdecomp_effect :
    ∃ t, exec (.rdecomp r d addr) s = .next t ∧ Completed .success t ∧
      ∀ i, i < 256 →
        let y := ∑ j ∈ Finset.range d.val, byteBit (memRead s addr.toNat (32 * d.val)) (i * d.val + j) * 2 ^ j
        coeff (t.readR r) i = (y * 3329 + 2 ^ (d.val - 1)) / 2 ^ d.val := by
  rw [exec_rdecomp r hd, ite_fitsBuf_of_inBuf h]
  obtain ⟨t, ht, hc, hr⟩ := finishR_next r (decompressPoly d.val (memRead s addr.toNat (32 * d.val))) s
  refine ⟨t, ht, hc, fun i hi => ?_⟩
  rw [hr]
  exact coeff_decompressPoly (mem_of_legalBits hd) (memRead_length _ _ _) hi

/-- RCOMP of what RDECOMP loaded writes the bytes that stand there. -/
theorem execRcomp_of_execRdecomp (hwf : s.buf.wf = true) {t : State} (ht : exec (.rdecomp r d addr) s = .next t) :
    ∃ u, exec (.rcomp r d addr) t = .next u ∧ Completed .success u ∧ u.buf = s.buf := by
  rw [exec_rdecomp r hd, ite_fitsBuf_of_inBuf h, finishR, succeed_eq_next_iff] at ht
  have hbuf : t.buf = s.buf := by rw [ht]; rfl
  have hr : t.readR r = decompressPoly d.val (memRead t addr.toNat (32 * d.val)) := by
    rw [memRead_congr hbuf, ht]
    exact readR_writeR_same r _ s
  rw [exec_rcomp r hd, ite_fitsBuf_of_inBuf h]
  refine ⟨_, rfl, complete_completed _ _, ?_⟩
  rw [complete_buf, hr, compressPoly_decompressPoly (mem_of_legalBits hd) (memRead_length _ _ _),
    memWrite_memRead (hbuf ▸ hwf), hbuf]

end Compressor

/-! ### SAMPLEU (R202, R327) -/

/-- The statements' candidates are Parse's. -/
theorem candidates_eq_parseCandidates (n : Nat) (S : Nat → Byte) : candidates n S = parseCandidates S 0 n := by
  simp only [candidates, parseCandidates, parseLow, parseHigh, Nat.zero_add]
  rfl

theorem parse_eq_none_iff_unparsed (S : Nat → Byte) (n : Nat) : parse n S = none ↔ Unparsed n S := by
  rw [parse_eq_none_iff, Unparsed, candidates_eq_parseCandidates]

theorem parsed_of_parse {S : Nat → Byte} {n : Nat} {f : Poly} (h : parse n S = some f) : Parsed n S f := by
  rw [Parsed, candidates_eq_parseCandidates]
  exact parse_eq_some h

/-- With the seed inside BUF SAMPLEU completes exactly when Parse ends within the budget. -/
theorem sampleuWith_effect (sym : Sym) (d : Fin 8) (a b : Fin 4) {addr : Imm16} {s : State} (h : InBuf addr.toNat 32) :
    ∃ t, sampleuWith sym d a b addr s = .next t ∧
      SampleEffect sym d (BitVec.ofNat 8 a.val) (BitVec.ofNat 8 b.val) addr.toNat s t := by
  have hrun : sampleuWith sym d a b addr s = finishSample d
      (sym.xof (memRead s addr.toNat 32) (BitVec.ofNat 8 a.val) (BitVec.ofNat 8 b.val)) s := ite_fitsBuf_of_inBuf h
  refine ⟨_, hrun, ?_⟩
  simp only [SampleEffect, ← parse_eq_none_iff_unparsed]
  cases hp : parse (parseFuel s) (sym.xof (memRead s addr.toNat 32) (BitVec.ofNat 8 a.val) (BitVec.ofNat 8 b.val)) with
  | none => exact ⟨fun hne => absurd rfl hne, fun _ => ⟨keepParsing_stillRunning s, rfl⟩⟩
  | some f =>
    refine ⟨fun _ => ⟨complete_completed _ _, ?_⟩, fun hnone => by cases hnone⟩
    rw [readR_congr (complete_r _ _), readR_writeR_same]
    exact parsed_of_parse hp

end Sys2Proof.Machine

namespace Sys2Proof.RingClaims

open Sys2Proof.Machine

/-- Settles O42: three bytes are two 12-bit fields (`decodeBits_12_pair`), and Decode undoes Encode. -/
theorem ringLoadStoreAndMove : Obligations.RingLoadStoreAndMove :=
  fun d a _ s => ⟨execRmov_effect d a s, execRld_effect d s, execRst_effect a,
    fun h => ⟨execRld_rejects d s h, execRst_rejects a s h⟩, fun h hwf _ => execRld_of_execRst d a h hwf⟩

/-- Settles O43: the type's own sum and difference in each lane, read as residues. -/
theorem ringSumAndDifferenceLaneByLane : Obligations.RingSumAndDifferenceLaneByLane :=
  fun d a b s => ⟨execRadd_effect d a b s, execRsub_effect d a b s⟩

/-- Settles O48: each half of a group is a count of ones (`count_true_byteBits`). -/
theorem noiseSamplerCountsBits : Obligations.NoiseSamplerCountsBits := by
  intro d eta addr s heta
  rw [exec_cbd d addr s heta]
  refine ⟨fun h => ?_, fun h => ite_fitsBuf_rejects h⟩
  rw [ite_fitsBuf_of_inBuf h]
  obtain ⟨t, ht, hc, hd⟩ := finishR_next d (cbdPoly eta.val (memRead s addr.toNat (64 * eta.val))) s
  exact ⟨t, ht, hc, fun i hi => hd ▸ cbdPoly_coeff _ _ hi⟩

/-- Settles O49: the integers of the 32*d bytes, bit by bit (`decodeBits_bit`), and Compress undoes Decompress. -/
theorem compressorAndDecompressorByTheirFormulas : Obligations.CompressorAndDecompressorByTheirFormulas := by
  intro r d addr s hwidth
  have hd := legalBits_of_eq hwidth
  refine ⟨execRcomp_effect r hd, execRdecomp_effect r hd, fun h => ⟨?_, ?_⟩,
    fun h hwf _ => execRcomp_of_execRdecomp r hd h hwf⟩
  · rw [exec_rcomp r hd]
    exact ite_fitsBuf_rejects h
  · rw [exec_rdecomp r hd]
    exact ite_fitsBuf_rejects h

/-- Settles O50: Parse ends within the budget exactly when its groups hold 256 candidates (`parse_eq_none_iff`), and then
gives the first 256 (`parse_eq_some`). -/
theorem uniformSamplerWritesTheParsedPolynomial : Obligations.UniformSamplerWritesTheParsedPolynomial :=
  fun d a b _ _ => ⟨sampleuWith_effect Config.sym d a b, fun sym => sampleuWith_effect sym d a b, ite_fitsBuf_rejects⟩

end Sys2Proof.RingClaims
end

section
/-! PROOFS. The statements of 44_kyber.md on K-PKE and the key encapsulation: layouts, formulas, the round trip. -/

open Sys2Proof.Claims

namespace Sys2Proof.Machine

/-! ### The byte counts of R15 -/

section Sizes
variable {x : Strength} (hx : x ≠ .unset)
include hx

theorem Strength.pubBytes_eq : x.pubBytes = 384 * x.rank + 32 := by
  cases x with
  | unset => exact absurd rfl hx
  | _ => rfl

theorem Strength.privBytes_eq : x.privBytes = 768 * x.rank + 96 := by
  cases x with
  | unset => exact absurd rfl hx
  | _ => rfl

theorem Strength.ctBytes_eq : x.ctBytes = 32 * x.du * x.rank + 32 * x.dv := by
  cases x with
  | unset => exact absurd rfl hx
  | _ => rfl

theorem Strength.secretBytes_eq : x.secretBytes = 32 := by
  cases x with
  | unset => exact absurd rfl hx
  | _ => rfl

theorem Strength.minEntropy_toNat : x.minEntropy.toNat = 64 := by
  cases x with
  | unset => exact absurd rfl hx
  | _ => rfl

end Sizes

/-! ### Pieces of a byte string -/

theorem slice_append_left {A : Bytes} (B : Bytes) {i j : Nat} (hj : j ≤ A.length) :
    slice (A ++ B) i j = slice A i j := by
  rw [slice, slice, ← List.drop_take, ← List.drop_take, List.take_append_of_le_length hj]

theorem slice_append_right {A : Bytes} (B : Bytes) {n : Nat} (hA : A.length = n) (i j : Nat) :
    slice (A ++ B) (n + i) (n + j) = slice B i j := by
  subst hA
  rw [slice, slice, List.drop_append, Nat.add_sub_add_left, List.drop_eq_nil_of_le (by omega), Nat.add_sub_cancel_left,
    List.nil_append]

theorem slice_eq_self {B : Bytes} {n : Nat} (hB : B.length = n) : slice B 0 n = B := by
  subst hB
  exact List.take_length

/-- Piece i of pieces of n bytes each, whatever follows them. -/
theorem slice_flatMap {α : Type} {g : α → Bytes} {n : Nat} (hg : ∀ a, (g a).length = n) (rest : Bytes) :
    ∀ (l : List α) (i : Nat) (h : i < l.length), slice (l.flatMap g ++ rest) (n * i) (n * i + n) = g l[i] := by
  intro l
  induction l with
  | nil => intro i h; simp at h
  | cons a l ih =>
    intro i h
    rw [List.flatMap_cons, List.append_assoc]
    cases i with
    | zero => rw [Nat.mul_zero, Nat.zero_add, slice_append_left _ (hg a).ge, slice_eq_self (hg a)]; rfl
    | succ i => rw [Nat.mul_succ, Nat.add_comm (n * i) n, Nat.add_assoc, slice_append_right _ (hg a), ih]; rfl

theorem slice_flatMap_range {g : Nat → Bytes} {n k : Nat} (hg : ∀ i, (g i).length = n) (rest : Bytes) {i : Nat}
    (hi : i < k) : slice ((List.range k).flatMap g ++ rest) (n * i) (n * i + n) = g i := by
  rw [slice_flatMap hg rest _ i (by simpa using hi), List.getElem_range]

/-- What follows k pieces of n bytes each. -/
theorem slice_after_flatMap_range {g : Nat → Bytes} {n k m : Nat} (hg : ∀ i, (g i).length = n) {rest : Bytes}
    (hr : rest.length = m) : slice ((List.range k).flatMap g ++ rest) (n * k) (n * k + m) = rest := by
  have hlen : ((List.range k).flatMap g).length = n * k := by rw [flatMap_bytes_length g hg, List.length_range]
  exact (slice_append_right rest hlen 0 m).trans (slice_eq_self hr)

/-- The four parts of sk stand where R238 puts them. -/
theorem slice_privateKey {sk0 pk h z : Bytes} {k : Nat} (hsk0 : sk0.length = 384 * k) (hpk : pk.length = 384 * k + 32)
    (hh : h.length = 32) (hz : z.length = 32) :
    let sk := sk0 ++ pk ++ h ++ z
    sk.length = 768 * k + 96 ∧ slice sk 0 (384 * k) = sk0 ∧ slice sk (384 * k) (768 * k + 32) = pk ∧
      slice sk (768 * k + 32) (768 * k + 64) = h ∧ slice sk (768 * k + 64) (768 * k + 96) = z := by
  intro sk
  have hsk : sk = sk0 ++ (pk ++ (h ++ z)) := by simp only [sk, List.append_assoc]
  have hkeys : (sk0 ++ pk).length = 768 * k + 32 := by rw [List.length_append]; omega
  have hhash : (sk0 ++ pk ++ h).length = 768 * k + 64 := by rw [List.length_append]; omega
  refine ⟨by rw [List.length_append]; omega, ?_, ?_, ?_, ?_⟩
  · rw [hsk, slice_append_left _ hsk0.ge, slice_eq_self hsk0]
  · rw [hsk, show 768 * k + 32 = 384 * k + (384 * k + 32) by ring]
    exact (slice_append_right _ hsk0 0 _).trans ((slice_append_left _ hpk.ge).trans (slice_eq_self hpk))
  · rw [slice_append_left _ hhash.ge]
    exact (slice_append_right h hkeys 0 32).trans (slice_eq_self hh)
  · exact (slice_append_right z hhash 0 32).trans (slice_eq_self hz)

/-! ### Bits of a byte string -/

theorem byteBit_lt (B : Bytes) (i : Nat) : byteBit B i < 2 := Nat.mod_lt _ (by decide)

/-- Byte strings of one length with the same bits are equal (R8). -/
theorem eq_of_byteBit {A B : Bytes} (hlen : A.length = B.length)
    (h : ∀ j, j < 8 * A.length → byteBit A j = byteBit B j) : A = B := by
  refine List.ext_getElem hlen fun i hA hB => BitVec.eq_of_toNat_eq ?_
  have hbits : bitField A (8 * i + 0) 8 = bitField B (8 * i + 0) 8 :=
    Finset.sum_congr rfl fun j hj => by rw [h _ (by have := Finset.mem_range.1 hj; omega)]
  rw [bitField_byte A i (by decide), bitField_byte B i (by decide), List.getD_eq_getElem _ _ hA,
    List.getD_eq_getElem _ _ hB] at hbits
  have ha := A[i].isLt
  have hb := B[i].isLt
  omega

/-! ### Decryption (R234) -/

/-- Bit j of the message is 1 for the coefficients nearer to q/2 than to 0. -/
theorem kpkeDec_bit_iff (x : Strength) (sk0 c : Bytes) {j : Nat} (hj : j < 256) : byteBit (kpkeDec x sk0 c) j = 1 ↔
    833 ≤ coeff (kpkeNoisyMessage x sk0 c) j ∧ coeff (kpkeNoisyMessage x sk0 c) j ≤ 2496 := by
  have hlt : coeff (kpkeNoisyMessage x sk0 c) j < 3329 := Fin.isLt _
  have hbit := compressPoly_bit (kpkeNoisyMessage x sk0 c) (d := 1) hj Nat.zero_lt_one
  rw [Nat.mul_one, Nat.add_zero] at hbit
  rw [kpkeDec, hbit]
  omega

/-- Noise of absolute value at most 831 leaves every bit of the message (R239). -/
theorem kpkeDec_of_noise {x : Strength} {sk0 c m : Bytes} (hm : m.length = 32)
    (h : ∀ j, j < 256 → ∃ e : Int, -831 ≤ e ∧ e ≤ 831 ∧
      (coeff (kpkeNoisyMessage x sk0 c) j : Int) = (1665 * byteBit m j + e) % 3329) : kpkeDec x sk0 c = m := by
  refine eq_of_byteBit (by rw [kpkeDec_length, hm]) fun j hj => ?_
  rw [kpkeDec_length] at hj
  obtain ⟨e, hlo, hhi, he⟩ := h j hj
  have hbit := kpkeDec_bit_iff x sk0 c hj
  have hdec := byteBit_lt (kpkeDec x sk0 c) j
  have hmsg : byteBit m j = 0 ∨ byteBit m j = 1 := by have := byteBit_lt m j; omega
  rcases hmsg with hmsg | hmsg
  · rw [hmsg] at he ⊢
    omega
  · rw [hmsg] at he ⊢
    omega

/-! ### Sums of polynomials (R232 to R234) -/

theorem isSum_polyDot (a b : Nat → Poly) (k : Nat) : IsSum (polyDot ((List.range k).map a) ((List.range k).map b))
    ((List.range k).map fun j => pwPoly (a j) (b j)) := by
  intro l _
  have h := polyDot_val ((List.range k).map a) ((List.range k).map b) l
  rwa [List.zipWith_map, List.zipWith_self] at h

/-- One more summand at the end. -/
theorem isSum_polyAdd {P : Poly} {fs : List Poly} (h : IsSum P fs) (e : Poly) : IsSum (polyAdd P e) (fs ++ [e]) := by
  intro l hl
  rw [polyAdd_coeff, h l hl, Nat.mod_add_mod, List.map_append, List.sum_append, List.map_singleton, List.sum_singleton]

theorem isSum_singleton (f : Poly) : IsSum f [f] := by
  intro l _
  rw [List.map_singleton, List.sum_singleton]
  exact (Nat.mod_eq_of_lt (Fin.isLt _)).symm

/-! ### The matrix (R232, R233) -/

theorem sampleMatrix_eq_none_iff_unparsed (sym : Sym) (fuel k : Nat) (rho : Bytes) (index : Nat → Nat → Nat × Nat) :
    sampleMatrix sym fuel k rho index = none ↔
      ∃ i j, i < k ∧ j < k ∧ Unparsed fuel (matrixStream sym rho (index i j).1 (index i j).2) := by
  simp only [sampleMatrix_eq_none_iff, parse_eq_none_iff_unparsed]
  rfl

theorem sampleMatrix_parsed {sym : Sym} {fuel k : Nat} {rho : Bytes} {index : Nat → Nat → Nat × Nat}
    {m : List (List Poly)} (h : sampleMatrix sym fuel k rho index = some m) :
    ∃ A : Nat → Nat → Poly, m = (List.range k).map (fun i => (List.range k).map (A i)) ∧
      ∀ i j, i < k → j < k → Parsed fuel (matrixStream sym rho (index i j).1 (index i j).2) (A i j) := by
  obtain ⟨A, hm, hA⟩ := sampleMatrix_eq_some h
  exact ⟨A, hm, fun i j hi hj => parsed_of_parse (hA i j hi hj)⟩

/-! ### The keys of K-PKE (R232) -/

theorem kpkeKeyGen_eq_none_iff (sym : Sym) (fuel : Nat) (x : Strength) (d : Bytes) :
    kpkeKeyGen sym fuel x d = none ↔ ∃ i j, i < x.rank ∧ j < x.rank ∧
      Unparsed fuel (matrixStream sym (slice (sym.hash2 d).toList 0 32) i j) := by
  have hmatrix : kpkeKeyGen sym fuel x d = none ↔
      sampleMatrix sym fuel x.rank (slice (sym.hash2 d).toList 0 32) (fun i j => (j, i)) = none := by
    rw [kpkeKeyGen]
    cases sampleMatrix sym fuel x.rank (slice (sym.hash2 d).toList 0 32) fun i j => (j, i) <;> simp
  rw [hmatrix, sampleMatrix_eq_none_iff_unparsed]
  exact ⟨fun ⟨i, j, hi, hj, h⟩ => ⟨j, i, hj, hi, h⟩, fun ⟨i, j, hi, hj, h⟩ => ⟨j, i, hj, hi, h⟩⟩

/-- Both keys as the encodings of their vectors, entry by entry. -/
theorem kpkeKeyGen_vectors {sym : Sym} {fuel : Nat} {x : Strength} {d pk sk0 : Bytes}
    (h : kpkeKeyGen sym fuel x d = some (pk, sk0)) :
    let rho := slice (sym.hash2 d).toList 0 32
    let sigma := slice (sym.hash2 d).toList 32 64
    let shat := fun i => nttPoly (noise sym x.eta1 sigma i)
    let ehat := fun i => nttPoly (noise sym x.eta1 sigma (x.rank + i))
    ∃ A : Nat → Nat → Poly,
      (∀ i j, i < x.rank → j < x.rank → Parsed fuel (matrixStream sym rho j i) (A i j)) ∧
      pk = ((List.range x.rank).flatMap fun i => encodePoly
        (polyAdd (polyDot ((List.range x.rank).map (A i)) ((List.range x.rank).map shat)) (ehat i))) ++ rho ∧
      sk0 = (List.range x.rank).flatMap fun i => encodePoly (shat i) := by
  unfold kpkeKeyGen at h
  simp only at h
  split at h
  · cases h
  · next ahat ha =>
    obtain ⟨A, rfl, hA⟩ := sampleMatrix_parsed ha
    cases h
    refine ⟨A, hA, ?_, ?_⟩
    · simp only [noiseVector, List.map_map, List.zipWith_map, List.zipWith_self, List.flatMap_map, Nat.zero_add]
      rfl
    · simp only [noiseVector, List.map_map, List.flatMap_map, Nat.zero_add]
      rfl

theorem kpkeKeyGen_isKeyPair {sym : Sym} {fuel : Nat} {x : Strength} {d pk sk0 : Bytes}
    (h : kpkeKeyGen sym fuel x d = some (pk, sk0)) : IsKeyPair sym fuel x d pk sk0 := by
  obtain ⟨A, hA, hpk, hsk0⟩ := kpkeKeyGen_vectors h
  refine ⟨?_, A, _, hA, fun i hi => ⟨isSum_polyAdd (isSum_polyDot _ _ _) _, ?_, ?_⟩⟩
  · rw [hpk]
    exact slice_after_flatMap_range (fun _ => encodePoly_length _) (slice_length (by simp))
  · rw [hpk]
    exact slice_flatMap_range (fun _ => encodePoly_length _) _ hi
  · rw [hsk0, ← List.append_nil (List.flatMap _ _)]
    exact slice_flatMap_range (fun _ => encodePoly_length _) _ hi

/-! ### The ciphertext of K-PKE (R233, R238) -/

theorem kpkeEnc_eq_none_iff (sym : Sym) (fuel : Nat) (x : Strength) (pk m r : Bytes) :
    kpkeEnc sym fuel x pk m r = none ↔ ∃ i j, i < x.rank ∧ j < x.rank ∧
      Unparsed fuel (matrixStream sym (slice pk (384 * x.rank) (384 * x.rank + 32)) i j) := by
  have hmatrix : kpkeEnc sym fuel x pk m r = none ↔
      sampleMatrix sym fuel x.rank (slice pk (384 * x.rank) (384 * x.rank + 32)) (fun i j => (i, j)) = none := by
    rw [kpkeEnc]
    cases sampleMatrix sym fuel x.rank (slice pk (384 * x.rank) (384 * x.rank + 32)) fun i j => (i, j) <;> simp
  rw [hmatrix, sampleMatrix_eq_none_iff_unparsed]

/-- The ciphertext as the compressed u, entry by entry, and the compressed v. -/
theorem kpkeEnc_vectors {sym : Sym} {fuel : Nat} {x : Strength} {pk m r c : Bytes}
    (h : kpkeEnc sym fuel x pk m r = some c) :
    let rho := slice pk (384 * x.rank) (384 * x.rank + 32)
    let rhat := (List.range x.rank).map fun j => nttPoly (noise sym x.eta1 r j)
    let that := (List.range x.rank).map (vectorEntry pk)
    ∃ A : Nat → Nat → Poly,
      (∀ i j, i < x.rank → j < x.rank → Parsed fuel (matrixStream sym rho i j) (A i j)) ∧
      c = ((List.range x.rank).flatMap fun i => compressPoly x.du
          (polyAdd (inttPoly (polyDot ((List.range x.rank).map (A i)) rhat)) (noise sym x.eta2 r (x.rank + i)))) ++
        compressPoly x.dv (polyAdd (polyAdd (inttPoly (polyDot that rhat)) (noise sym x.eta2 r (2 * x.rank)))
          (decompressPoly 1 m)) := by
  unfold kpkeEnc at h
  simp only at h
  split at h
  · cases h
  · next athat ha =>
    obtain ⟨A, rfl, hA⟩ := sampleMatrix_parsed ha
    cases h
    refine ⟨A, hA, ?_⟩
    simp only [noiseVector, List.map_map, List.zipWith_map, List.zipWith_self, List.flatMap_map, Nat.zero_add]
    rfl

theorem kpkeEnc_isCiphertext {sym : Sym} {fuel : Nat} {x : Strength} {pk m r c : Bytes}
    (h : kpkeEnc sym fuel x pk m r = some c) : IsCiphertext sym fuel x pk m r c := by
  obtain ⟨A, hA, hc⟩ := kpkeEnc_vectors h
  refine ⟨kpkeEnc_length h, ⟨A, hA, fun i hi => ⟨_, _, isSum_polyDot _ _ _, isSum_polyAdd (isSum_singleton _) _, ?_⟩⟩,
    _, _, isSum_polyDot _ _ _, isSum_polyAdd (isSum_polyAdd (isSum_singleton _) _) _, ?_⟩
  · rw [hc, Nat.mul_succ]
    exact slice_flatMap_range (fun _ => compressPoly_length _ _) _ hi
  · rw [hc]
    exact slice_after_flatMap_range (fun _ => compressPoly_length _ _) (compressPoly_length _ _)

/-- w by its coefficients (R234). -/
theorem kpkeNoisyMessage_isNoisyMessage (x : Strength) (sk0 c : Bytes) :
    IsNoisyMessage x sk0 c (kpkeNoisyMessage x sk0 c) := by
  refine ⟨_, isSum_polyDot _ _ _, fun l hl => ?_⟩
  rw [kpkeNoisyMessage, List.map_map]
  exact polySub_coeff _ _ hl

/-! ### The key encapsulation in terms of K-PKE (R235 to R237) -/

theorem kemKeyGen_eq_none_iff (sym : Sym) (fuel : Nat) (x : Strength) (E : Bytes) :
    kemKeyGen sym fuel x E = none ↔ kpkeKeyGen sym fuel x (slice E 0 32) = none := by
  rw [kemKeyGen]
  cases kpkeKeyGen sym fuel x (slice E 0 32) <;> simp

theorem kemKeyGen_eq_some_iff {sym : Sym} {fuel : Nat} {x : Strength} {E sk pk : Bytes} :
    kemKeyGen sym fuel x E = some (sk, pk) ↔ ∃ sk0, kpkeKeyGen sym fuel x (slice E 0 32) = some (pk, sk0) ∧
      sk = sk0 ++ pk ++ (sym.hash pk).toList ++ slice E 32 64 := by
  rw [kemKeyGen]
  cases kpkeKeyGen sym fuel x (slice E 0 32) with
  | none => simp
  | some keys =>
    obtain ⟨pk', sk0⟩ := keys
    simp only [Option.some.injEq, Prod.mk.injEq]
    constructor
    · rintro ⟨rfl, rfl⟩
      exact ⟨sk0, ⟨rfl, rfl⟩, rfl⟩
    · rintro ⟨_, ⟨rfl, rfl⟩, rfl⟩
      exact ⟨rfl, rfl⟩

theorem kemEncaps_eq_some_iff {sym : Sym} {fuel : Nat} {x : Strength} {pk E K c : Bytes} :
    let m := (sym.hash (slice E 0 32)).toList
    let g := (sym.hash2 (m ++ (sym.hash pk).toList)).toList
    kemEncaps sym fuel x pk E = some (K, c) ↔ kpkeEnc sym fuel x pk m (slice g 32 64) = some c ∧
      K = (sym.kdf (slice g 0 32 ++ (sym.hash c).toList)).toList := by
  intro m g
  have heq : kemEncaps sym fuel x pk E = (kpkeEnc sym fuel x pk m (slice g 32 64)).map fun c =>
      ((sym.kdf (slice g 0 32 ++ (sym.hash c).toList)).toList, c) := by
    rw [kemEncaps]
    cases kpkeEnc sym fuel x pk m (slice g 32 64) <;> rfl
  rw [heq, Option.map_eq_some_iff]
  constructor
  · rintro ⟨c', hc', heq⟩
    cases heq
    exact ⟨hc', rfl⟩
  · rintro ⟨hc, rfl⟩
    exact ⟨c, hc, rfl⟩

theorem kemDecaps_eq_some_iff {sym : Sym} {fuel : Nat} {x : Strength} {sk c K : Bytes} :
    let pk := slice sk (384 * x.rank) (768 * x.rank + 32)
    let h := slice sk (768 * x.rank + 32) (768 * x.rank + 64)
    let z := slice sk (768 * x.rank + 64) (768 * x.rank + 96)
    let m := kpkeDec x (slice sk 0 (384 * x.rank)) c
    let g := (sym.hash2 (m ++ h)).toList
    kemDecaps sym fuel x sk c = some K ↔ ∃ c', kpkeEnc sym fuel x pk m (slice g 32 64) = some c' ∧
      K = (sym.kdf ((if c' = c then slice g 0 32 else z) ++ (sym.hash c).toList)).toList := by
  intro pk h z m g
  have heq : kemDecaps sym fuel x sk c = (kpkeEnc sym fuel x pk m (slice g 32 64)).map fun c' =>
      (sym.kdf ((if c' = c then slice g 0 32 else z) ++ (sym.hash c).toList)).toList := by
    rw [kemDecaps]
    cases kpkeEnc sym fuel x pk m (slice g 32 64) <;> rfl
  simp only [heq, Option.map_eq_some_iff, eq_comm (a := K)]

/-- A generated sk, part by part (R235, R238). -/
theorem kemKeyGen_layout {sym : Sym} {fuel : Nat} {x : Strength} {E sk pk : Bytes} (hE : 64 ≤ E.length)
    (h : kemKeyGen sym fuel x E = some (sk, pk)) :
    kpkeKeyGen sym fuel x (slice E 0 32) = some (pk, slice sk 0 (384 * x.rank)) ∧ pk.length = 384 * x.rank + 32 ∧
      sk.length = 768 * x.rank + 96 ∧ slice sk (384 * x.rank) (768 * x.rank + 32) = pk ∧
      slice sk (768 * x.rank + 32) (768 * x.rank + 64) = (sym.hash pk).toList ∧
      slice sk (768 * x.rank + 64) (768 * x.rank + 96) = slice E 32 64 := by
  obtain ⟨sk0, hkeys, rfl⟩ := kemKeyGen_eq_some_iff.1 h
  obtain ⟨hpk, hsk0⟩ := kpkeKeyGen_length hkeys
  obtain ⟨hlen, hvector, hparts⟩ := slice_privateKey hsk0 hpk Vector.length_toList (slice_length (i := 32) hE)
  exact ⟨hvector.symm ▸ hkeys, hpk, hlen, hparts⟩

/-- The round trip, given that decryption returns the message: both sides encrypt one message with the same coins (R239). -/
theorem kemDecaps_of_kemEncaps {sym : Sym} {f1 f2 : Nat} {x : Strength} {E1 E2 sk pk K c : Bytes} (hE : 64 ≤ E1.length)
    (hkeys : kemKeyGen sym f1 x E1 = some (sk, pk)) (henc : kemEncaps sym f2 x pk E2 = some (K, c))
    (hdec : kpkeDec x (slice sk 0 (384 * x.rank)) c = (sym.hash (slice E2 0 32)).toList) :
    kemDecaps sym f2 x sk c = some K := by
  obtain ⟨_, _, _, hpk, hhash, _⟩ := kemKeyGen_layout hE hkeys
  obtain ⟨hc, hK⟩ := kemEncaps_eq_some_iff.1 henc
  refine kemDecaps_eq_some_iff.2 ⟨c, ?_, ?_⟩
  · rw [hpk, hhash, hdec]
    exact hc
  · rw [if_pos rfl, hhash, hdec]
    exact hK

/-- The last 32 bytes of sk are the rejection seed (R238). -/
theorem slice_rejectionSeed {x : Strength} (hx : x ≠ .unset) {sk : Bytes} (hsk : sk.length = x.privBytes) :
    slice sk (768 * x.rank + 64) (768 * x.rank + 96) = sk.drop (x.privBytes - 32) := by
  rw [Strength.privBytes_eq hx] at hsk ⊢
  exact List.take_of_length_le (by rw [List.length_drop]; omega)

end Sys2Proof.Machine

namespace Sys2Proof.KyberClaims

open Sys2Proof.Machine

/-- Settles O59: decapsulation encrypts what encapsulation encrypted (`kemDecaps_of_kemEncaps`); noise within 831 of 0 or of
1665 stays on its side of 833 and 2496 (`kpkeDec_of_noise`); another ciphertext selects the rejection seed. -/
theorem kyberRoundTripAndImplicitRejection : Obligations.KyberRoundTripAndImplicitRejection := by
  refine ⟨fun sym f1 f2 x E1 E2 sk pk K c _ hE => kemDecaps_of_kemEncaps hE, fun x sk0 c m => kpkeDec_of_noise,
    fun sym fuel x sk c c' hx hsk hc' hne => ?_⟩
  rw [← slice_rejectionSeed hx hsk]
  exact kemDecaps_eq_some_iff.2 ⟨c', hc', by rw [if_neg hne]⟩

/-- Settles O55: the key pair of K-PKE by its vectors (`kpkeKeyGen_isKeyPair`), and the parts of sk
(`kemKeyGen_layout`). -/
theorem kyberKeyPairHasTheSpecsLayout : Obligations.KyberKeyPairHasTheSpecsLayout := by
  refine ⟨fun sym fuel x E => ?_, fun sym fuel x E sk pk hx hE h => ?_⟩
  · rw [kemKeyGen_eq_none_iff, kpkeKeyGen_eq_none_iff]
  · obtain ⟨hkeys, hpk, hsk, hparts⟩ := kemKeyGen_layout hE h
    exact ⟨kpkeKeyGen_isKeyPair hkeys, hsk.trans (Strength.privBytes_eq hx).symm,
      hpk.trans (Strength.pubBytes_eq hx).symm, hparts⟩

/-- Settles O60: the ciphertext by its vectors (`kpkeEnc_isCiphertext`), the message bit by bit (`kpkeDec_bit_iff`), and
the two secrets from them. -/
theorem kyberEncryptionAndEncapsulationByTheirFormulas :
    Obligations.KyberEncryptionAndEncapsulationByTheirFormulas :=
  ⟨rfl, fun sym fuel x pk m r _ => ⟨fun _ => kpkeEnc_isCiphertext, kpkeEnc_eq_none_iff sym fuel x pk m r⟩,
    fun x sk0 c _ => ⟨kpkeNoisyMessage_isNoisyMessage x sk0 c, kpkeDec_length x sk0 c,
      fun _ => kpkeDec_bit_iff x sk0 c⟩,
    fun _ _ _ _ _ _ _ _ => kemEncaps_eq_some_iff, fun _ _ _ _ _ _ _ => kemDecaps_eq_some_iff⟩

end Sys2Proof.KyberClaims
end

section
/-! PROOFS. The statements of 44_kyber.md on the commands: the strength, the order of the checks, and what is written. -/

open Sys2Proof.Claims

namespace Sys2Proof.Machine

/-! ### KYB_INIT (R231) -/

theorem ofImm_eq_some_of_legal {x : Imm16} (h : x.toNat = 512 ∨ x.toNat = 768 ∨ x.toNat = 1024) :
    ∃ y, Strength.ofImm x = some y ∧ y.word.toNat = x.toNat := by
  rw [Strength.ofImm]
  rcases h with h | h | h
  · exact ⟨.s512, by rw [if_pos h], h.symm⟩
  · exact ⟨.s768, by rw [if_neg (by omega), if_pos h], h.symm⟩
  · exact ⟨.s1024, by rw [if_neg (by omega), if_neg (by omega), if_pos h], h.symm⟩

theorem ofImm_eq_none {x : Imm16} (h : ¬ (x.toNat = 512 ∨ x.toNat = 768 ∨ x.toNat = 1024)) :
    Strength.ofImm x = none := by
  rw [Strength.ofImm, if_neg (by omega), if_neg (by omega), if_neg (by omega)]

/-! ### Entropy answers (R76) -/

/-- The bounds of R76 for the strength, on an answer. -/
def KyberAnswerOk (x : Strength) (ans : EntropyAnswer) : Prop :=
  ans.status = 0 ∧ x.minEntropy.toNat ≤ ans.count.toNat ∧ ans.count.toNat ≤ x.maxEntropy.toNat

theorem ite_goodAnswer {x : Strength} {ans : EntropyAnswer} (h : KyberAnswerOk x ans) {α : Type} {a b : α} :
    (if !goodAnswer x.minEntropy x.maxEntropy ans then a else b) = b := by
  rw [(goodAnswer_iff _ _ _).2 h]
  rfl

theorem ite_badAnswer {x : Strength} {ans : EntropyAnswer} (h : ¬ KyberAnswerOk x ans) {α : Type} {a b : α} :
    (if !goodAnswer x.minEntropy x.maxEntropy ans then a else b) = a := by
  rw [Bool.eq_false_iff.2 (mt (goodAnswer_iff _ _ _).1 h)]
  rfl

/-! ### What is written (R80, R235 to R237) -/

/-- Every size of R15 fits in RLEN (R32). -/
theorem Strength.sizes_lt (x : Strength) : x.privBytes < 2 ^ 32 ∧ x.pubBytes < 2 ^ 32 ∧ x.ctBytes < 2 ^ 32 := by
  cases x <;> decide

theorem memRead_of_keptOutside {s t : State} {b n : Nat} (h : KeptOutside b n s t) {a m : Nat}
    (hdisj : a + m ≤ b ∨ b + n ≤ a) : memRead t a m = memRead s a m := by
  refine List.map_congr_left fun i hi => h (a + i) ?_
  have := List.mem_range.1 hi
  omega

/-- Of two strings stored one after the other the second stands whole, the first where the ranges do not meet (R80). -/
theorem memRead_of_twoStores {s t : State} (hwf : s.buf.wf = true) {a n b m : Nat} {A B : Bytes} (hA : A.length = n)
    (hB : B.length = m) (ht : t.buf = (memWrite b m B (memWrite a n A s)).buf) :
    (a + n ≤ b ∨ b + m ≤ a → memRead t a n = A) ∧ memRead t b m = B := by
  have hwf₁ : (memWrite a n A s).buf.wf = true := memWrite_wf hwf _ _ _
  refine ⟨fun hdisj => ?_, ?_⟩
  · rw [memRead_of_keptOutside (keptOutside_of_stored hwf₁ ht) hdisj, memRead_memWrite hwf _ _ _ hA]
  · rw [memRead_congr ht, memRead_memWrite hwf₁ _ _ _ hB]

/-- A good answer gives keys of the lengths of R15. -/
theorem kemKeyGen_lengths {sym : Sym} {fuel : Nat} {x : Strength} {ans : EntropyAnswer} {sk pk : Bytes}
    (hx : x ≠ .unset) (hgood : KyberAnswerOk x ans) (h : kemKeyGen sym fuel x ans.bytes = some (sk, pk)) :
    sk.length = x.privBytes ∧ pk.length = x.pubBytes := by
  obtain ⟨_, hmin, _⟩ := hgood
  rw [Strength.minEntropy_toNat hx, ← ans.bytes_length] at hmin
  obtain ⟨_, hpk, hsk, _⟩ := kemKeyGen_layout hmin h
  exact ⟨hsk.trans (Strength.privBytes_eq hx).symm, hpk.trans (Strength.pubBytes_eq hx).symm⟩

theorem kemEncaps_lengths {sym : Sym} {fuel : Nat} {x : Strength} {pk E K c : Bytes} (hx : x ≠ .unset)
    (h : kemEncaps sym fuel x pk E = some (K, c)) : K.length = 32 ∧ c.length = x.ctBytes := by
  obtain ⟨hc, rfl⟩ := kemEncaps_eq_some_iff.1 h
  exact ⟨Vector.length_toList, (kpkeEnc_length hc).trans (Strength.ctBytes_eq hx).symm⟩

theorem kemDecaps_length {sym : Sym} {fuel : Nat} {x : Strength} {sk c K : Bytes}
    (h : kemDecaps sym fuel x sk c = some K) : K.length = 32 := by
  obtain ⟨_, _, rfl⟩ := kemDecaps_eq_some_iff.1 h
  exact Vector.length_toList

theorem kybKeygenWrites_effect {s : State} (hwf : s.buf.wf = true) {sk pk : Bytes}
    (hlen : sk.length = s.strength.privBytes ∧ pk.length = s.strength.pubBytes) :
    let t := complete .success (kybKeygenWrites sk pk s)
    (argNat s 0 + s.strength.privBytes ≤ argNat s 2 ∨ argNat s 2 + s.strength.pubBytes ≤ argNat s 0 →
      memRead t (argNat s 0) s.strength.privBytes = sk) ∧
      memRead t (argNat s 2) s.strength.pubBytes = pk ∧
      t.rlen0.toNat = s.strength.privBytes ∧ t.rlen1.toNat = s.strength.pubBytes := by
  intro t
  obtain ⟨hpriv, hpub, _⟩ := s.strength.sizes_lt
  obtain ⟨hfirst, hsecond⟩ := memRead_of_twoStores (t := t) hwf hlen.1 hlen.2 rfl
  exact ⟨hfirst, hsecond, Nat.mod_eq_of_lt hpriv, Nat.mod_eq_of_lt hpub⟩

theorem kybEncapsWrites_effect {s : State} (hs : s.strength ≠ .unset) (hwf : s.buf.wf = true) {K c : Bytes}
    (hlen : K.length = 32 ∧ c.length = s.strength.ctBytes) :
    let t := complete .success (kybEncapsWrites K c s)
    c.length = s.strength.ctBytes ∧
      (argNat s 2 + 32 ≤ argNat s 4 ∨ argNat s 4 + s.strength.ctBytes ≤ argNat s 2 → memRead t (argNat s 2) 32 = K) ∧
      memRead t (argNat s 4) s.strength.ctBytes = c ∧ t.rlen0 = 32 ∧ t.rlen1.toNat = s.strength.ctBytes := by
  obtain ⟨hK, hc⟩ := hlen
  obtain ⟨_, _, hct⟩ := s.strength.sizes_lt
  rw [kybEncapsWrites, Strength.secretBytes_eq hs]
  intro t
  obtain ⟨hfirst, hsecond⟩ := memRead_of_twoStores (t := t) hwf hK hc rfl
  exact ⟨hc, hfirst, hsecond, rfl, Nat.mod_eq_of_lt hct⟩

theorem kybDecapsWrites_effect {s : State} (hs : s.strength ≠ .unset) (hwf : s.buf.wf = true) {K : Bytes}
    (hK : K.length = 32) :
    let t := complete .success (kybDecapsWrites K s)
    K.length = 32 ∧ memRead t (argNat s 4) 32 = K ∧ KeptOutside (argNat s 4) 32 s t ∧ t.rlen0 = 32 ∧
      t.rlen1 = s.rlen1 := by
  rw [kybDecapsWrites, Strength.secretBytes_eq hs]
  intro t
  have ht : t.buf = (memWrite (argNat s 4) 32 K s).buf := rfl
  refine ⟨hK, ?_, keptOutside_of_stored hwf ht, rfl, rfl⟩
  rw [memRead_congr ht, memRead_memWrite hwf _ _ _ hK]

/-! ### KYB_KEYGEN: what it answers (R235) -/

/-- Both outputs of KYB_KEYGEN have room (R235). -/
def KyberKeygenRoom (s : State) : Prop := s.strength.privBytes ≤ argNat s 1 ∧ s.strength.pubBytes ≤ argNat s 3

theorem kyberKeygenRoom_iff (s : State) :
    ¬ (descCount s 0 < s.strength.privBytes ∨ descCount s 1 < s.strength.pubBytes) ↔ KyberKeygenRoom s := by
  rw [not_or, Nat.not_lt, Nat.not_lt]
  rfl

section KyberKeygen
variable (sym : Sym) {s : State}

theorem kybKeygenWith_rejects_strength (hs : s.strength = .unset) :
    kybKeygenWith sym s = raise .invalidStrength s := by
  rw [kybKeygenWith, if_pos hs]

variable (hs : s.strength ≠ .unset)
include hs

theorem kybKeygenWith_rejects_range (hout : ¬ KeygenInside s) : kybKeygenWith sym s = raise .badDescriptor s := by
  rw [kybKeygenWith, if_neg hs, if_pos (not_not.1 (mt (keygenInside_iff s).1 hout))]

variable (hin : KeygenInside s)
include hin

theorem kybKeygenWith_rejects_capacity (hsmall : ¬ KyberKeygenRoom s) :
    kybKeygenWith sym s = raise .memoryFail s := by
  rw [kybKeygenWith, if_neg hs, if_neg ((keygenInside_iff s).2 hin),
    if_pos (not_not.1 (mt (kyberKeygenRoom_iff s).1 hsmall))]

variable (hroom : KyberKeygenRoom s)
include hroom

theorem kybKeygenWith_asks (hrsp : s.engine.entRsp = none) :
    kybKeygenWith sym s = requestEntropy s.strength.minEntropy s.strength.maxEntropy s := by
  rw [kybKeygenWith, if_neg hs, if_neg ((keygenInside_iff s).2 hin), if_neg ((kyberKeygenRoom_iff s).2 hroom), hrsp]

variable {ans : EntropyAnswer} (hrsp : s.engine.entRsp = some ans)
include hrsp

theorem kybKeygenWith_rejects_answer (hbad : ¬ KyberAnswerOk s.strength ans) :
    kybKeygenWith sym s = raise .entropyFail s := by
  rw [kybKeygenWith, if_neg hs, if_neg ((keygenInside_iff s).2 hin), if_neg ((kyberKeygenRoom_iff s).2 hroom), hrsp]
  exact ite_badAnswer hbad

variable (hgood : KyberAnswerOk s.strength ans)
include hgood

theorem kybKeygenWith_of_answer : kybKeygenWith sym s =
    .next ((kemKeyGen sym (parseFuel s) s.strength ans.bytes).elim (keepParsing s) fun keys =>
      complete .success (kybKeygenWrites keys.1 keys.2 s)) := by
  rw [kybKeygenWith, if_neg hs, if_neg ((keygenInside_iff s).2 hin), if_neg ((kyberKeygenRoom_iff s).2 hroom), hrsp]
  refine (ite_goodAnswer hgood).trans ?_
  cases kemKeyGen sym (parseFuel s) s.strength ans.bytes <;> rfl

/-- A good answer's key pair is written, or its Parse goes on (R235, R327). -/
theorem kybKeygenWith_effect (hwf : s.buf.wf = true) :
    ∃ t, kybKeygenWith sym s = .next t ∧ KeygenEffect sym ans s t := by
  refine ⟨_, kybKeygenWith_of_answer sym hs hin hroom hrsp hgood, fun hnone => ?_, fun sk pk hkeys => ?_⟩
  · rw [hnone]
    exact keepParsing_stillRunning s
  · rw [hkeys]
    exact ⟨complete_completed _ _, kybKeygenWrites_effect hwf (kemKeyGen_lengths hs hgood hkeys)⟩

end KyberKeygen

/-! ### KYB_ENCAPS: what it answers (R236) -/

/-- Both outputs of KYB_ENCAPS have room (R236). -/
def KyberEncapsRoom (s : State) : Prop := s.strength.secretBytes ≤ argNat s 3 ∧ s.strength.ctBytes ≤ argNat s 5

theorem kyberEncapsRoom_iff (s : State) :
    ¬ (descCount s 1 < s.strength.secretBytes ∨ descCount s 2 < s.strength.ctBytes) ↔ KyberEncapsRoom s := by
  rw [not_or, Nat.not_lt, Nat.not_lt]
  rfl

section KyberEncaps
variable (sym : Sym) {s : State}

theorem kybEncapsWith_rejects_strength (hs : s.strength = .unset) :
    kybEncapsWith sym s = raise .invalidStrength s := by
  rw [kybEncapsWith, if_pos hs]

variable (hs : s.strength ≠ .unset)
include hs

theorem kybEncapsWith_rejects_range (hout : ¬ SecretInside s) : kybEncapsWith sym s = raise .badDescriptor s := by
  rw [kybEncapsWith, if_neg hs, if_pos (not_not.1 (mt (secretInside_iff s).1 hout))]

variable (hin : SecretInside s)
include hin

theorem kybEncapsWith_rejects_capacity (hsmall : ¬ KyberEncapsRoom s) :
    kybEncapsWith sym s = raise .memoryFail s := by
  rw [kybEncapsWith, if_neg hs, if_neg ((secretInside_iff s).2 hin),
    if_pos (not_not.1 (mt (kyberEncapsRoom_iff s).1 hsmall))]

variable (hroom : KyberEncapsRoom s)
include hroom

theorem kybEncapsWith_rejects_pubkey (hlen : argNat s 1 ≠ s.strength.pubBytes) :
    kybEncapsWith sym s = raise .invalidPubkey s := by
  rw [kybEncapsWith, if_neg hs, if_neg ((secretInside_iff s).2 hin), if_neg ((kyberEncapsRoom_iff s).2 hroom)]
  exact if_pos hlen

variable (hlen : argNat s 1 = s.strength.pubBytes)
include hlen

theorem kybEncapsWith_asks (hrsp : s.engine.entRsp = none) :
    kybEncapsWith sym s = requestEntropy s.strength.minEntropy s.strength.maxEntropy s := by
  rw [kybEncapsWith, if_neg hs, if_neg ((secretInside_iff s).2 hin), if_neg ((kyberEncapsRoom_iff s).2 hroom),
    if_neg (c := descCount s 0 ≠ s.strength.pubBytes) (not_not.2 hlen), hrsp]

variable {ans : EntropyAnswer} (hrsp : s.engine.entRsp = some ans)
include hrsp

theorem kybEncapsWith_rejects_answer (hbad : ¬ KyberAnswerOk s.strength ans) :
    kybEncapsWith sym s = raise .entropyFail s := by
  rw [kybEncapsWith, if_neg hs, if_neg ((secretInside_iff s).2 hin), if_neg ((kyberEncapsRoom_iff s).2 hroom),
    if_neg (c := descCount s 0 ≠ s.strength.pubBytes) (not_not.2 hlen), hrsp]
  exact ite_badAnswer hbad

variable (hgood : KyberAnswerOk s.strength ans)
include hgood

theorem kybEncapsWith_of_answer : kybEncapsWith sym s =
    .next ((kemEncaps sym (parseFuel s) s.strength (memRead s (argNat s 0) s.strength.pubBytes) ans.bytes).elim
      (keepParsing s) fun outputs => complete .success (kybEncapsWrites outputs.1 outputs.2 s)) := by
  rw [kybEncapsWith, if_neg hs, if_neg ((secretInside_iff s).2 hin), if_neg ((kyberEncapsRoom_iff s).2 hroom),
    if_neg (c := descCount s 0 ≠ s.strength.pubBytes) (not_not.2 hlen), hrsp]
  refine (ite_goodAnswer hgood).trans ?_
  rw [descAddr_zero, ← argNat]
  cases kemEncaps sym (parseFuel s) s.strength (memRead s (argNat s 0) s.strength.pubBytes) ans.bytes <;> rfl

/-- A good answer's secret and ciphertext are written, or a Parse goes on (R236, R327). -/
theorem kybEncapsWith_effect (hwf : s.buf.wf = true) :
    ∃ t, kybEncapsWith sym s = .next t ∧ EncapsEffect sym ans s t := by
  refine ⟨_, kybEncapsWith_of_answer sym hs hin hroom hlen hrsp hgood, fun hnone => ?_, fun K c henc => ?_⟩
  · rw [hnone]
    exact keepParsing_stillRunning s
  · rw [henc]
    exact ⟨complete_completed _ _, kybEncapsWrites_effect hs hwf (kemEncaps_lengths hs henc)⟩

end KyberEncaps

/-! ### KYB_DECAPS: what it answers (R237) -/

section KyberDecaps
variable (sym : Sym) {s : State}

theorem kybDecapsWith_rejects_strength (hs : s.strength = .unset) :
    kybDecapsWith sym s = raise .invalidStrength s := by
  rw [kybDecapsWith, if_pos hs]

variable (hs : s.strength ≠ .unset)
include hs

theorem kybDecapsWith_rejects_range (hout : ¬ SecretInside s) : kybDecapsWith sym s = raise .badDescriptor s := by
  rw [kybDecapsWith, if_neg hs, if_pos (not_not.1 (mt (secretInside_iff s).1 hout))]

variable (hin : SecretInside s)
include hin

theorem kybDecapsWith_rejects_capacity (hsmall : argNat s 5 < s.strength.secretBytes) :
    kybDecapsWith sym s = raise .memoryFail s := by
  rw [kybDecapsWith, if_neg hs, if_neg ((secretInside_iff s).2 hin)]
  exact if_pos hsmall

variable (hroom : s.strength.secretBytes ≤ argNat s 5)
include hroom

theorem kybDecapsWith_rejects_privkey (hpriv : argNat s 1 ≠ s.strength.privBytes) :
    kybDecapsWith sym s = raise .invalidPrivkey s := by
  rw [kybDecapsWith, if_neg hs, if_neg ((secretInside_iff s).2 hin),
    if_neg (c := descCount s 2 < s.strength.secretBytes) (Nat.not_lt.2 hroom)]
  exact if_pos hpriv

variable (hpriv : argNat s 1 = s.strength.privBytes)
include hpriv

theorem kybDecapsWith_rejects_ciphertext (hct : argNat s 3 ≠ s.strength.ctBytes) :
    kybDecapsWith sym s = raise .invalidCiphertext s := by
  rw [kybDecapsWith, if_neg hs, if_neg ((secretInside_iff s).2 hin),
    if_neg (c := descCount s 2 < s.strength.secretBytes) (Nat.not_lt.2 hroom),
    if_neg (c := descCount s 0 ≠ s.strength.privBytes) (not_not.2 hpriv)]
  exact if_pos hct

variable (hct : argNat s 3 = s.strength.ctBytes)
include hct

theorem kybDecapsWith_of_lengths : kybDecapsWith sym s =
    .next ((kemDecaps sym (parseFuel s) s.strength (memRead s (argNat s 0) s.strength.privBytes)
        (memRead s (argNat s 2) s.strength.ctBytes)).elim (keepParsing s) fun K =>
      complete .success (kybDecapsWrites K s)) := by
  rw [kybDecapsWith, if_neg hs, if_neg ((secretInside_iff s).2 hin),
    if_neg (c := descCount s 2 < s.strength.secretBytes) (Nat.not_lt.2 hroom),
    if_neg (c := descCount s 0 ≠ s.strength.privBytes) (not_not.2 hpriv),
    if_neg (c := descCount s 1 ≠ s.strength.ctBytes) (not_not.2 hct), descAddr_zero, descAddr_one, ← argNat, ← argNat]
  cases kemDecaps sym (parseFuel s) s.strength (memRead s (argNat s 0) s.strength.privBytes)
    (memRead s (argNat s 2) s.strength.ctBytes) <;> rfl

/-- The secret is written, or the Parse of the encryption goes on (R237, R327). -/
theorem kybDecapsWith_effect (hwf : s.buf.wf = true) :
    ∃ t, kybDecapsWith sym s = .next t ∧ DecapsEffect sym s t := by
  refine ⟨_, kybDecapsWith_of_lengths sym hs hin hroom hpriv hct, fun hnone => ?_, fun K hdec => ?_⟩
  · rw [hnone]
    exact ⟨keepParsing_stillRunning s, rfl⟩
  · rw [hdec]
    exact ⟨complete_completed _ _, kybDecapsWrites_effect hs hwf (kemDecaps_length hdec)⟩

end KyberDecaps

end Sys2Proof.Machine

namespace Sys2Proof.KyberClaims

open Sys2Proof.Machine

/-- Settles O52: the three strengths and every other value (`ofImm_eq_some_of_legal`, `ofImm_eq_none`). -/
theorem kyberInitSelectsTheStrength : Obligations.KyberInitSelectsTheStrength := by
  intro x s
  refine ⟨fun h => ?_, fun h => ?_⟩
  · obtain ⟨y, hy, hword⟩ := ofImm_eq_some_of_legal h
    rw [exec, execKybInit, hy]
    exact ⟨_, rfl, complete_completed _ _, hword, complete_sameData .success s⟩
  · rw [exec, execKybInit, ofImm_eq_none h]
    exact raise_rejected _ _

/-- Settles O53: each check of R235 in its order. -/
theorem kyberKeygenChecksInTheFixedOrder : Obligations.KyberKeygenChecksInTheFixedOrder := by
  intro s
  refine ⟨fun hs => ?_, fun hs hout => ?_, fun hs hin hsmall => ?_, fun hs hin hroom hrsp => ?_,
    fun ans hs hin hroom hrsp hbad => ?_⟩ <;> rw [exec, execKybKeygen]
  · rw [kybKeygenWith_rejects_strength _ hs]
    exact raise_rejected _ _
  · rw [kybKeygenWith_rejects_range _ hs hout]
    exact raise_rejected _ _
  · rw [kybKeygenWith_rejects_capacity _ hs hin hsmall]
    exact raise_rejected _ _
  · obtain ⟨t, ht, hrun, hengine⟩ := requestEntropy_stillRunning s.strength.minEntropy s.strength.maxEntropy s
    exact ⟨t, (kybKeygenWith_asks _ hs hin hroom hrsp).trans ht, hrun, by rw [hengine]⟩
  · rw [kybKeygenWith_rejects_answer _ hs hin hroom hrsp hbad]
    exact raise_rejected _ _

/-- Settles O54: the keys of the generator, the public key stored last (`kybKeygenWith_effect`). -/
theorem kyberKeygenWritesBothKeys : Obligations.KyberKeygenWritesBothKeys := by
  intro s ans hwf hs hin0 hin1 hroom0 hroom1 hrsp hstatus hmin hmax
  have heffect (sym : Sym) := kybKeygenWith_effect sym hs ⟨hin0, hin1⟩ ⟨hroom0, hroom1⟩ hrsp ⟨hstatus, hmin, hmax⟩ hwf
  exact ⟨heffect Config.sym, heffect⟩

/-- Settles O56: each check of R236 in its order, capacity before key length (C2). -/
theorem kyberEncapsChecksInTheFixedOrder : Obligations.KyberEncapsChecksInTheFixedOrder := by
  intro s
  refine ⟨fun hs => ?_, fun hs hout => ?_, fun hs hin hsmall => ?_, fun hs hin hroom hlen => ?_,
    fun hs hin hroom hlen hrsp => ?_, fun ans hs hin hroom hlen hrsp hbad => ?_⟩ <;> rw [exec, execKybEncaps]
  · rw [kybEncapsWith_rejects_strength _ hs]
    exact raise_rejected _ _
  · rw [kybEncapsWith_rejects_range _ hs hout]
    exact raise_rejected _ _
  · rw [kybEncapsWith_rejects_capacity _ hs hin hsmall]
    exact raise_rejected _ _
  · rw [kybEncapsWith_rejects_pubkey _ hs hin hroom hlen]
    exact raise_rejected _ _
  · obtain ⟨t, ht, hrun, hengine⟩ := requestEntropy_stillRunning s.strength.minEntropy s.strength.maxEntropy s
    exact ⟨t, (kybEncapsWith_asks _ hs hin hroom hlen hrsp).trans ht, hrun, by rw [hengine]⟩
  · rw [kybEncapsWith_rejects_answer _ hs hin hroom hlen hrsp hbad]
    exact raise_rejected _ _

/-- Settles O57: the secret and the ciphertext, the ciphertext stored last (`kybEncapsWith_effect`). -/
theorem kyberEncapsWritesSecretAndCiphertext : Obligations.KyberEncapsWritesSecretAndCiphertext := by
  intro s ans hwf hs hin0 hin1 hin2 hroom1 hroom2 hlen hrsp hstatus hmin hmax
  have heffect (sym : Sym) := kybEncapsWith_effect sym hs ⟨hin0, hin1, hin2⟩ ⟨hroom1, hroom2⟩ hlen hrsp
    ⟨hstatus, hmin, hmax⟩ hwf
  exact ⟨heffect Config.sym, heffect⟩

/-- Settles O58: each check of R237 in its order, then the secret (`kybDecapsWith_effect`). -/
theorem kyberDecapsRejectsByLengthsOnly : Obligations.KyberDecapsRejectsByLengthsOnly := by
  intro s
  refine ⟨fun hs => ?_, fun hs hout => ?_, fun hs hin hsmall => ?_, fun hs hin hroom hpriv => ?_,
    fun hs hin hroom hpriv hct => ?_, fun hs hin hroom hpriv hct hwf => ?_⟩ <;> rw [exec, execKybDecaps]
  · rw [kybDecapsWith_rejects_strength _ hs]
    exact raise_rejected _ _
  · rw [kybDecapsWith_rejects_range _ hs hout]
    exact raise_rejected _ _
  · rw [kybDecapsWith_rejects_capacity _ hs hin hsmall]
    exact raise_rejected _ _
  · rw [kybDecapsWith_rejects_privkey _ hs hin hroom hpriv]
    exact raise_rejected _ _
  · rw [kybDecapsWith_rejects_ciphertext _ hs hin hroom hpriv hct]
    exact raise_rejected _ _
  · have heffect (sym : Sym) := kybDecapsWith_effect sym hs hin hroom hpriv hct hwf
    exact ⟨heffect Config.sym, heffect⟩

end Sys2Proof.KyberClaims
end

section
/-! PROOFS. The statements of 45_system.md: NOP and ZEROIZE. -/

open Sys2Proof.Claims

namespace Sys2Proof

/-! ### The words of a format N opcode (R91, R98) -/

/-- A format N opcode has one legal word. -/
theorem decode_error_of_formN {w : Word} {op : BitVec 8} {c : Instr} (hop : opField w = op)
    (hd : decode w = formN w c) (hne : w ≠ wordN op) : ∃ e, decode w = .error e := by
  cases h : decode w with
  | error e => exact ⟨e, rfl⟩
  | ok i =>
    obtain ⟨hw, -⟩ := formN_eq_ok_iff.1 (hd.symm.trans h)
    exact absurd (hop ▸ hw.symm) hne

end Sys2Proof

namespace Sys2Proof.Machine

/-! ### A command from its CMD write to its end (R24, R28) -/

theorem run_succ_of_step {M : Host.Core} {s t : M.State} (h : M.step s = .next t) (k : Nat) :
    M.run (k + 1) s = M.run k t := by
  rw [Host.Core.run, h]

theorem coreMoves_succ_of_step {s t : State} (h : step s = .next t) (k : Nat) :
    coreMoves (k + 1) s = coreMoves k t :=
  run_succ_of_step (M := core) h k

/-- The CMD write is one step and the run of the accepted command the next. -/
theorem coreMoves_two_of_cmdWrite {s t : State} {w : Word} {i : Instr} (ha : s.agenda = [.hostWrite 1#15 w])
    (hb : s.status.busy = false) (hd : decode w = .ok i) (ht : exec i (accept w { s with agenda := [] }) = .next t) :
    coreMoves 2 s = .next t := by
  have hwrite : step s = .next (accept w { s with agenda := [] }) := by
    rw [step_hostWrite ha, hostWrite_cmd]
    simp [hb]
  have hrun : step (accept w { s with agenda := [] }) = .next t := by
    rw [step_eq_coreMove (rest := []) (.inl ⟨rfl, rfl⟩)]
    exact (coreMove_of_decode (s := accept w { s with agenda := [] }) rfl rfl hd).trans ht
  rw [coreMoves_succ_of_step hwrite, coreMoves_succ_of_step hrun]
  rfl

/-! ### ERR and CODE after a completion (R29, R280) -/

theorem Completed.errBit_eq_false {t : State} (h : Completed .success t) : t.statusWord.getLsbD 2 = false := by
  obtain ⟨-, -, hcode, -⟩ := h
  rw [statusWord_getLsbD]
  simp [Status.err, hcode]

theorem Completed.codeByte_eq {c : Code} {t : State} (h : Completed c t) : t.status.code.byte = c.byte := by
  obtain ⟨-, -, hcode, -⟩ := h
  rw [hcode]

/-! ### The state ZEROIZE leaves (R45, R271) -/

/-- The reset state but for STRENGTH, CTRL.IE, CMD, WERR, DONE and the two fields that are no state of the block. -/
theorem complete_eraseData_eq (s : State) : complete .success (eraseData s) =
    { State.reset with
      strength := s.strength, ie := s.ie, cmd := s.cmd, hRdata := s.hRdata, agenda := s.agenda,
      status := { Status.reset with werr := s.status.werr, done := true } } := rfl

/-- ID is no state (R27). -/
theorem hostRead_id (s : State) : hostRead s 0#15 = Config.idValue := by
  rw [hostRead, hostReg_id, readReg]

end Sys2Proof.Machine

namespace Sys2Proof.SystemClaims

open Sys2Proof.Machine

/-- Settles O27: NOP's meaning is the completion with SUCCESS, also of the state its CMD write leaves. -/
theorem nopOnlyCompletes : Obligations.NopOnlyCompletes := by
  have hdecode : decode 0x00000000 = .ok .nop := decode_encode .nop rfl
  refine ⟨hdecode, fun w hop => decode_error_of_formN hop (decode_nop hop), fun s => ?_, fun s ha hb => ?_, rfl, rfl⟩
  · have hc : Completed .success (complete .success s) := complete_completed _ s
    exact ⟨_, rfl, hc, complete_sameData _ s, hc.errBit_eq_false, hc.codeByte_eq⟩
  · -- the acceptance writes CMD and what `SameData` leaves out
    exact ⟨_, coreMoves_two_of_cmdWrite ha hb hdecode rfl, complete_completed _ _,
      complete_sameData .success (accept 0 { s with agenda := [] })⟩

/-- Settles O28: the state ZEROIZE leaves is the reset state but for the fields it keeps (`complete_eraseData_eq`), and
reads as the reset state does. -/
theorem zeroizeErasesAllButStrengthEnableAndWerr : Obligations.ZeroizeErasesAllButStrengthEnableAndWerr := by
  refine ⟨decode_encode .zeroize rfl, fun w hop => decode_error_of_formN hop (decode_zeroize hop), fun s => ?_⟩
  have hf (i : Fin 16) : (complete .success (eraseData s)).readF i = 0 := (readF_congr rfl i).trans (readF_reset i)
  have hp (i : Fin 4) : (complete .success (eraseData s)).readP i = Point.zero := readP_of_erased rfl i
  have hr (i : Fin 8) : (complete .success (eraseData s)).readR i = Poly.zero :=
    (readR_congr rfl i).trans (readR_reset i)
  have hid : hostRead (complete .success (eraseData s)) 0#15 = hostRead s 0#15 :=
    (hostRead_id _).trans (hostRead_id s).symm
  exact ⟨_, rfl, complete_completed _ _, hf, hp, fun i j => hr i ▸ coeff_zero j, Memory.read_nil, readArg_reset,
    rfl, rfl, rfl, rfl, rfl, rfl, rfl, rfl, hid, rfl, complete_eraseData_eq s⟩

end Sys2Proof.SystemClaims
end

section
/-! PROOFS. The statements of 60_exceptions.md: how a command ends, with which codes, and the interrupt line. -/

namespace Sys2Proof.Machine

/-! ### How a command ends (R283, R284) -/

/-- What the effects of a command come to: it is rejected, it ends with SUCCESS, or it goes on. -/
inductive Ending (i : Instr) (s t : State) : Prop
  | rejected (c : Code) (hm : c ∈ codesOf i ∨ (c = .illegalCmd ∧ i.wellFormed = false)) (h : Rejected c s t)
  | succeeded (h : Completed .success t)
  | goesOn (h : StillRunning s t) (he : t.engine ≠ Engine.idle)
    (hi : (entropyRequest i s.strength).isSome = true ∨ usesParse i = true)

theorem Effect.ending {i : Instr} {s t : State} (he : Effect i s t) : Ending i s t := by
  cases he with
  | rejects c _ hm => exact .rejected c hm ⟨complete_completed c s, complete_sameData c s⟩
  | asks q hq =>
    obtain ⟨t, ht, hrun, -⟩ := requestEntropy_stillRunning q.min q.max s
    cases ht
    exact .goesOn hrun (by simp [Engine.idle]) (.inl (by simp [hq]))
  | parses hp => exact .goesOn (keepParsing_stillRunning s) (by simp [Engine.idle]) (.inr hp)
  | _ => exact .succeeded (complete_completed _ _)

theorem ending_of_exec {i : Instr} {s t : State} (h : exec i s = .next t) : Ending i s t :=
  (effect_of_exec h).ending

/-- A state has completed with one code at most. -/
theorem Completed.code_unique {c c' : Code} {t : State} (h : Completed c t) (h' : Completed c' t) : c = c' := by
  obtain ⟨-, -, hc, -⟩ := h
  obtain ⟨-, -, hc', -⟩ := h'
  exact hc.symm.trans hc'

/-- Every row of the matrix marks SUCCESS (R281). -/
theorem success_mem_codesOf (i : Instr) : .success ∈ codesOf i := by
  cases i <;> exact List.mem_cons_self

theorem Ending.sameData {i : Instr} {s t : State} {c : Code} (he : Ending i s t) (hc : Completed c t)
    (hne : c ≠ .success) : SameData s t := by
  cases he with
  | rejected _ _ h => exact h.2
  | succeeded h => exact absurd (hc.code_unique h) hne
  | goesOn h => exact h.2

theorem Ending.code_mem {i : Instr} {s t : State} {c : Code} (he : Ending i s t) (hi : i.wellFormed = true)
    (hc : Completed c t) : c ∈ codesOf i := by
  cases he with
  | rejected c' hm h =>
    rw [hc.code_unique h.1]
    refine hm.resolve_right fun ⟨_, hbad⟩ => ?_
    rw [hi] at hbad
    cases hbad
  | succeeded h =>
    rw [hc.code_unique h]
    exact success_mem_codesOf i
  | goesOn _ he =>
    obtain ⟨-, -, -, hidle⟩ := hc
    exact absurd hidle he

/-! ### The interrupt line (R286) -/

@[simp] theorem irq_complete (c : Code) (s : State) : (complete c s).irq = s.ie := rfl

@[simp] theorem irq_accept (w : Word) (s : State) : (accept w s).irq = false := rfl

/-- A STATUS write lowers irq where it acknowledges (R273). -/
theorem irq_hostWrite_status (w : Word) (s : State) : (hostWrite 2#15 w s).irq = (s.irq && !w.getLsbD 1) := by
  rw [hostWrite_status, writeStatus_eq, State.irq, State.irq, Bool.and_right_comm]

/-- A CTRL write lowers irq where it resets, else its bit 0 gates DONE (R30, R311). -/
theorem irq_hostWrite_ctrl (w : Word) (s : State) :
    (hostWrite 3#15 w s).irq = (!w.getLsbD 1 && (s.status.done && w.getLsbD 0)) := by
  rw [hostWrite_ctrl, writeCtrl]
  cases w.getLsbD 1 <;> rfl

end Sys2Proof.Machine

namespace Sys2Proof.ExceptionClaims

open Sys2Proof.Machine

/-- Settles O19: a rejection and a success are completions, and only a command that asks or parses goes on. -/
theorem everyCommandCompletesOrWaitsUnchanged : Obligations.EveryCommandCompletesOrWaitsUnchanged := by
  intro i s
  obtain ⟨t, ht, he⟩ := exec_effect i s
  refine ⟨t, ht, ?_⟩
  cases he.ending with
  | rejected c _ h => exact .inl ⟨c, h.1⟩
  | succeeded h => exact .inl ⟨.success, h⟩
  | goesOn h _ hi => exact .inr ⟨h, hi⟩

/-- Settles O20: a command that has written ends with SUCCESS. -/
theorem failingCommandWritesNothing : Obligations.FailingCommandWritesNothing :=
  fun _ _ _ _ h hc hne => (ending_of_exec h).sameData hc hne

/-- Settles O21: the codes of the rejections stand in the matrix, and SUCCESS in its every row. -/
theorem commandsCompleteOnlyWithTheirMatrixCodes : Obligations.CommandsCompleteOnlyWithTheirMatrixCodes :=
  fun _ _ _ _ hi h hc => (ending_of_exec h).code_mem hi hc

/-- Settles O15: irq after a completion, an acceptance, and a write to STATUS or CTRL. -/
theorem interruptLineFollowsDoneAndEnable : Obligations.InterruptLineFollowsDoneAndEnable := by
  intro s c w
  refine ⟨irq_complete c s, by simp [irq_hostWrite_status], fun hb => ?_, ?_, ?_, ?_⟩
  · simp [hostWrite_cmd, hb]
  all_goals simp [irq_hostWrite_ctrl]

end Sys2Proof.ExceptionClaims
end

section
/-! PROOFS. The statements of 70_reset_and_hazards.md: reset, soft reset, and SAMPLEU while its Parse goes on. -/

open Sys2Proof.Claims

namespace Sys2Proof.Machine

/-! ### Reset and soft reset (R310, R311) -/

theorem step_reset {s : State} {rest : List Event} (h : s.agenda = .reset :: rest) :
    step s = .next { State.reset with agenda := rest } := by
  rw [step, h]
  rfl

/-- A CTRL write with SRST is a reset, whatever its bit 0 is (R30). -/
theorem hostWrite_ctrl_srst {w : Word} (hw : w.getLsbD 1 = true) (s : State) :
    hostWrite 3#15 w s = resetBlock s := by
  rw [hostWrite_ctrl, writeCtrl, if_pos hw]

/-- Where nothing has been asked, an answer is discarded, marked late or not (R287, R311). -/
theorem step_discards_answer {s : State} {e : Event} {ans : EntropyAnswer} {rest : List Event}
    (he : e = .entropy ans ∨ e = .lateEntropy ans) (h : s.agenda = e :: rest) (hq : s.engine.entReq = none) :
    step s = .next { s with agenda := rest } := by
  rcases he with rfl | rfl
  · rw [step_entropy h]
    exact congrArg Host.Outcome.next (deliverEntropy_unasked hq)
  · exact step_lateEntropy h

/-! ### The core alone: a command goes on, or the core holds (R74, R295) -/

/-- With no command running and nothing on the agenda the state stays, however often the core moves (log 21). -/
theorem coreMoves_of_not_busy {s : State} (ha : s.agenda = []) (hb : s.status.busy = false) (k : Nat) :
    coreMoves k s = .next s := by
  have hstep : step s = .next s := by
    rw [step, ha]
    change coreMove s = _
    rw [coreMove, if_neg (by simp [running, hb])]
  induction k with
  | zero => rfl
  | succ k ih => rw [coreMoves_succ_of_step hstep, ih]

/-- The accepted command is i, it does not wait for the entropy provider, and only the core moves from now on. -/
structure CoreRuns (i : Instr) (s : State) : Prop where
  agenda : s.agenda = []
  busy : s.status.busy = true
  unasked : s.engine.entReq = none
  decoded : decode s.cmd = .ok i

theorem CoreRuns.step_eq {i : Instr} {s : State} (h : CoreRuns i s) : step s = exec i s := by
  rw [step, h.agenda]
  exact coreMove_of_decode h.busy h.unasked h.decoded

theorem CoreRuns.keepParsing {i : Instr} {s : State} (h : CoreRuns i s) : CoreRuns i (keepParsing s) :=
  ⟨h.agenda, h.busy, h.unasked, h.decoded⟩

theorem CoreRuns.coreMoves_succ {i : Instr} {s t : State} (h : CoreRuns i s) (ht : exec i s = .next t) (k : Nat) :
    coreMoves (k + 1) s = coreMoves k t :=
  coreMoves_succ_of_step (h.step_eq.trans ht) k

/-! ### SAMPLEU, move by move (R202, R327) -/

theorem keepParsing_iterate (k : Nat) (s : State) : keepParsing^[k] s =
    { s with engine := { s.engine with parseRound := s.engine.parseRound + k } } := by
  induction k with
  | zero => rfl
  | succ k ih => rw [Function.iterate_succ_apply', ih]; rfl

/-- The XOF stream that SAMPLEU parses. -/
def sampleuStream (a b : Fin 4) (addr : Imm16) (s : State) : Nat → Byte :=
  Config.sym.xof (memRead s addr.toNat 32) (BitVec.ofNat 8 a.val) (BitVec.ofNat 8 b.val)

section Sampleu

variable {d : Fin 8} {a b : Fin 4} {addr : Imm16} {s : State}

/-- With the seed inside BUF only Parse is left to look at. -/
theorem exec_sampleu (d : Fin 8) (hin : InBuf addr.toNat 32) :
    exec (.sampleu d a b addr) s = finishSample d (sampleuStream a b addr s) s := ite_fitsBuf_of_inBuf hin

theorem exec_sampleu_of_none (hin : InBuf addr.toNat 32) (hp : parse (parseFuel s) (sampleuStream a b addr s) = none) :
    exec (.sampleu d a b addr) s = .next (keepParsing s) := by
  rw [exec_sampleu d hin, finishSample, hp]

theorem exec_sampleu_of_some (hin : InBuf addr.toNat 32) {f : Poly}
    (hp : parse (parseFuel s) (sampleuStream a b addr s) = some f) :
    exec (.sampleu d a b addr) s = .next (complete .success (writeR d f s)) := by
  rw [exec_sampleu d hin, finishSample, hp]

/-- Where Parse ends, further moves would have given the same state: the result is the same, and a completion leaves no count
of moves. -/
theorem exec_sampleu_iterate_of_some (hin : InBuf addr.toNat 32) {f : Poly}
    (hp : parse (parseFuel s) (sampleuStream a b addr s) = some f) (k : Nat) :
    exec (.sampleu d a b addr) (keepParsing^[k] s) = .next (complete .success (writeR d f s)) := by
  rw [keepParsing_iterate]
  exact exec_sampleu_of_some hin (parse_mono (Nat.mul_le_mul_left _ (by simp)) hp)

/-- The moves of the core before the last one do no more than count themselves: either each of them found that Parse goes on,
or the command has completed and the last one would find the same. -/
theorem coreMoves_sampleu (h : CoreRuns (.sampleu d a b addr) s) (hin : InBuf addr.toNat 32) (k : Nat) :
    coreMoves (k + 1) s = exec (.sampleu d a b addr) (keepParsing^[k] s) := by
  induction k generalizing s with
  | zero =>
    obtain ⟨t, ht, -⟩ := exec_effect (.sampleu d a b addr) s
    exact (h.coreMoves_succ ht 0).trans ht.symm
  | succ k ih =>
    cases hp : parse (parseFuel s) (sampleuStream a b addr s) with
    | none =>
      rw [h.coreMoves_succ (exec_sampleu_of_none hin hp)]
      exact ih h.keepParsing
    | some f =>
      rw [h.coreMoves_succ (exec_sampleu_of_some hin hp), exec_sampleu_iterate_of_some hin hp]
      exact coreMoves_of_not_busy (s := complete .success (writeR d f s)) h.agenda rfl (k + 1)

end Sampleu

end Sys2Proof.Machine

namespace Sys2Proof.ResetClaims

open Sys2Proof.Machine

/-- Settles O51: the moves so far are one move with their whole budget (`coreMoves_sampleu`), and what one move does is
known (`sampleuWith_effect`). -/
theorem uniformSamplerRunsUntilParseEnds : Obligations.UniformSamplerRunsUntilParseEnds := by
  intro d a b addr s k ha hb hq hd hin
  have hruns : CoreRuns (.sampleu d a b addr) s := ⟨ha, hb, hq, hd⟩
  obtain ⟨t, ht, hparsed, hunparsed⟩ := sampleuWith_effect Config.sym d a b (s := keepParsing^[k] s) hin
  refine ⟨t, (coreMoves_sampleu hruns hin k).trans ht, ?_⟩
  rw [keepParsing_iterate] at hparsed hunparsed
  exact ⟨hparsed, fun h => (hunparsed h).1⟩

/-- Settles O9: the reset state has no request outstanding, so an answer after it is discarded. -/
theorem softResetIsResetInEveryState : Obligations.SoftResetIsResetInEveryState := by
  refine ⟨fun s rest => step_reset, fun s w hw => ⟨hostWrite_ctrl_srst hw s, fun e ans rest he ha => ⟨_, ?_, rfl⟩⟩⟩
  have hwrite : step s = .next { State.reset with agenda := e :: rest } := by
    rw [step_hostWrite ha, hostWrite_ctrl_srst hw]
    rfl
  have hanswer : step { State.reset with agenda := e :: rest } = .next { State.reset with agenda := rest } :=
    step_discards_answer he rfl rfl
  change coreMoves 2 s = _
  rw [coreMoves_succ_of_step hwrite, coreMoves_succ_of_step hanswer]
  rfl

end Sys2Proof.ResetClaims
end
